-- ==== Sys2Proof/Word.lean ====
section
/-! DEFINITION. The words of the block: bytes, 32-bit words, one-bit-per-buffer masks (spec/10_state.md, R10: bit 0
is the least significant bit, every value is unsigned). -/

namespace Sys2Proof

/-- An 8-bit value: a byte of a frame image, an 8-bit operand or result register. -/
abbrev Byte := BitVec 8

/-- A 32-bit value: `STATUS`, `IE`, `BTR`, a word of a layout W image. -/
abbrev Word := BitVec 32

/-- A one-bit-per-buffer mask: `FREE_MASK`, `TXREQ`, `RX_ARMED` (R24). -/
abbrev Mask := BitVec 8

end Sys2Proof
end

