-- ==== Sys2Proof/Syntax.lean ====
section
/-! DEFINITION. The thirteen commands of the operation map (R88), one constructor per row of the opcode table. -/

namespace Sys2Proof

/-- A command. `idx` is the buffer index operand of format I (R87); format N commands have none. Every other operand
comes from an operand register. -/
inductive Instr where
  /-- `BT.COMPUTE`, op 0x1 (R120). -/
  | btCompute
  /-- `FC.ENCD`, op 0x3 (R140). -/
  | fcEncd
  /-- `FC.ENCR`, op 0x4 (R146). -/
  | fcEncr
  /-- `FC.DEC`, op 0x5 (R150). -/
  | fcDec
  /-- `BA.ALLOC i`, op 0x6 (R170). -/
  | baAlloc (idx : Nat)
  /-- `BA.FREE i`, op 0x7 (R173). -/
  | baFree (idx : Nat)
  /-- `CM.INIT`, op 0x8 (R182). -/
  | cmInit
  /-- `CM.SLEEP`, op 0x9 (R188). -/
  | cmSleep
  /-- `CM.WAKE`, op 0xA (R190). -/
  | cmWake
  /-- `CM.ERRCNT`, op 0xB (R192). -/
  | cmErrcnt
  /-- `TX.SEND i`, op 0xC (R200). -/
  | txSend (idx : Nat)
  /-- `TX.SENDR i`, op 0xD (R206). -/
  | txSendr (idx : Nat)
  /-- `IS.DISPATCH`, op 0xE (R245). -/
  | isDispatch
  deriving DecidableEq, Repr

end Sys2Proof
end

