-- ==== Sys2Proof/WellFormed.lean ====
section
/-! DEFINITION. Which terms of `Instr` are commands of the block: the index is an unsigned 4-bit value (R87). -/

namespace Sys2Proof

/-- R87: `idx` is "an unsigned 4-bit value 0..15, used as it stands". Format N has no operand to check. -/
def Instr.wellFormed : Instr → Bool
  | .btCompute => true
  | .fcEncd => true
  | .fcEncr => true
  | .fcDec => true
  | .baAlloc idx => decide (idx < 16)
  | .baFree idx => decide (idx < 16)
  | .cmInit => true
  | .cmSleep => true
  | .cmWake => true
  | .cmErrcnt => true
  | .txSend idx => decide (idx < 16)
  | .txSendr idx => decide (idx < 16)
  | .isDispatch => true

end Sys2Proof
end

