-- ==== Sys2Proof/Decode.lean ====
section
/-! DEFINITION. The command decoder, total on every byte and rejecting by name, and the encoder, both from the operation
map of R88. -/

namespace Sys2Proof

/-- Why a byte selects no operation (R89). -/
inductive Reserved where
  /-- `op` is 0x0, 0x2 or 0xF. -/
  | reservedOp
  /-- A format N operation with `idx` not zero. -/
  | nonzeroIdx
  deriving DecidableEq, Repr

/-- What the decoder reads from a byte: a command, or a reserved word with its reason. -/
inductive Decoded where
  | command (i : Instr)
  | reserved (why : Reserved)
  deriving DecidableEq, Repr

/-- `op`, bits 7:4 of `CMD` (R86). -/
def opField (w : Byte) : Nat := (w.extractLsb' 4 4).toNat

/-- `idx`, bits 3:0 of `CMD` (R86). -/
def idxField (w : Byte) : Nat := (w.extractLsb' 0 4).toNat

/-- Format N (R87): `idx` must be 0. -/
def formatN (i : Instr) (idx : Nat) : Decoded :=
  if idx = 0 then .command i else .reserved .nonzeroIdx

/-- The operation map of R88. A format I pattern is never reserved (R90). -/
def decode (w : Byte) : Decoded :=
  match opField w with
  | 0x1 => formatN .btCompute (idxField w)
  | 0x3 => formatN .fcEncd (idxField w)
  | 0x4 => formatN .fcEncr (idxField w)
  | 0x5 => formatN .fcDec (idxField w)
  | 0x6 => .command (.baAlloc (idxField w))
  | 0x7 => .command (.baFree (idxField w))
  | 0x8 => formatN .cmInit (idxField w)
  | 0x9 => formatN .cmSleep (idxField w)
  | 0xA => formatN .cmWake (idxField w)
  | 0xB => formatN .cmErrcnt (idxField w)
  | 0xC => .command (.txSend (idxField w))
  | 0xD => .command (.txSendr (idxField w))
  | 0xE => formatN .isDispatch (idxField w)
  | _ => .reserved .reservedOp

/-- The word with operation number `op` and index field `idx` (R86). -/
def commandWord (op idx : Nat) : Byte := BitVec.ofNat 4 op ++ BitVec.ofNat 4 idx

/-- The word of a well-formed command, from the operation map of R88. -/
def encode : Instr → Byte
  | .btCompute => commandWord 0x1 0
  | .fcEncd => commandWord 0x3 0
  | .fcEncr => commandWord 0x4 0
  | .fcDec => commandWord 0x5 0
  | .baAlloc idx => commandWord 0x6 idx
  | .baFree idx => commandWord 0x7 idx
  | .cmInit => commandWord 0x8 0
  | .cmSleep => commandWord 0x9 0
  | .cmWake => commandWord 0xA 0
  | .cmErrcnt => commandWord 0xB 0
  | .txSend idx => commandWord 0xC idx
  | .txSendr idx => commandWord 0xD idx
  | .isDispatch => commandWord 0xE 0

/-- The command the decoder reads from the bits `w` of an opcode-table row of `nbits` bits: its first byte (R85: every
command is one 8-bit word). -/
def decodeTableWord (nbits w : Nat) : Option Instr :=
  match decode (BitVec.ofNat 8 (w % 2 ^ nbits)) with
  | .command i => some i
  | .reserved _ => none

end Sys2Proof
end

