-- ==== Sys2Proof/Config.lean ====
section
/-! DEFINITION. The static configuration record `cfg` (R6), its named instances, and the free value of a slot byte
that nothing has written. -/

namespace Sys2Proof

/-- `LAYOUT`: which frame image layout the codec uses (R94), the byte layout or the word layout. -/
inductive Layout where
  | B
  | W
  deriving DecidableEq, Repr

/-- `IRQMAP` for one pair of buffer counts: the status bit of each transmit buffer, of each receive buffer, and of the
three other sources (R6, R32). -/
structure IrqBits where
  tx   : List Nat
  rx   : List Nat
  err  : Nat
  ovf  : Nat
  wake : Nat
  deriving DecidableEq, Repr

/-- One row of `IRQMAP`: the bits it assigns when `txn` and `rxn` buffers are configured. R7: the map may depend on the
counts. -/
structure IrqRow where
  txn  : Nat
  rxn  : Nat
  bits : IrqBits
  deriving DecidableEq, Repr

/-- The configuration record of R6. `TX_MAX`, `RX_MAX`, `ERRCNT_W` and `EVCNT_W` are fixed (8, 8, 8, 32) and stand in the
widths of the registers. `irqmap` is a finite table over pairs of counts: a pair without a row takes `MAP_SHIFTED`, "the
value taken when none is given" (R38). DESIGN CHOICE (log 25): safe, every map of R6 is such a table. -/
structure Cfg where
  layout       : Layout
  fClk         : Nat
  tqDiv        : Nat
  brpMax       : Nat
  sjwW         : Nat
  propW        : Nat
  ph1W         : Nat
  ph2W         : Nat
  segBias      : Nat
  bufCap       : Nat
  irqmap       : List IrqRow
  extSupported : Bool
  deriving DecidableEq, Repr

/-- The defaults of R6 for the parameters that have one; `LAYOUT` and `F_CLK` are OPEN and given. -/
def Cfg.withDefaults (layout : Layout) (fClk : Nat) : Cfg where
  layout := layout
  fClk := fClk
  tqDiv := 2
  brpMax := match layout with
    | .B => 63
    | .W => 127
  sjwW := 2
  propW := 3
  ph1W := 3
  ph2W := 3
  segBias := 1
  bufCap := 8
  irqmap := []
  extSupported := true

/-- `cfgB` of spec/95_test_vectors.md. It is the value of the field `cfg` at `State.reset`: the source gives the OPEN
parameters no value. DESIGN CHOICE (log 2): unsafe, no statement may rest on it. -/
def cfgB : Cfg := Cfg.withDefaults .B 64000000

/-- `cfgB16` of spec/95_test_vectors.md. -/
def cfgB16 : Cfg := Cfg.withDefaults .B 16000000

/-- `cfgW` of spec/95_test_vectors.md. -/
def cfgW : Cfg := { Cfg.withDefaults .W 84000000 with tqDiv := 1 }

/-- The FREE VALUE of a slot byte that nothing has written since hardware reset number `epoch` (R46, R254: "a model treats
the read as a draw"). It has no body: nothing can be proved of it. It depends on the place and the epoch only, so that
reading a slot is idempotent (R62). DESIGN CHOICE (log 5): safe. -/
opaque Config.unwrittenByte (epoch key : Nat) : Byte

end Sys2Proof
end

