-- ==== Sys2Proof/Machine/State.lean ====
section
/-! DEFINITION. The state record of R20 to R44 as plain data, the moves of the agents, the reasons a step can stop, and
the state after hardware reset (R46). -/

namespace Sys2Proof.Machine

/-- Result codes, the values of `RES_CODE` (R220). The reserved codes 6..15 are never written (U18). -/
inductive ResCode where
  | ok
  | invalidArgument
  | invalidTiming
  | busy
  | notSupported
  | hardwareFault
  deriving DecidableEq, Repr

/-- Controller modes, the values of `MODE` (R25). Values 5..7 are never written (U18). -/
inductive Mode where
  | uninitialized
  | configuration
  | normal
  | sleep
  | listenOnly
  deriving DecidableEq, Repr

/-- Frame kind (R133). -/
inductive FrameKind where
  | data
  | remote
  deriving DecidableEq, Repr

/-- Dispatcher state `DSTATE` (R43). -/
inductive DState where
  | idle
  | active
  deriving DecidableEq, Repr

/-- Execution contexts (R260). -/
inductive Context where
  | application
  | interrupt
  deriving DecidableEq, Repr

/-- The scan position of a running dispatch (R23, R43): the buffer whose turn it is. -/
inductive ScanPos where
  | tx (i : Nat)
  | rx (j : Nat)
  deriving DecidableEq, Repr

/-- The two slot address spaces (R60). -/
inductive Space where
  | TXS
  | RXS
  deriving DecidableEq, Repr

/-- A slot address `(space, slot, offset)` (R61). -/
structure SlotAddr where
  space  : Space
  slot   : Nat
  offset : Nat
  deriving DecidableEq, Repr

/-- The carrier of a whole frame image: 13 bytes in layout B, 4 words in layout W (R21, R22). Both are held; `LAYOUT`
says which one exists. DESIGN CHOICE (log 18): safe. -/
structure ImageReg where
  bytes : Vector Byte 13
  words : Vector Word 4
  deriving DecidableEq, Repr

/-- A decoded message `(kind, identifier, payload)` (R133): a remote frame has a length and no bytes. -/
structure Message where
  kind  : FrameKind
  id    : Word
  ext   : Bool
  len   : Nat
  bytes : List Byte
  deriving DecidableEq, Repr

/-- Output events (R14). -/
inductive Event where
  | txHandler (i : Nat)
  | rxHandler (j : Nat) (msg : Message)
  | rearm (j : Nat)
  | requestSend (i : Nat)
  | xcvr (on : Bool)
  deriving DecidableEq, Repr

/-- The operand registers, written by the application (R21). -/
structure OperandRegs where
  id   : Word
  ext  : Bool
  len  : Byte
  data : Vector Byte 8
  raw  : ImageReg
  br   : Word
  sjw  : Byte
  prop : Byte
  ph1  : Byte
  ph2  : Byte
  txn  : Byte
  rxn  : Byte
  txh  : Bool
  rxh  : Bool
  deriving DecidableEq, Repr

/-- The input registers, written by the backend agent (R15, R21): `IN_RB` (bit 0 `rb.reset`, bit 1 `rb.timing`, bit 2
`rb.ie`, bit 3 `rb.mode`) and `IN_ACCEPT`. -/
structure InputRegs where
  rb     : BitVec 4
  accept : Bool
  deriving DecidableEq, Repr

/-- The result registers (R22). `some` is `RES_SOME`, `tec` and `recv` are `RES_TEC` and `RES_REC`. -/
structure ResultRegs where
  code   : ResCode
  some   : Bool
  idx    : BitVec 4
  img    : ImageReg
  imgLen : BitVec 5
  kind   : FrameKind
  id     : Word
  ext    : Bool
  len    : BitVec 4
  data   : Vector Byte 8
  brp    : Byte
  sjw    : Byte
  prop   : Byte
  ph1    : Byte
  ph2    : Byte
  btr    : Word
  tec    : Byte
  recv   : Byte
  deriving DecidableEq, Repr

/-- The control and status registers (R25 to R37). `TXN` and `RXN` are held as values 0..8 (R26). `recv` is `REC`. -/
structure ControlRegs where
  mode     : Mode
  txn      : Fin 9
  rxn      : Fin 9
  hnd      : BitVec 2
  freeMask : Mask
  txReq    : Mask
  rxArmed  : Mask
  btr      : Word
  status   : Word
  ie       : Word
  errCnt   : Word
  ovfCnt   : Word
  wakeCnt  : Word
  tec      : Byte
  recv     : Byte
  xcvrEn   : Bool
  deriving DecidableEq, Repr

/-- The message register `MSG` (R42). -/
structure MsgReg where
  kind : FrameKind
  id   : Word
  ext  : Bool
  len  : BitVec 4
  data : Vector Byte 8
  deriving DecidableEq, Repr

/-- The private state of a running `TX.SEND` or `TX.SENDR` (R44): the buffer index, and after step S2 the encoded image
as the bytes of the slot. -/
structure Sending where
  idx   : Nat
  image : Option (List Byte)
  deriving DecidableEq, Repr

/-- Hidden state (R43, R44). -/
structure HiddenRegs where
  dstate  : DState
  snap    : Word
  scan    : ScanPos
  sending : Option Sending
  deriving DecidableEq, Repr

/-- One write of an operand register by the application (R21). -/
inductive OperandWrite where
  | id (v : Word)
  | ext (v : Bool)
  | len (v : Byte)
  | data (k : Fin 8) (v : Byte)
  | rawByte (k : Fin 13) (v : Byte)
  | rawWord (k : Fin 4) (v : Word)
  | br (v : Word)
  | sjw (v : Byte)
  | prop (v : Byte)
  | ph1 (v : Byte)
  | ph2 (v : Byte)
  | txn (v : Byte)
  | rxn (v : Byte)
  | txh (v : Bool)
  | rxh (v : Bool)
  deriving DecidableEq, Repr

/-- One move of the backend agent. The first seven are the moves of R236 to R241; the last two are the stronger
environment of R241, in which any bit of `STATUS` may be set and any slot overwritten at any time. -/
inductive BackendMove where
  /-- Transmit completion of buffer `i` (R236). -/
  | complete (i : Fin 8)
  /-- Frame delivery into receive slot `j` (R237). -/
  | deliver (j : Fin 8) (raw : ImageReg)
  /-- Bus error (R238). -/
  | busError
  /-- Receive overflow (R238). -/
  | overflow
  /-- Error counter update (R239). -/
  | counters (tec recv : Byte)
  /-- Wake (R240). -/
  | wake
  /-- Read-back verdicts and hardware accept (R241). -/
  | verdicts (rb : BitVec 4) (accept : Bool)
  /-- Stronger environment (R241): set the bits of `STATUS` that are 1 in `bits`. -/
  | raiseStatus (bits : Word)
  /-- Stronger environment (R241): overwrite a slot. -/
  | fillSlot (space : Space) (slot : Fin 8) (raw : ImageReg)
  deriving DecidableEq, Repr

/-- What another agent may do at a boundary between two steps of a running command (R73, R74), and what a handler must
not do (R232, U8). -/
inductive GapMove where
  /-- The backend agent moves. -/
  | backend (m : BackendMove)
  /-- The core takes `IRQ` (R251). -/
  | takeIrq
  /-- A running handler writes `CMD`: no meaning (U8). -/
  | handlerCommand (w : Byte)
  /-- A running handler writes an operand register: no meaning (U8). -/
  | handlerOperand (o : OperandWrite)
  deriving DecidableEq, Repr

/-- What happens next at the block between two commands. -/
inductive Move where
  /-- The application writes `CMD` (R85). -/
  | command (w : Byte)
  /-- The application writes an operand register (R21). -/
  | operand (o : OperandWrite)
  /-- The core takes `IRQ` (R251). -/
  | takeIrq
  /-- The backend agent moves (R236 to R241). -/
  | backend (m : BackendMove)
  /-- Hardware reset (R270). -/
  | hardwareReset
  deriving DecidableEq, Repr

/-- Why the machine stops with a fault: never. The block has no trap (R67, R224), every error is a result code, and what
has no meaning is refused (R13). DEDUCED (log 17): safe. -/
inductive Fault where
  deriving DecidableEq, Repr

/-- Why the machine gives a situation no meaning: the spec's `refuse` (R13). Each one is safe: the model stops where the
spec gives no next state. -/
inductive Refusal where
  /-- An instruction with no meaning yet, raised by `exec` only. Safe. -/
  | notModelled (mnemonic : String)
  /-- U5, R181: a command in a mode where it has no meaning, raised by `TX.SEND`, `TX.SENDR`, `CM.SLEEP`, `CM.WAKE`.
  Safe. -/
  | commandOutsideItsMode (mode : Mode)
  /-- U4, R175: `BA.FREE i` with `i >= TXN`. Safe. -/
  | freeOfMissingBuffer
  /-- U3, R174: `BA.FREE i` while `TXREQ[i] = 1`. Safe. -/
  | freeOfOwnedBuffer
  /-- U1, R128: `BT.APPLY` outside `Configuration`. Unreachable through `CM.INIT`. Safe. -/
  | timingOutsideConfiguration
  /-- U7, R7: the configuration is not well formed, raised by `step` only. Safe. -/
  | configurationIllFormed
  /-- U8, R232: a command issued from inside a handler invocation, raised at a boundary of a running dispatch. Safe. -/
  | commandFromHandler
  /-- U8, R287: an operand register written from inside a handler invocation, raised as `commandFromHandler`. Safe. -/
  | operandFromHandler
  /-- U23, R67: a slot access that is not admitted, raised by `memRead` and `memWrite` only. No command produces one. Safe. -/
  | slotAccessNotAdmitted
  deriving DecidableEq, Repr

/-- The state of one block instance. The last four fields are the MODEL's own (log 1, 5, 7, 8, 19): the configuration, a
parameter of every step that no step writes (R20); the agents' next moves; the moves made at the boundaries inside a
running command; the count of hardware resets. -/
structure State where
  /-- `CMD` (R85). -/
  cmd    : Byte
  ops    : OperandRegs
  inp    : InputRegs
  res    : ResultRegs
  ctl    : ControlRegs
  hid    : HiddenRegs
  msg    : MsgReg
  /-- The slots (R40, R41): cells `(key, byte)` with strictly rising keys; a key not listed has never been written. -/
  mem    : List Host.Cell
  /-- The output trace (R14), oldest event first. -/
  trace  : List Event
  cfg    : Cfg
  agenda : List Move
  gaps   : List (List GapMove)
  epoch  : Nat
  deriving DecidableEq, Repr

/-- The carrier all of whose bits are 1. -/
def ImageReg.ones : ImageReg where
  bytes := Vector.replicate 13 0xFF
  words := Vector.replicate 4 0xFFFFFFFF

/-- Operand registers after hardware reset: unspecified, "never zero" (R46). DESIGN CHOICE (log 3): all-ones, unsafe. -/
def OperandRegs.reset : OperandRegs where
  id := 0xFFFFFFFF
  ext := true
  len := 0xFF
  data := Vector.replicate 8 0xFF
  raw := ImageReg.ones
  br := 0xFFFFFFFF
  sjw := 0xFF
  prop := 0xFF
  ph1 := 0xFF
  ph2 := 0xFF
  txn := 0xFF
  rxn := 0xFF
  txh := true
  rxh := true

/-- Input registers after hardware reset: unspecified (R46). DESIGN CHOICE (log 3): all-ones, unsafe. -/
def InputRegs.reset : InputRegs where
  rb := 0xF
  accept := true

/-- Result registers after hardware reset: unspecified (R46). DESIGN CHOICE (log 3): all-ones, the last value of an
enumeration; unsafe. -/
def ResultRegs.reset : ResultRegs where
  code := .hardwareFault
  some := true
  idx := 0xF
  img := ImageReg.ones
  imgLen := 0x1F
  kind := .remote
  id := 0xFFFFFFFF
  ext := true
  len := 0xF
  data := Vector.replicate 8 0xFF
  brp := 0xFF
  sjw := 0xFF
  prop := 0xFF
  ph1 := 0xFF
  ph2 := 0xFF
  btr := 0xFFFFFFFF
  tec := 0xFF
  recv := 0xFF

/-- The control and status registers after a hardware reset and after a controller reset: the table of R46. -/
def ControlRegs.reset : ControlRegs where
  mode := .uninitialized
  txn := 0
  rxn := 0
  hnd := 0
  freeMask := 0
  txReq := 0
  rxArmed := 0
  btr := 0
  status := 0
  ie := 0
  errCnt := 0
  ovfCnt := 0
  wakeCnt := 0
  tec := 0
  recv := 0
  xcvrEn := false

/-- Hidden state after hardware reset: `DSTATE` is `Idle` (R46), no send runs; `SNAP` and the scan position are
unspecified. DESIGN CHOICE (log 3) for those two: unsafe. -/
def HiddenRegs.reset : HiddenRegs where
  dstate := .idle
  snap := 0xFFFFFFFF
  scan := .rx 7
  sending := none

/-- `MSG` after hardware reset: unspecified (R42). DESIGN CHOICE (log 3): all-ones, unsafe. -/
def MsgReg.reset : MsgReg where
  kind := .remote
  id := 0xFFFFFFFF
  ext := true
  len := 0xF
  data := Vector.replicate 8 0xFF

/-- The machine after hardware reset under configuration `c` (R46, R271): nothing is scheduled, no slot byte has been
written. `CMD` is 0: DESIGN CHOICE (log 4), unsafe. -/
def State.resetWith (c : Cfg) : State where
  cmd := 0
  ops := OperandRegs.reset
  inp := InputRegs.reset
  res := ResultRegs.reset
  ctl := ControlRegs.reset
  hid := HiddenRegs.reset
  msg := MsgReg.reset
  mem := []
  trace := []
  cfg := c
  agenda := []
  gaps := []
  epoch := 0

/-- The machine right after hardware reset. The configuration is `cfgB`: DESIGN CHOICE (log 2), unsafe. -/
def State.reset : State := State.resetWith cfgB

/-- What running a command answers. -/
abbrev Out := Host.Outcome State Fault Refusal

end Sys2Proof.Machine
end

