-- ==== Sys2Proof/Machine/Ops.lean ====
section
/-! DEFINITION. The named operations over the state: sequencing, results, events, masks, the slot memory, the controller
reset, taking the interrupt and returning from it. -/

namespace Sys2Proof.Machine

/-- Go on with `f` if `o` is a next state; a fault or a refusal stays. -/
def andThen (o : Out) (f : State → Out) : Out :=
  match o with
  | .next s => f s
  | .fault r => .fault r
  | .refused r => .refused r

/-- The end of a command (R13): `return Ok` and `raise <Error>` write the result code and nothing else. -/
def finish (c : ResCode) (s : State) : State :=
  { s with res := { s.res with code := c } }

/-- `emit E` (R14): the event is appended to the output trace. -/
def emit (e : Event) (s : State) : State :=
  { s with trace := s.trace ++ [e] }

/-- `bit_modify(register, mask, value)` (R64, R77): the bits of the mask take those of the value, in one indivisible
step. -/
def bitModify {w : Nat} (v mask value : BitVec w) : BitVec w := (v &&& ~~~mask) ||| (value &&& mask)

/-- The mask of bit `k` of a register of `w` bits: zero when there is no bit `k`. -/
def bitMask (w k : Nat) : BitVec w := 1#w <<< k

/-- `NAME[k] <- 1` (R11): bit `k` only, no effect when there is no bit `k`. -/
def setBit {w : Nat} (v : BitVec w) (k : Nat) : BitVec w := bitModify v (bitMask w k) (bitMask w k)

/-- `NAME[k] <- 0` (R11): bit `k` only, no effect when there is no bit `k`. -/
def clearBit {w : Nat} (v : BitVec w) (k : Nat) : BitVec w := bitModify v (bitMask w k) 0

/-- `2^n - 1` as a mask: bits `0 .. n-1` are 1 (R177, R182). -/
def lowMask (n : Nat) : Mask := BitVec.ofNat 8 (2 ^ n - 1)

/-- `FREE_MASK[i] <- 1` (R173, R176). -/
def freeBuffer (i : Nat) (s : State) : State :=
  { s with ctl := { s.ctl with freeMask := setBit s.ctl.freeMask i } }

/-- `FREE_MASK[i] <- 0` (R76, R170). -/
def takeBuffer (i : Nat) (s : State) : State :=
  { s with ctl := { s.ctl with freeMask := clearBit s.ctl.freeMask i } }

/-- `request_send` of buffer `i` (R64): `TXREQ[i] <- 1`, `emit REQUEST_SEND(i)`. -/
def requestSend (i : Nat) (s : State) : State :=
  emit (.requestSend i) { s with ctl := { s.ctl with txReq := setBit s.ctl.txReq i } }

/-- Re-arm of receive slot `j` (R248): `RX_ARMED[j] <- 1`, `emit REARM(j)`. -/
def rearm (j : Nat) (s : State) : State :=
  emit (.rearm j) { s with ctl := { s.ctl with rxArmed := setBit s.ctl.rxArmed j } }

/-- `MODE <- m`. -/
def setMode (m : Mode) (s : State) : State :=
  { s with ctl := { s.ctl with mode := m } }

/-- `XCVR_EN <- b; emit XCVR(b)` (R37). -/
def driveXcvr (b : Bool) (s : State) : State :=
  emit (.xcvr b) { s with ctl := { s.ctl with xcvrEn := b } }

/-- The private state of a running send (R44). -/
def setSending (p : Option Sending) (s : State) : State :=
  { s with hid := { s.hid with sending := p } }

/-- The first elements of `old` replaced by those of `new`, the rest unchanged: a write of as many elements as `new` has
(R22, R140, R150). -/
def overlay {α : Type} {n : Nat} (old : Vector α n) (new : List α) : Vector α n :=
  Vector.ofFn fun k => (new[k.val]?).getD old[k]

/-! ### The slot memory -/

/-- The byte at a key, `none` where nothing has been written. -/
def Memory.get (m : List Host.Cell) (k : Nat) : Option Byte :=
  match m with
  | [] => none
  | c :: cs => if c.1 = k then some c.2 else Memory.get cs k

/-- Write one byte, keeping the keys strictly rising. -/
def Memory.set (m : List Host.Cell) (k : Nat) (b : Byte) : List Host.Cell :=
  match m with
  | [] => [(k, b)]
  | c :: cs =>
    if k < c.1 then (k, b) :: c :: cs
    else if k = c.1 then (k, b) :: cs
    else c :: Memory.set cs k b

/-- Write bytes at `k`, `k + 1`, and so on. -/
def Memory.setList (m : List Host.Cell) (k : Nat) (bs : List Byte) : List Host.Cell :=
  match bs with
  | [] => m
  | b :: rest => Memory.setList (Memory.set m k b) (k + 1) rest

/-- The canonical form: keys strictly rising. An unlisted key holds no value, so no entry can equal one. -/
def Memory.wf (m : List Host.Cell) : Bool :=
  match m with
  | [] => true
  | c :: cs => cs.all (fun d => decide (c.1 < d.1)) && Memory.wf cs

/-- `IMG_BYTES` (R60). -/
def imgBytes (l : Layout) : Nat :=
  match l with
  | .B => 13
  | .W => 16

/-- The model's numbering of slot places: the spec fixes no address (R69). DESIGN CHOICE (log 6): safe, no rule shows
it. -/
def SlotAddr.key (a : SlotAddr) : Nat :=
  (match a.space with
    | .TXS => 0
    | .RXS => 128) + 16 * a.slot + a.offset

/-- The slot places that exist under a layout (R60, R61). -/
def keyExists (l : Layout) (k : Nat) : Bool :=
  decide (k < 256) && decide (k % 16 < imgBytes l)

/-- R67: which accesses of `n` bytes at `a` are admitted. In layout W an access of no word at offset 16 is one of them: it
reads or writes nothing. R61 gives the offsets 0, 4, 8, 12 and R67 bounds `offset + n` only. DESIGN CHOICE (log 27): safe, no
command makes such an access. -/
def admitted (l : Layout) (a : SlotAddr) (n : Nat) : Bool :=
  decide (a.slot < 8) &&
    match l with
    | .B => decide (1 ≤ n) && decide (a.offset + n ≤ 13)
    | .W => decide (a.offset % 4 = 0) && decide (n % 4 = 0) && decide (a.offset + n ≤ 16)

/-- The bytes of a word, least significant first (R66). -/
def wordBytes (w : Word) : List Byte :=
  [w.extractLsb' 0 8, w.extractLsb' 8 8, w.extractLsb' 16 8, w.extractLsb' 24 8]

/-- The word of four bytes, least significant first (R66). -/
def wordOfBytes (b0 b1 b2 b3 : Byte) : Word := b3 ++ b2 ++ b1 ++ b0

/-- One byte of a slot. A byte that nothing has written is the free value of its place (R254). -/
def readByte (s : State) (k : Nat) : Byte :=
  (Memory.get s.mem k).getD (Config.unwrittenByte s.epoch k)

/-- `MemRead(a, n)` as bytes in increasing offset order (R62), refused where it is not admitted (R67, U23). -/
def memRead (s : State) (a : SlotAddr) (n : Nat) : Except Refusal (List Byte) :=
  if admitted s.cfg.layout a n then
    .ok ((List.range n).map fun d => readByte s (a.key + d))
  else .error .slotAccessNotAdmitted

/-- `MemWrite(a, n, v)` with `n` the number of bytes of `v` (R63), refused where it is not admitted (R67, U23). -/
def memWrite (a : SlotAddr) (v : List Byte) (s : State) : Out :=
  if admitted s.cfg.layout a v.length then
    .next { s with mem := Memory.setList s.mem a.key v }
  else .refused .slotAccessNotAdmitted

/-- The bytes of a whole slot that a carrier gives under a layout: 13 bytes, or 4 words (R237). -/
def imageBytes (l : Layout) (r : ImageReg) : List Byte :=
  match l with
  | .B => r.bytes.toList
  | .W => r.words.toList.flatMap wordBytes

/-! ### Resets -/

/-- The trace after the transceiver is switched off: `XCVR(0)` is emitted if it was on (R37: "every change"). -/
def traceXcvrOff (s : State) : List Event :=
  if s.ctl.xcvrEn then s.trace ++ [.xcvr false] else s.trace

/-- Controller reset (R47, R184): the registers of the table of R46 take their reset values, `XCVR(0)` is emitted if the
transceiver was on, and slots, `MSG`, operand, input and result registers stay. `SNAP` and the scan position, to which
R46 gives no value, stay. DESIGN CHOICE (log 14): unsafe for a claim about them outside a dispatch. -/
def controllerReset (s : State) : State :=
  { s with
    ctl := ControlRegs.reset
    hid := { s.hid with dstate := .idle }
    trace := traceXcvrOff s }

/-- Hardware reset (R270): the state of R46 under the same configuration. The trace and the agents' next moves are no
registers and stay; the slots are unspecified afresh. `XCVR(0)` is emitted if the transceiver was on (R37). DEDUCED
(log 15): unsafe for a claim about the trace across a hardware reset. -/
def hardwareReset (s : State) : State :=
  { State.resetWith s.cfg with
    trace := traceXcvrOff s
    agenda := s.agenda
    gaps := s.gaps
    epoch := s.epoch + 1 }

/-! ### Taking the interrupt and returning from it -/

/-- Entry, step D0 (R251): `DSTATE <- Active`, `SNAP <- STATUS`. "Nothing else is saved": the block has no program
counter, no stack and no saved mode; `MODE` and the suspended command's private state stay. -/
def enterInterrupt (s : State) : State :=
  { s with hid := { s.hid with dstate := .active, snap := s.ctl.status } }

/-- Return, step D4 (R250, R252): all 32 bits of `STATUS` are cleared in one write, whatever they are, and
`DSTATE <- Idle`. Nothing is restored. -/
def returnInterrupt (s : State) : State :=
  { s with
    ctl := { s.ctl with status := 0 }
    hid := { s.hid with dstate := .idle } }

end Sys2Proof.Machine
end

