-- ==== Sys2Proof/Machine/Flags.lean ====
section
/-! DEFINITION. The flags of the block (R24): numeric codes, the status-bit map, the interrupt request line, the
execution context, the event counters, and the well-formedness of a configuration. -/

namespace Sys2Proof.Machine

/-- The number of a result code in `RES_CODE` (R220). -/
def ResCode.toBits : ResCode → BitVec 4
  | .ok => 0
  | .invalidArgument => 1
  | .invalidTiming => 2
  | .busy => 3
  | .notSupported => 4
  | .hardwareFault => 5

/-- The number of a mode in `MODE` (R25). -/
def Mode.toBits : Mode → BitVec 3
  | .uninitialized => 0
  | .configuration => 1
  | .normal => 2
  | .sleep => 3
  | .listenOnly => 4

/-! ### IRQMAP -/

/-- `MAP_SHIFTED` for counts `T` and `R` (R38). -/
def mapShifted (T R : Nat) : IrqBits where
  tx := List.range T
  rx := (List.range R).map (T + ·)
  err := 16
  ovf := 17
  wake := 18

/-- `IRQMAP` for counts `T` and `R`: the configured row, else `MAP_SHIFTED` (R38). -/
def irqBits (c : Cfg) (T R : Nat) : IrqBits :=
  match c.irqmap.find? (fun r => r.txn == T && r.rxn == R) with
  | some r => r.bits
  | none => mapShifted T R

/-- `IRQMAP` under the configured counts. -/
def State.irqBits (s : State) : IrqBits :=
  Machine.irqBits s.cfg s.ctl.txn.val s.ctl.rxn.val

/-- `txbit(i)`. An index the map gives no bit has none: bit 32 of a 32-bit word reads 0 and is not set (R39). -/
def txBit (s : State) (i : Nat) : Nat := (s.irqBits.tx[i]?).getD 32

/-- `rxbit(j)`, with the same convention. -/
def rxBit (s : State) (j : Nat) : Nat := (s.irqBits.rx[j]?).getD 32

/-- The word with exactly the listed bits set. -/
def bitsWord (ks : List Nat) : Word := ks.foldl setBit 0

/-- The value `CM.INIT` gives `IE`: `txbit(i)` for `i < T` and `rxbit(j)` for `j < R` (R33, R182). -/
def enableWord (c : Cfg) (T R : Nat) : Word :=
  bitsWord ((irqBits c T R).tx ++ (irqBits c T R).rx)

/-- Set a bit of `STATUS` (R77: that bit only). -/
def raiseBit (k : Nat) (s : State) : State :=
  { s with ctl := { s.ctl with status := setBit s.ctl.status k } }

/-- The interrupt request line (R34): `(STATUS & IE) != 0` and `DSTATE = Idle`. -/
def irq (s : State) : Bool :=
  (s.ctl.status &&& s.ctl.ie) != 0 && s.hid.dstate == .idle

/-- The execution context (R260): interrupt context from D0 to D4. -/
def context (s : State) : Context :=
  match s.hid.dstate with
  | .idle => .application
  | .active => .interrupt

/-- `min(c + 1, 2^32 - 1)` (R249): event counters saturate. -/
def bump (c : Word) : Word := if c = 0xFFFFFFFF then c else c + 1

/-! ### Well-formed configurations -/

/-- No two equal elements. -/
def distinct (ks : List Nat) : Bool :=
  match ks with
  | [] => true
  | k :: rest => !rest.contains k && distinct rest

/-- R7 for one pair of counts: the map gives every configured buffer a bit, and all bits are distinct and below 32. A row
that also lists bits for indices at or above its counts, on which R7 sets no condition, is not well formed: such bits are
unrecognised (R39), so the row cut to its counts is the same map. DESIGN CHOICE (log 25): safe. -/
def irqBitsWf (T R : Nat) (b : IrqBits) : Bool :=
  b.tx.length == T && b.rx.length == R &&
    (b.tx ++ b.rx ++ [b.err, b.ovf, b.wake]).all (fun k => decide (k < 32)) &&
    distinct (b.tx ++ b.rx ++ [b.err, b.ovf, b.wake])

/-- The pairs of counts that R183 accepts. -/
def acceptedCounts (bufCap : Nat) : List (Nat × Nat) :=
  ((List.range 9).flatMap fun T => (List.range 9).map fun R => (T, R)).filter
    fun p => decide (p.1 + p.2 ≤ bufCap)

/-- The well-formedness conditions of R7, and those of R31 on the field widths. R6: `SEG_BIAS` is 0 or 1. -/
def cfgWf (c : Cfg) : Bool :=
  decide (0 < c.fClk) && decide (1 ≤ c.tqDiv) && decide (c.bufCap ≤ 16) && decide (c.segBias ≤ 1) &&
    decide (c.sjwW ≤ 2) && decide (c.propW ≤ 3) && decide (c.ph1W ≤ 3) && decide (c.ph2W ≤ 3) &&
    decide (c.brpMax ≤ 127) &&
    (acceptedCounts c.bufCap).all fun p => irqBitsWf p.1 p.2 (irqBits c p.1 p.2)

end Sys2Proof.Machine
end

