-- ==== Sys2Proof/Machine/Operands.lean ====
section
/-! DEFINITION. What the commands read from the operand and input registers (R21), and the application's writes of the
operand registers. -/

namespace Sys2Proof.Machine

/-- The payload operand: `OP_DATA[0], ..., OP_DATA[len - 1]` (R140, R200). -/
def payload (o : OperandRegs) : List Byte := o.data.toList.take o.len.toNat

/-- `rb.reset`, bit 0 of `IN_RB` (R21). -/
def rbReset (s : State) : Bool := s.inp.rb.getLsbD 0

/-- `rb.timing`, bit 1 of `IN_RB` (R21). -/
def rbTiming (s : State) : Bool := s.inp.rb.getLsbD 1

/-- `rb.ie`, bit 2 of `IN_RB` (R21). -/
def rbIe (s : State) : Bool := s.inp.rb.getLsbD 2

/-- `rb.mode`, bit 3 of `IN_RB` (R21). -/
def rbMode (s : State) : Bool := s.inp.rb.getLsbD 3

/-- The identifier check of the send path (R202). -/
def identifierInRange (o : OperandRegs) : Bool :=
  if o.ext then decide (o.id.toNat ≤ 0x1FFFFFFF) else decide (o.id.toNat ≤ 0x7FF)

/-- One write of an operand register (R21). -/
def writeOperand (w : OperandWrite) (o : OperandRegs) : OperandRegs :=
  match w with
  | .id v => { o with id := v }
  | .ext v => { o with ext := v }
  | .len v => { o with len := v }
  | .data k v => { o with data := o.data.set k v }
  | .rawByte k v => { o with raw := { o.raw with bytes := o.raw.bytes.set k v } }
  | .rawWord k v => { o with raw := { o.raw with words := o.raw.words.set k v } }
  | .br v => { o with br := v }
  | .sjw v => { o with sjw := v }
  | .prop v => { o with prop := v }
  | .ph1 v => { o with ph1 := v }
  | .ph2 v => { o with ph2 := v }
  | .txn v => { o with txn := v }
  | .rxn v => { o with rxn := v }
  | .txh v => { o with txh := v }
  | .rxh v => { o with rxh := v }

end Sys2Proof.Machine
end

