-- ==== Sys2Proof/Machine/Allocator.lean ====
section
/-! DEFINITION. The transmit-buffer free mask: `BA.ALLOC` and `BA.FREE` (spec/42_buffer_allocator.md). -/

namespace Sys2Proof.Machine

/-- `Some(i)`: `RES_SOME <- 1; RES_IDX <- i` (R170). -/
def answerSome (i : Nat) (s : State) : State :=
  { s with res := { s.res with some := true, idx := BitVec.ofNat 4 i } }

/-- `None`: `RES_SOME <- 0` (R170). -/
def answerNone (s : State) : State :=
  { s with res := { s.res with some := false } }

/-- `BA.ALLOC i` (R170). A bit above bit 7 does not exist and reads 0, so `i <= 7` needs no test of its own. -/
def execBaAlloc (i : Nat) (s : State) : Out :=
  .next <|
    if s.ctl.freeMask.getLsbD i then finish .ok (answerSome i (takeBuffer i s))
    else finish .ok (answerNone s)

/-- `BA.FREE i` (R173), refused for a missing buffer (R175) and for one the backend owns (R174). -/
def execBaFree (i : Nat) (s : State) : Out :=
  if s.ctl.txn.val ≤ i then .refused .freeOfMissingBuffer
  else if s.ctl.txReq.getLsbD i then .refused .freeOfOwnedBuffer
  else .next (finish .ok (freeBuffer i s))

end Sys2Proof.Machine
end

