-- ==== Sys2Proof/Machine/BitTiming.lean ====
section
/-! DEFINITION. The bit-timing calculator: `BT.COMPUTE` and the internal step `BT.APPLY` (spec/40_bit_timing.md). -/

namespace Sys2Proof.Machine

/-- The operands of the calculator as natural numbers (R120, R127). -/
structure TimingSpec where
  br   : Nat
  sjw  : Nat
  prop : Nat
  ph1  : Nat
  ph2  : Nat
  deriving DecidableEq, Repr

/-- The output record (R125). -/
structure TimingFields where
  brp  : Nat
  sjw  : Nat
  prop : Nat
  ph1  : Nat
  ph2  : Nat
  deriving DecidableEq, Repr

/-- The timing operands (R120). -/
def timingSpec (o : OperandRegs) : TimingSpec where
  br := o.br.toNat
  sjw := o.sjw.toNat
  prop := o.prop.toNat
  ph1 := o.ph1.toNat
  ph2 := o.ph2.toNat

/-- `seg_ok(n, w)` (R120, R122). -/
def segOk (bias n w : Nat) : Bool := decide (bias ≤ n) && decide (n - bias ≤ 2 ^ w - 1)

/-- `N`, the time quanta of one bit (R120). -/
def quanta (t : TimingSpec) : Nat := 1 + t.prop + t.ph1 + t.ph2

/-- `D`, the divisor of the prescaler formula (R123). -/
def divisor (c : Cfg) (t : TimingSpec) : Nat := c.tqDiv * t.br * quanta t

/-- The segment checks of R121 and R122. -/
def segmentsOk (c : Cfg) (t : TimingSpec) : Bool :=
  decide (t.ph2 ≤ t.prop + t.ph1) && decide (t.sjw < t.ph2) &&
    segOk c.segBias t.sjw c.sjwW && segOk c.segBias t.prop c.propW &&
    segOk c.segBias t.ph1 c.ph1W && segOk c.segBias t.ph2 c.ph2W

/-- The prescaler checks of R124. `br = 0` is rejected before the division. -/
def prescalerOk (c : Cfg) (t : TimingSpec) : Bool :=
  decide (t.br ≠ 0) && decide (c.fClk % divisor c t = 0) &&
    decide (c.fClk / divisor c t ≠ 0) && decide (c.fClk / divisor c t - 1 ≤ c.brpMax)

/-- The source's `compute(params)` (R120): the fields, or `none` for `InvalidTiming`, its only error. -/
def computeTiming (c : Cfg) (t : TimingSpec) : Option TimingFields :=
  if segmentsOk c t && prescalerOk c t then
    some {
      brp := c.fClk / divisor c t - 1
      sjw := t.sjw - c.segBias
      prop := t.prop - c.segBias
      ph1 := t.ph1 - c.segBias
      ph2 := t.ph2 - c.segBias }
  else none

/-- The fields packed as `BTR` holds them (R31, R125). -/
def packTiming (f : TimingFields) : Word :=
  BitVec.ofNat 32 (f.brp <<< 16 ||| f.sjw <<< 12 ||| f.prop <<< 8 ||| f.ph1 <<< 4 ||| f.ph2)

/-- The six result registers of `BT.COMPUTE` (R120). -/
def writeTiming (f : TimingFields) (s : State) : State :=
  { s with
    res := { s.res with
      brp := BitVec.ofNat 8 f.brp
      sjw := BitVec.ofNat 8 f.sjw
      prop := BitVec.ofNat 8 f.prop
      ph1 := BitVec.ofNat 8 f.ph1
      ph2 := BitVec.ofNat 8 f.ph2
      btr := packTiming f } }

/-- `BT.COMPUTE` (R120). -/
def execBtCompute (s : State) : Out :=
  .next <|
    match computeTiming s.cfg (timingSpec s.ops) with
    | some f => finish .ok (writeTiming f s)
    | none => finish .invalidTiming s

/-- `BT.APPLY` (R128): the timing register is written in `Configuration` only. -/
def btApply (f : TimingFields) (s : State) : Out :=
  if s.ctl.mode = .configuration then
    .next { s with ctl := { s.ctl with btr := packTiming f } }
  else .refused .timingOutsideConfiguration

end Sys2Proof.Machine
end

