-- ==== Sys2Proof/Machine/ModeHealth.lean ====
section
/-! DEFINITION. Controller mode and health: `CM.INIT`, `CM.SLEEP`, `CM.WAKE`, `CM.ERRCNT` (spec/43_mode_health.md). -/

namespace Sys2Proof.Machine

/-- Steps 1 to 3 of `CM.INIT` (R182, R183): the first failing check gives the error; else the timing fields. -/
def initChecks (s : State) : Except ResCode TimingFields :=
  if !s.ops.txh || !s.ops.rxh then .error .invalidArgument
  else if 8 < s.ops.txn.toNat ∨ 8 < s.ops.rxn.toNat ∨ s.cfg.bufCap < s.ops.txn.toNat + s.ops.rxn.toNat then
    .error .invalidArgument
  else
    match computeTiming s.cfg (timingSpec s.ops) with
    | some f => .ok f
    | none => .error .invalidTiming

/-- Step 6 of `CM.INIT` (R182): the buffer table and the enables for the counts `OP_TXN` and `OP_RXN`. -/
def configureBuffers (s : State) : State :=
  let T := Fin.ofNat 9 s.ops.txn.toNat
  let R := Fin.ofNat 9 s.ops.rxn.toNat
  { s with
    ctl := { s.ctl with
      txn := T
      rxn := R
      hnd := 3
      freeMask := lowMask T.val
      rxArmed := lowMask R.val
      ie := enableWord s.cfg T.val R.val } }

/-- The `fail` arm of `CM.INIT` (R185): a second controller reset, which leaves `Uninitialized`, and `HardwareFault`. -/
def initFail (s : State) : State := finish .hardwareFault (controllerReset s)

/-- Step 7 of `CM.INIT`, once `Normal` is confirmed. -/
def initDone (s : State) : State := finish .ok (driveXcvr true (setMode .normal s))

/-- Steps 4 to 7 of `CM.INIT` (R184), each followed by its read-back verdict. -/
def initHardware (f : TimingFields) (s : State) : Out :=
  let s4 := setMode .configuration (controllerReset s)
  if !rbReset s then .next (initFail s4)
  else andThen (btApply f s4) fun s5 =>
    if !rbTiming s5 then .next (initFail s5)
    else
      let s6 := configureBuffers s5
      if !rbIe s6 then .next (initFail s6)
      else if !rbMode s6 then .next (initFail s6)
      else .next (initDone s6)

/-- `CM.INIT` (R182). -/
def execCmInit (s : State) : Out :=
  match initChecks s with
  | .error c => .next (finish c s)
  | .ok f => initHardware f s

/-- `CM.SLEEP` (R188). -/
def execCmSleep (s : State) : Out :=
  if s.ctl.mode ≠ .normal then .refused (.commandOutsideItsMode s.ctl.mode)
  else if !rbMode s then .next (finish .hardwareFault s)
  else .next (finish .ok (driveXcvr false (setMode .sleep s)))

/-- `CM.WAKE` (R190): the bridge through `ListenOnly`, then `Normal` once confirmed. -/
def execCmWake (s : State) : Out :=
  if s.ctl.mode ≠ .sleep ∧ s.ctl.mode ≠ .listenOnly then .refused (.commandOutsideItsMode s.ctl.mode)
  else if !rbMode s then .next (finish .hardwareFault (setMode .listenOnly s))
  else .next (finish .ok (driveXcvr true (setMode .normal (setMode .listenOnly s))))

/-- `CM.ERRCNT` (R192). -/
def execCmErrcnt (s : State) : Out :=
  .next (finish .ok { s with res := { s.res with tec := s.ctl.tec, recv := s.ctl.recv } })

end Sys2Proof.Machine
end

