-- ==== Sys2Proof/Machine/Backend.lean ====
section
/-! DEFINITION. The moves of the backend agent (R236 to R241). A move whose precondition does not hold does not occur: it
is skipped. DESIGN CHOICE (log 9): safe. -/

namespace Sys2Proof.Machine

/-- The bytes of a whole slot stored at offset 0 (R237, R241). -/
def storeSlot (space : Space) (slot : Nat) (raw : ImageReg) (s : State) : State :=
  { s with mem := Memory.setList s.mem (SlotAddr.key ⟨space, slot, 0⟩) (imageBytes s.cfg.layout raw) }

/-- R236: `TXREQ[i] <- 0`, `STATUS[txbit(i)] <- 1`. -/
def backendComplete (i : Nat) (s : State) : State :=
  if s.ctl.txReq.getLsbD i then
    raiseBit (txBit s i) { s with ctl := { s.ctl with txReq := clearBit s.ctl.txReq i } }
  else s

/-- The precondition of R237. -/
def canDeliver (j : Nat) (s : State) : Bool :=
  decide (j < s.ctl.rxn.val) && s.ctl.rxArmed.getLsbD j &&
    (s.ctl.mode == .normal || s.ctl.mode == .listenOnly)

/-- R237: `RXSLOT[j] <- raw`, `RX_ARMED[j] <- 0`, `STATUS[rxbit(j)] <- 1`. -/
def backendDeliver (j : Nat) (raw : ImageReg) (s : State) : State :=
  if canDeliver j s then
    raiseBit (rxBit s j)
      (storeSlot .RXS j raw { s with ctl := { s.ctl with rxArmed := clearBit s.ctl.rxArmed j } })
  else s

/-- R238: an overflow needs that no configured slot is armed. -/
def backendOverflow (s : State) : State :=
  if s.ctl.rxArmed &&& lowMask s.ctl.rxn.val = 0 then raiseBit s.irqBits.ovf s else s

/-- R240: `MODE <- ListenOnly`, `STATUS[WAKE_BIT] <- 1`. -/
def backendWake (s : State) : State :=
  if s.ctl.mode = .sleep then raiseBit s.irqBits.wake (setMode .listenOnly s) else s

/-- One move of the backend agent. -/
def backendMove (m : BackendMove) (s : State) : State :=
  match m with
  | .complete i => backendComplete i.val s
  | .deliver j raw => backendDeliver j.val raw s
  | .busError => raiseBit s.irqBits.err s
  | .overflow => backendOverflow s
  | .counters a b => { s with ctl := { s.ctl with tec := a, recv := b } }
  | .wake => backendWake s
  | .verdicts rb accept => { s with inp := { rb := rb, accept := accept } }
  | .raiseStatus bits => { s with ctl := { s.ctl with status := s.ctl.status ||| bits } }
  | .fillSlot space slot raw => storeSlot space slot.val raw s

/-- The image the backend transmits for buffer `i`: that in `TXSLOT[i]` at the time of the move (R236, R75), as the bytes
of the whole slot. -/
def transmittedImage (i : Nat) (s : State) : List Byte :=
  (List.range (imgBytes s.cfg.layout)).map fun d => readByte s (SlotAddr.key ⟨.TXS, i, d⟩)

end Sys2Proof.Machine
end

