-- ==== Sys2Proof/Machine/Codec.lean ====
section
/-! DEFINITION. The frame codec: the shared functions of R135 to R139 and the commands `FC.ENCD`, `FC.ENCR`, `FC.DEC`
(spec/30_encoding.md, spec/41_frame_codec.md). -/

namespace Sys2Proof.Machine

/-- The base part `sid` of an identifier (R93, R135). -/
def baseId (v : Word) (ext : Bool) : BitVec 11 :=
  if ext then v.extractLsb' 18 11 else v.extractLsb' 0 11

/-- The extension part `eid` of an identifier (R93, R135). -/
def extensionId (v : Word) (ext : Bool) : BitVec 18 :=
  if ext then v.extractLsb' 0 18 else 0

/-- `IDH` (R96). -/
def encIDH (v : Word) (ext : Bool) : Byte := (baseId v ext).extractLsb' 3 8

/-- `IDL` (R97): `sid[2:0]`, the remote flag of a standard frame, the extended flag, a reserved 0, `eid[17:16]`. -/
def encIDL (v : Word) (ext rtr : Bool) : Byte :=
  (baseId v ext).extractLsb' 0 3 ++ BitVec.ofBool (rtr && !ext) ++ BitVec.ofBool ext ++ 0#1 ++
    (extensionId v ext).extractLsb' 16 2

/-- `EID8` (R98). -/
def encEID8 (v : Word) (ext : Bool) : Byte := (extensionId v ext).extractLsb' 8 8

/-- `EID0` (R98). -/
def encEID0 (v : Word) (ext : Bool) : Byte := (extensionId v ext).extractLsb' 0 8

/-- `DLCB` (R99): a reserved 0, the remote flag of an extended frame, two reserved zeros, the length code. -/
def encDLCB (ext rtr : Bool) (dlc : Nat) : Byte :=
  0#1 ++ BitVec.ofBool (rtr && ext) ++ 0#2 ++ BitVec.ofNat 4 dlc

/-- `enc_B(v, ext, rtr, dlc, data)` (R136): five header bytes and the data bytes. -/
def encB (v : Word) (ext rtr : Bool) (dlc : Nat) (data : List Byte) : List Byte :=
  [encIDH v ext, encIDL v ext rtr, encEID8 v ext, encEID0 v ext, encDLCB ext rtr dlc] ++ data

/-- `MID` (R103, R137). -/
def encMID (v : Word) (ext : Bool) : Word :=
  0#2 ++ BitVec.ofBool ext ++ baseId v ext ++ extensionId v ext

/-- `MSR` (R104, R137). -/
def encMSR (rtr : Bool) (dlc : Nat) : Word :=
  0#11 ++ BitVec.ofBool rtr ++ BitVec.ofNat 4 dlc ++ 0#16

/-- Payload byte `k`, 0 where it is not present (R105). -/
def byteOrZero (data : List Byte) (k : Nat) : Byte := (data[k]?).getD 0

/-- The data word that holds payload bytes `k .. k + 3`, least significant first (R66, R102). -/
def dataWord (data : List Byte) (k : Nat) : Word :=
  wordOfBytes (byteOrZero data k) (byteOrZero data (k + 1)) (byteOrZero data (k + 2)) (byteOrZero data (k + 3))

/-- `enc_W(v, ext, rtr, dlc, data)` (R137): always four words. -/
def encW (v : Word) (ext rtr : Bool) (dlc : Nat) (data : List Byte) : Vector Word 4 :=
  #v[encMID v ext, encMSR rtr dlc, dataWord data 0, dataWord data 4]

/-- What a frame's header says: kind, identifier, length (R138, R139). -/
structure Header where
  kind : FrameKind
  id   : Word
  ext  : Bool
  len  : Nat
  deriving DecidableEq, Repr

/-- The kind a remote flag gives. -/
def kindOf (rtr : Bool) : FrameKind := if rtr then .remote else .data

/-- The header of a layout B image (R138). The extended flag is looked at before the remote flag (R100). -/
def headerB (idh idl eid8 eid0 dlcb : Byte) : Header :=
  if idl.getLsbD 3 then
    { kind := kindOf (dlcb.getLsbD 6)
      id := (idh ++ idl.extractLsb' 5 3 ++ idl.extractLsb' 0 2 ++ eid8 ++ eid0).setWidth 32
      ext := true
      len := min (dlcb.extractLsb' 0 4).toNat 8 }
  else
    { kind := kindOf (idl.getLsbD 4)
      id := (idh ++ idl.extractLsb' 5 3).setWidth 32
      ext := false
      len := min (dlcb.extractLsb' 0 4).toNat 8 }

/-- The header of a layout W image (R139). -/
def headerW (mid msr : Word) : Header where
  kind := kindOf (msr.getLsbD 20)
  id := if mid.getLsbD 29 then (mid.extractLsb' 0 29).setWidth 32 else (mid.extractLsb' 18 11).setWidth 32
  ext := mid.getLsbD 29
  len := min (msr.extractLsb' 16 4).toNat 8

/-- `n`, the number of data bytes present (R101): none in a remote frame. -/
def Header.dataBytes (h : Header) : Nat :=
  match h.kind with
  | .data => h.len
  | .remote => 0

/-- The message of a header and the bytes that follow it; bytes past the declared length are not looked at. -/
def Header.message (h : Header) (rest : List Byte) : Message where
  kind := h.kind
  id := h.id
  ext := h.ext
  len := h.len
  bytes := rest.take h.dataBytes

/-- `dec_B(raw)` on a 13-byte carrier (R138). -/
def decB (raw : Vector Byte 13) : Message :=
  (headerB raw[0] raw[1] raw[2] raw[3] raw[4]).message (raw.toList.drop 5)

/-- `dec_W(raw)` on a 4-word carrier (R139). -/
def decW (raw : Vector Word 4) : Message :=
  (headerW raw[0] raw[1]).message (wordBytes raw[2] ++ wordBytes raw[3])

/-- The codec's decoder under a layout (R150). -/
def decImage (l : Layout) (r : ImageReg) : Message :=
  match l with
  | .B => decB r.bytes
  | .W => decW r.words

/-- The bytes of the slot that an encoded image occupies from offset 0 (R203): `5 + n` bytes, or 4 words. -/
def encBytes (l : Layout) (v : Word) (ext rtr : Bool) (dlc : Nat) (data : List Byte) : List Byte :=
  match l with
  | .B => encB v ext rtr dlc data
  | .W => (encW v ext rtr dlc data).toList.flatMap wordBytes

/-- `RES_IMG` and `RES_IMGLEN` (R140, R146): in layout B the first `5 + n` bytes are written and the rest stay. -/
def imageResult (l : Layout) (v : Word) (ext rtr : Bool) (dlc : Nat) (data : List Byte) (r : ResultRegs) : ResultRegs :=
  match l with
  | .B =>
    { r with
      img := { r.img with bytes := overlay r.img.bytes (encB v ext rtr dlc data) }
      imgLen := BitVec.ofNat 5 (5 + data.length) }
  | .W =>
    { r with
      img := { r.img with words := encW v ext rtr dlc data }
      imgLen := 16 }

/-- The result of the two encode commands, from the identifier operand. -/
def writeImage (rtr : Bool) (dlc : Nat) (data : List Byte) (s : State) : State :=
  { s with res := imageResult s.cfg.layout s.ops.id s.ops.ext rtr dlc data s.res }

/-- `FC.ENCD` (R140). -/
def execFcEncd (s : State) : Out :=
  .next <|
    if 8 < s.ops.len.toNat then finish .invalidArgument s
    else finish .ok (writeImage false s.ops.len.toNat (payload s.ops) s)

/-- `FC.ENCR` (R146). -/
def execFcEncr (s : State) : Out :=
  .next <|
    if 8 < s.ops.len.toNat then finish .invalidArgument s
    else finish .ok (writeImage true s.ops.len.toNat [] s)

/-- The result registers of `FC.DEC` (R150): only as many elements of `RES_DATA` as the message has bytes. -/
def writeMessage (m : Message) (s : State) : State :=
  { s with
    res := { s.res with
      kind := m.kind
      id := m.id
      ext := m.ext
      len := BitVec.ofNat 4 m.len
      data := overlay s.res.data m.bytes } }

/-- `FC.DEC` (R150). -/
def execFcDec (s : State) : Out :=
  .next (finish .ok (writeMessage (decImage s.cfg.layout s.ops.raw) s))

end Sys2Proof.Machine
end

