-- ==== Sys2Proof/Machine/Interrupt.lean ====
section
/-! DEFINITION. The dispatcher `IS.DISPATCH` (spec/60_exceptions.md, R245 to R254) and the boundaries between the steps of
a running command, at which the other agents move (R73, R74). -/

namespace Sys2Proof.Machine

/-- The moves scheduled for the boundary now reached, if any. -/
def nextGap (s : State) : List GapMove :=
  match s.gaps with
  | [] => []
  | g :: _ => g

/-- The boundary now reached is behind. -/
def dropGap (s : State) : State := { s with gaps := s.gaps.tail }

/-- The moves at a boundary inside a dispatch (R73, R245): the backend agent may move; `IRQ` is 0 while `DSTATE` is
`Active`, so the core takes none (R34, R251); the application may not move, and a handler that issues a command or writes
an operand register has no meaning (U8). -/
def interruptMoves (ms : List GapMove) (s : State) : Out :=
  match ms with
  | [] => .next s
  | .backend m :: rest => interruptMoves rest (backendMove m s)
  | .takeIrq :: rest => interruptMoves rest s
  | .handlerCommand _ :: _ => .refused .commandFromHandler
  | .handlerOperand _ :: _ => .refused .operandFromHandler

/-- A boundary between two steps of a dispatch. -/
def interruptGap (s : State) : Out := interruptMoves (nextGap s) (dropGap s)

/-- The scan position (R23). It is written when the iteration of a buffer starts: at the boundary after D0 it still holds
that of the last dispatch, and after an iteration the buffer just served. R23 gives the walk only. DESIGN CHOICE (log 29):
unsafe for a claim about it at a boundary. -/
def setScan (p : ScanPos) (s : State) : State := { s with hid := { s.hid with scan := p } }

/-- One iteration of D1 (R246): free first, then the handler event. -/
def txEvent (i : Nat) (s : State) : State :=
  let s := setScan (.tx i) s
  if s.hid.snap.getLsbD (txBit s i) then emit (.txHandler i) (freeBuffer i s) else s

/-- The message in `RXSLOT[j]`, layout B (R152): the header first, the data only if the header declares some. -/
def slotMessageB (j : Nat) (s : State) : Except Refusal Message :=
  match memRead s ⟨.RXS, j, 0⟩ 5 with
  | .ok [idh, idl, eid8, eid0, dlcb] =>
    let h := headerB idh idl eid8 eid0 dlcb
    if h.dataBytes = 0 then .ok (h.message [])
    else
      match memRead s ⟨.RXS, j, 5⟩ h.dataBytes with
      | .ok bs => .ok (h.message bs)
      | .error r => .error r
  | .ok _ => .error .slotAccessNotAdmitted
  | .error r => .error r

/-- The message in `RXSLOT[j]`, layout W (R152): `MID` and `MSR` first, then word 2 if there is data, then word 3 if the
length is above 4. -/
def slotMessageW (j : Nat) (s : State) : Except Refusal Message :=
  match memRead s ⟨.RXS, j, 0⟩ 8 with
  | .ok [a0, a1, a2, a3, b0, b1, b2, b3] =>
    let h := headerW (wordOfBytes a0 a1 a2 a3) (wordOfBytes b0 b1 b2 b3)
    if h.dataBytes = 0 then .ok (h.message [])
    else
      match memRead s ⟨.RXS, j, 8⟩ (if 4 < h.dataBytes then 8 else 4) with
      | .ok bs => .ok (h.message bs)
      | .error r => .error r
  | .ok _ => .error .slotAccessNotAdmitted
  | .error r => .error r

/-- The decode of a receive slot (R248). -/
def slotMessage (j : Nat) (s : State) : Except Refusal Message :=
  match s.cfg.layout with
  | .B => slotMessageB j s
  | .W => slotMessageW j s

/-- `MSG <- m` (R42): elements of `MSG.data` beyond the payload stay. DEDUCED (log 13): unsafe for a claim about them. -/
def latchMessage (m : Message) (s : State) : State :=
  { s with
    msg := {
      kind := m.kind
      id := m.id
      ext := m.ext
      len := BitVec.ofNat 4 m.len
      data := overlay s.msg.data m.bytes } }

/-- One iteration of D2 (R248): decode, handler event, re-arm. -/
def rxEvent (j : Nat) (s : State) : Out :=
  let s := setScan (.rx j) s
  if s.hid.snap.getLsbD (rxBit s j) then
    match slotMessage j s with
    | .ok m => .next (rearm j (emit (.rxHandler j m) (latchMessage m s)))
    | .error r => .refused r
  else .next s

/-- D1 over the buffers listed, with a boundary after each iteration. -/
def scanTx (is : List Nat) (s : State) : Out :=
  match is with
  | [] => .next s
  | i :: rest => andThen (interruptGap (txEvent i s)) (scanTx rest)

/-- D2 over the buffers listed, with a boundary after each iteration. -/
def scanRx (js : List Nat) (s : State) : Out :=
  match js with
  | [] => .next s
  | j :: rest => andThen (andThen (rxEvent j s) interruptGap) (scanRx rest)

/-- D3 (R249): each counter goes up by one if its bit is set in `SNAP`, and saturates. -/
def countEvents (s : State) : State :=
  { s with
    ctl := { s.ctl with
      errCnt := if s.hid.snap.getLsbD s.irqBits.err then bump s.ctl.errCnt else s.ctl.errCnt
      ovfCnt := if s.hid.snap.getLsbD s.irqBits.ovf then bump s.ctl.ovfCnt else s.ctl.ovfCnt
      wakeCnt := if s.hid.snap.getLsbD s.irqBits.wake then bump s.ctl.wakeCnt else s.ctl.wakeCnt } }

/-- The dispatcher, D0 to D4 (R245): transmit buffers in increasing index, then receive buffers in increasing index, then
the counts, then the clear step. -/
def dispatch (s : State) : Out :=
  andThen (interruptGap (enterInterrupt s)) fun s1 =>
  andThen (scanTx (List.range s1.ctl.txn.val) s1) fun s2 =>
  andThen (scanRx (List.range s2.ctl.rxn.val) s2) fun s3 =>
  andThen (interruptGap (countEvents s3)) fun s4 =>
  .next (finish .ok (returnInterrupt s4))

/-- `IS.DISPATCH` (R245). -/
def execIsDispatch (s : State) : Out := dispatch s

/-- The moves at a boundary inside an application command (R73): the backend agent may move, and the core takes `IRQ` if
it is raised, which runs a whole dispatch. No handler runs in between. -/
def applicationMoves (ms : List GapMove) (s : State) : Out :=
  match ms with
  | [] => .next s
  | .backend m :: rest => applicationMoves rest (backendMove m s)
  | .takeIrq :: rest =>
    if irq s then andThen (dispatch s) (applicationMoves rest) else applicationMoves rest s
  | .handlerCommand _ :: rest => applicationMoves rest s
  | .handlerOperand _ :: rest => applicationMoves rest s

/-- A boundary between two steps of `TX.SEND` or `TX.SENDR`. -/
def applicationGap (s : State) : Out := applicationMoves (nextGap s) (dropGap s)

end Sys2Proof.Machine
end

