-- ==== Sys2Proof/Machine/Send.lean ====
section
/-! DEFINITION. The send path: `TX.SEND` and `TX.SENDR` in their three steps S1, S2, S3 (spec/44_send.md). -/

namespace Sys2Proof.Machine

/-- The checks of step S1 after the mode, in the order of R200 and R205: the first that fails gives the error. -/
def sendError (i : Nat) (lenOk : Bool) (s : State) : Option ResCode :=
  if s.ctl.txn.val ≤ i then some .invalidArgument
  else if !lenOk then some .invalidArgument
  else if !identifierInRange s.ops then some .invalidArgument
  else if s.ops.ext && !s.cfg.extSupported then some .notSupported
  else if !s.ctl.freeMask.getLsbD i then some .busy
  else none

/-- The allocation of step S1 (R76): the buffer is `Busy` and owned by this command (R201). -/
def sendAllocate (i : Nat) (s : State) : State :=
  setSending (some { idx := i, image := none }) (takeBuffer i s)

/-- Step S2 (R203): encode, and write the slot from offset 0. -/
def sendWrite (i : Nat) (rtr : Bool) (dlc : Nat) (data : List Byte) (s : State) : Out :=
  let img := encBytes s.cfg.layout s.ops.id s.ops.ext rtr dlc data
  memWrite ⟨.TXS, i, 0⟩ img (setSending (some { idx := i, image := some img }) s)

/-- Step S3 (R200, R204): the request if the backend accepts, else the buffer is freed at once and the answer is
`Busy`. -/
def sendRequest (i : Nat) (s : State) : State :=
  let s := setSending none s
  if s.inp.accept then finish .ok (requestSend i s) else finish .busy (freeBuffer i s)

/-- Steps S2 and S3 with the boundaries before them. The operands are read from the operand registers at S2. -/
def sendSteps (i : Nat) (rtr : Bool) (dlc : OperandRegs → Nat) (data : OperandRegs → List Byte) (s : State) : Out :=
  andThen (applicationGap s) fun s1 =>
  andThen (sendWrite i rtr (dlc s1.ops) (data s1.ops) s1) fun s2 =>
  andThen (applicationGap s2) fun s3 =>
  .next (sendRequest i s3)

/-- `TX.SEND i` (R200). -/
def execTxSend (i : Nat) (s : State) : Out :=
  if s.ctl.mode ≠ .normal then .refused (.commandOutsideItsMode s.ctl.mode)
  else
    match sendError i (decide (s.ops.len.toNat ≤ 8)) s with
    | some c => .next (finish c s)
    | none => sendSteps i false (fun o => o.len.toNat) payload (sendAllocate i s)

/-- `TX.SENDR i` (R206): no length check, requested length 0 (R207). -/
def execTxSendr (i : Nat) (s : State) : Out :=
  if s.ctl.mode ≠ .normal then .refused (.commandOutsideItsMode s.ctl.mode)
  else
    match sendError i true s with
    | some c => .next (finish c s)
    | none => sendSteps i true (fun _ => 0) (fun _ => []) (sendAllocate i s)

end Sys2Proof.Machine
end

