-- ==== Sys2Proof/Machine/Dispatch.lean ====
section
/-! DEFINITION. The meaning of every command of the operation map (R88). -/

namespace Sys2Proof.Machine

def exec (i : Instr) (s : State) : Host.Outcome State Fault Refusal :=
  match i with
  | .btCompute => Sys2Proof.Machine.execBtCompute s
  | .fcEncd => Sys2Proof.Machine.execFcEncd s
  | .fcEncr => Sys2Proof.Machine.execFcEncr s
  | .fcDec => Sys2Proof.Machine.execFcDec s
  | .baAlloc idx => Sys2Proof.Machine.execBaAlloc idx s
  | .baFree idx => Sys2Proof.Machine.execBaFree idx s
  | .cmInit => Sys2Proof.Machine.execCmInit s
  | .cmSleep => Sys2Proof.Machine.execCmSleep s
  | .cmWake => Sys2Proof.Machine.execCmWake s
  | .cmErrcnt => Sys2Proof.Machine.execCmErrcnt s
  | .txSend idx => Sys2Proof.Machine.execTxSend idx s
  | .txSendr idx => Sys2Proof.Machine.execTxSendr idx s
  | .isDispatch => Sys2Proof.Machine.execIsDispatch s

end Sys2Proof.Machine
end

