-- ==== Sys2Proof/Machine/Sequencer.lean ====
section
/-! DEFINITION. What happens next at the block: the command port, the interrupt between commands, the backend agent, the
outside (R9, R72, R73). `Step.lean` calls it. -/

namespace Sys2Proof.Machine

/-- Writing `CMD` starts the command (R85). A reserved word changes nothing but `RES_CODE` (R89). -/
def runCommand (w : Byte) (s : State) : Out :=
  match decode w with
  | .command i => exec i { s with cmd := w }
  | .reserved _ => .next (finish .invalidArgument { s with cmd := w })

/-- The core takes `IRQ` if it is raised (R251); `IS.DISPATCH` then runs in interrupt context. -/
def takeInterrupt (s : State) : Out := if irq s then exec .isDispatch s else .next s

/-- One move. -/
def runMove (m : Move) (s : State) : Out :=
  match m with
  | .command w => runCommand w s
  | .operand o => .next { s with ops := writeOperand o s.ops }
  | .takeIrq => takeInterrupt s
  | .backend b => .next (backendMove b s)
  | .hardwareReset => .next (hardwareReset s)

/-- The next move of the agenda. With nothing scheduled the core takes a raised `IRQ`, and else the block waits (R271,
R290). DESIGN CHOICE (log 10): safe for invariants, unsafe for a liveness claim. -/
def runNext (s : State) : Out :=
  match s.agenda with
  | [] => takeInterrupt s
  | m :: rest => runMove m { s with agenda := rest }

/-- R7, U7: the block is specified only for well-formed configurations. -/
def guardedNext (s : State) : Out :=
  if cfgWf s.cfg then runNext s else .refused .configurationIllFormed

/-- Put the command word `w` at the command port as the next move. -/
def scheduleCommand (w : Byte) (s : State) : State := { s with agenda := .command w :: s.agenda }

end Sys2Proof.Machine
end

