-- ==== Sys2Proof/Machine/Step.lean ====
section
/-! DEFINITION. One step of the machine, and how the host places a command word. -/

namespace Sys2Proof.Machine

/-- One step: the next move of the agents, under a well-formed configuration. -/
def step (s : State) : Host.Outcome State Fault Refusal := guardedNext s

/-- `s` with the command word of the bits `w` as the next move: the block has no program counter and fetches nothing
(R23), so a command arrives on the command port. An opcode-table row has one byte, the first of the bits (R85). -/
def State.withFetchWord (s : State) (nbits w : Nat) : State :=
  scheduleCommand (BitVec.ofNat 8 (w % 2 ^ nbits)) s

end Sys2Proof.Machine
end

