-- ==== Sys2Proof/Safety.lean ====
section
/-! DEFINITION. What a safe state of the block is: the invariants the rules state of every state between two steps, and
the views of the state the rules speak of (buffer states, slot ownership, recognised status bits). -/

namespace Sys2Proof.Machine

/-- Transmit buffer `i` is `Free` (R40). -/
def bufferFree (s : State) (i : Nat) : Bool := s.ctl.freeMask.getLsbD i

/-- Transmit buffer `i` is `Busy` (R40). -/
def bufferBusy (s : State) (i : Nat) : Bool := !s.ctl.freeMask.getLsbD i && decide (i < s.ctl.txn.val)

/-- Who owns a slot (R79). -/
inductive Owner where
  | application
  | backend
  | dispatcher
  | nobody
  deriving DecidableEq, Repr

/-- The owner of `TXSLOT[i]` (R79). While `TXREQ[i]` is 1 and a new send of buffer `i`, which a spurious or stale
transmit-complete bit had freed, is between its allocate and its request step, R79 names two owners: the answer is the
backend. DESIGN CHOICE (log 28): safe, no step reads the owner, and the statements about it assume `TXREQ[i] = 0`. -/
def txSlotOwner (s : State) (i : Nat) : Owner :=
  if s.ctl.txReq.getLsbD i then .backend
  else
    match s.hid.sending with
    | some p => if p.idx = i then .application else .nobody
    | none => .nobody

/-- The owner of `RXSLOT[j]` (R79). -/
def rxSlotOwner (s : State) (j : Nat) : Owner :=
  if s.ctl.rxArmed.getLsbD j then .backend
  else if j < s.ctl.rxn.val then .dispatcher
  else .nobody

/-- The status bits that are recognised under the configured counts (R32, R39). -/
def recognisedBits (s : State) : List Nat :=
  s.irqBits.tx.take s.ctl.txn.val ++ s.irqBits.rx.take s.ctl.rxn.val ++
    [s.irqBits.err, s.irqBits.ovf, s.irqBits.wake]

/-- R28, R30: bits at and above the configured counts are 0. The same of `TXREQ`: a request is for a configured buffer
(R29, R200). -/
structure BuffersInv (s : State) : Prop where
  free  : ∀ k, s.ctl.txn.val ≤ k → s.ctl.freeMask.getLsbD k = false
  req   : ∀ k, s.ctl.txn.val ≤ k → s.ctl.txReq.getLsbD k = false
  armed : ∀ k, s.ctl.rxn.val ≤ k → s.ctl.rxArmed.getLsbD k = false

/-- R26, R33: the counts fit the backend's capacity and `IE` holds exactly the bits of the configured buffers. -/
structure CountsInv (s : State) : Prop where
  fits    : s.ctl.txn.val + s.ctl.rxn.val ≤ s.cfg.bufCap
  enabled : s.ctl.ie = enableWord s.cfg s.ctl.txn.val s.ctl.rxn.val

/-- R180: `Configuration` is never the mode between two commands; R43: the dispatcher is idle then; R37: the transceiver
is on exactly in `Normal`; R27, R271: before a successful `CM.INIT` no handler and no buffer. -/
structure ModeInv (s : State) : Prop where
  settled : s.ctl.mode ≠ .configuration
  idle    : s.hid.dstate = .idle
  noSend  : s.hid.sending = none
  xcvr    : s.ctl.xcvrEn = (s.ctl.mode == .normal)
  hnd     : s.ctl.hnd = if s.ctl.mode = .uninitialized then 0 else 3
  fresh   : s.ctl.mode = .uninitialized → s.ctl.txn = 0 ∧ s.ctl.rxn = 0 ∧ s.ctl.ie = 0 ∧ s.ctl.btr = 0

/-- The reserved bits of `BTR`: 3, 7, 11, 15:14, 31:23 (R31). -/
def btrReserved : Word := 0xFF80C888

/-- R31: the reserved bits of `BTR` are 0. -/
structure TimingInv (s : State) : Prop where
  reserved : s.ctl.btr &&& btrReserved = 0

/-- The slot memory is in its canonical form and lists only places that exist under the layout (R60, R61). -/
structure MemoryInv (s : State) : Prop where
  canonical : Memory.wf s.mem = true
  placed    : ∀ c ∈ s.mem, keyExists s.cfg.layout c.1 = true

/-- A safe state. -/
structure SafeState (s : State) : Prop where
  buffers : BuffersInv s
  counts  : CountsInv s
  mode    : ModeInv s
  timing  : TimingInv s
  memory  : MemoryInv s

/-- A move that the constrained backend agent may make (R236 to R241): none of the stronger environment's. -/
def BackendMove.constrained : BackendMove → Bool
  | .complete _ => true
  | .deliver _ _ => true
  | .busError => true
  | .overflow => true
  | .counters _ _ => true
  | .wake => true
  | .verdicts _ _ => true
  | .raiseStatus _ => false
  | .fillSlot _ _ _ => false

/-- No handler issues a command or writes an operand register at a scheduled boundary (R287). -/
def GapMove.disciplined : GapMove → Bool
  | .backend _ => true
  | .takeIrq => true
  | .handlerCommand _ => false
  | .handlerOperand _ => false

/-- Every scheduled boundary keeps the handler discipline of R287. -/
def disciplinedGaps (s : State) : Bool := s.gaps.all fun g => g.all GapMove.disciplined

/-- Every scheduled boundary keeps the handler discipline and its backend moves are the constrained agent's. -/
def constrainedGaps (s : State) : Bool :=
  s.gaps.all fun g => g.all fun m =>
    match m with
    | .backend b => b.constrained
    | .takeIrq => true
    | .handlerCommand _ => false
    | .handlerOperand _ => false

end Sys2Proof.Machine
end

