-- ==== Sys2Proof/Certificates/Slice0/Obligations.lean ====
section
/-! DEFINITION. The statements for the provers. Each says which rule of spec/ it formalises. -/

open Sys2Proof Sys2Proof.Machine

/-! ### Words the statements share -/

namespace Sys2Proof.Machine

/-- R121 to R124 as one condition on the operands, with the quotient `Q` of the exact division. -/
def TimingLegal (c : Cfg) (o : OperandRegs) (Q : Nat) : Prop :=
  o.ph2.toNat ≤ o.prop.toNat + o.ph1.toNat ∧ o.sjw.toNat < o.ph2.toNat ∧
  (c.segBias ≤ o.sjw.toNat ∧ o.sjw.toNat - c.segBias < 2 ^ c.sjwW) ∧
  (c.segBias ≤ o.prop.toNat ∧ o.prop.toNat - c.segBias < 2 ^ c.propW) ∧
  (c.segBias ≤ o.ph1.toNat ∧ o.ph1.toNat - c.segBias < 2 ^ c.ph1W) ∧
  (c.segBias ≤ o.ph2.toNat ∧ o.ph2.toNat - c.segBias < 2 ^ c.ph2W) ∧
  0 < o.br.toNat ∧
  c.fClk = c.tqDiv * o.br.toNat * (1 + o.prop.toNat + o.ph1.toNat + o.ph2.toNat) * Q ∧
  1 ≤ Q ∧ Q ≤ c.brpMax + 1

/-- The packed timing word of R31 from the five field values. -/
def timingWord (brp sjw prop ph1 ph2 : Nat) : Word :=
  BitVec.ofNat 32 (brp * 2 ^ 16 + sjw * 2 ^ 12 + prop * 2 ^ 8 + ph1 * 2 ^ 4 + ph2)

/-- The table of R95 for a frame with identifier value `v`: the five header bytes, then `n` data bytes, and the rest of
the carrier as in `old`. -/
def ByteImageIs (img old : Vector Byte 13) (v : Nat) (ext rtr : Bool) (dlc n : Nat) (data : Vector Byte 8) : Prop :=
  img[0].toNat = (if ext then v / 2 ^ 21 else v / 2 ^ 3) % 2 ^ 8 ∧
  img[1].toNat = (if ext then v / 2 ^ 18 else v) % 2 ^ 3 * 2 ^ 5 + (if rtr && !ext then 2 ^ 4 else 0) +
    (if ext then 2 ^ 3 + v / 2 ^ 16 % 2 ^ 2 else 0) ∧
  img[2].toNat = (if ext then v / 2 ^ 8 % 2 ^ 8 else 0) ∧
  img[3].toNat = (if ext then v % 2 ^ 8 else 0) ∧
  img[4].toNat = (if rtr && ext then 2 ^ 6 else 0) + dlc ∧
  ∀ k : Fin 8, img[5 + k.val]'(by have := k.isLt; omega) =
    if k.val < n then data[k] else old[5 + k.val]'(by have := k.isLt; omega)

/-- The table of R102 for a frame with identifier value `v`: absent payload bytes are 0. -/
def WordImageIs (img : Vector Word 4) (v : Nat) (ext rtr : Bool) (dlc n : Nat) (data : Vector Byte 8) : Prop :=
  img[0].toNat = (if ext then 2 ^ 29 + v % 2 ^ 29 else v % 2 ^ 11 * 2 ^ 18) ∧
  img[1].toNat = (if rtr then 2 ^ 20 else 0) + dlc * 2 ^ 16 ∧
  ∀ k : Fin 8, (if k.val < 4 then img[2] else img[3]).toNat / 2 ^ (8 * (k.val % 4)) % 2 ^ 8 =
    if k.val < n then data[k].toNat else 0

/-- What an encode command leaves in the result registers under the layout (R140, R146): the image in the live carrier,
its length, and every other result register as it was but the code. -/
def ImageAnswered (s : State) (rtr : Bool) (n : Nat) (r : ResultRegs) : Prop :=
  match s.cfg.layout with
  | .B => ∃ img, ByteImageIs img s.res.img.bytes s.ops.id.toNat s.ops.ext rtr s.ops.len.toNat n s.ops.data ∧
      r = { s.res with
        code := .ok, img := { s.res.img with bytes := img }, imgLen := BitVec.ofNat 5 (5 + n) }
  | .W => ∃ img, WordImageIs img s.ops.id.toNat s.ops.ext rtr s.ops.len.toNat n s.ops.data ∧
      r = { s.res with code := .ok, img := { s.res.img with words := img }, imgLen := 16 }

/-- What `FC.DEC` reads from a byte image (R138). -/
def ByteImageSays (raw : Vector Byte 13) (ext rtr : Bool) (v len : Nat) : Prop :=
  ext = raw[1].getLsbD 3 ∧ rtr = (if ext then raw[4].getLsbD 6 else raw[1].getLsbD 4) ∧
  v = (if ext then raw[0].toNat * 2 ^ 21 + raw[1].toNat / 2 ^ 5 * 2 ^ 18 + raw[1].toNat % 2 ^ 2 * 2 ^ 16 +
      raw[2].toNat * 2 ^ 8 + raw[3].toNat
    else raw[0].toNat * 2 ^ 3 + raw[1].toNat / 2 ^ 5) ∧
  len = min (raw[4].toNat % 2 ^ 4) 8

/-- What `FC.DEC` reads from a word image (R139). -/
def WordImageSays (raw : Vector Word 4) (ext rtr : Bool) (v len : Nat) : Prop :=
  ext = raw[0].getLsbD 29 ∧ rtr = raw[1].getLsbD 20 ∧
  v = (if ext then raw[0].toNat % 2 ^ 29 else raw[0].toNat / 2 ^ 18 % 2 ^ 11) ∧
  len = min (raw[1].toNat / 2 ^ 16 % 2 ^ 4) 8

/-- Data byte `k` of the live carrier: offset `5 + k` in layout B, bits `8k+7 : 8k` of the data words in layout W. -/
def rawDataByte (l : Layout) (r : ImageReg) (k : Fin 8) : Byte :=
  match l with
  | .B => r.bytes[5 + k.val]'(by have := k.isLt; omega)
  | .W => BitVec.ofNat 8 ((if k.val < 4 then r.words[2] else r.words[3]).toNat / 2 ^ (8 * (k.val % 4)))

/-- The identifier operand satisfies the data model (R133, R202). -/
def IdentifierLegal (o : OperandRegs) : Prop :=
  (o.ext = false → o.id.toNat ≤ 0x7FF) ∧ (o.ext = true → o.id.toNat ≤ 0x1FFFFFFF)

/-- The application writes the encoded image back as a raw image and decodes it. -/
def withRawFromResult (t : State) : State := { t with ops := { t.ops with raw := t.res.img } }

/-- The argument checks of the send path that come before `NotSupported` (R200, R202). -/
def SendArgumentsLegal (s : State) (i : Nat) (lenChecked : Bool) : Prop :=
  i < s.ctl.txn.val ∧ (lenChecked = true → s.ops.len.toNat ≤ 8) ∧ IdentifierLegal s.ops

/-- Everything step S1 asks for (R200). -/
def SendAdmitted (s : State) (i : Nat) (lenChecked : Bool) : Prop :=
  s.ctl.mode = .normal ∧ SendArgumentsLegal s i lenChecked ∧
  (s.ops.ext = true → s.cfg.extSupported = true) ∧ s.ctl.freeMask.getLsbD i = true

/-- Memory after a send: the image at offset 0 of `TXSLOT[i]`, every other place as before. -/
def SlotStored (m m' : List Host.Cell) (i : Nat) (img : List Byte) : Prop :=
  (∀ d, d < img.length → Memory.get m' (SlotAddr.key ⟨.TXS, i, 0⟩ + d) = img[d]?) ∧
  ∀ k, (k < SlotAddr.key ⟨.TXS, i, 0⟩ ∨ SlotAddr.key ⟨.TXS, i, 0⟩ + img.length ≤ k) →
    Memory.get m' k = Memory.get m k

/-- The image a send writes (R136, R137, R203): a data frame of the payload, or a remote frame of requested length 0. -/
def sendImage (s : State) (rtr : Bool) : List Byte :=
  if rtr then encBytes s.cfg.layout s.ops.id s.ops.ext true 0 []
  else encBytes s.cfg.layout s.ops.id s.ops.ext false s.ops.len.toNat (s.ops.data.toList.take s.ops.len.toNat)

/-- `TX.SENDR` or `TX.SEND`. -/
def sendCommand (rtr : Bool) (i : Nat) : Instr := if rtr then .txSendr i else .txSend i

/-- Run commands one after the other (R72). -/
def runCommands : List Instr → State → Out
  | [], s => .next s
  | i :: rest, s => andThen (exec i s) (runCommands rest)

/-- The state after a successful argument check of `CM.INIT`: handlers, counts, timing (R183). -/
def InitArgumentsLegal (s : State) (Q : Nat) : Prop :=
  s.ops.txh = true ∧ s.ops.rxh = true ∧ s.ops.txn.toNat ≤ 8 ∧ s.ops.rxn.toNat ≤ 8 ∧
  s.ops.txn.toNat + s.ops.rxn.toNat ≤ s.cfg.bufCap ∧ TimingLegal s.cfg s.ops Q

/-- The trace of a controller reset (R184): `XCVR(0)` exactly if the transceiver was on. -/
def offEvents (s : State) : List Event := if s.ctl.xcvrEn then [.xcvr false] else []

/-- Transmit buffers served by a dispatch whose snapshot is `STATUS` now, in increasing index (R247). -/
def servedTx (s : State) : List Nat :=
  (List.range s.ctl.txn.val).filter fun i => s.ctl.status.getLsbD (txBit s i)

/-- Receive buffers served, in increasing index (R247). -/
def servedRx (s : State) : List Nat :=
  (List.range s.ctl.rxn.val).filter fun j => s.ctl.status.getLsbD (rxBit s j)

/-- R67: which accesses of `n` bytes are admitted. The log 27 case, no word at offset 16 in layout W, is among them. -/
def AccessAdmitted (l : Layout) (a : SlotAddr) (n : Nat) : Prop :=
  a.slot < 8 ∧
    match l with
    | .B => 1 ≤ n ∧ a.offset + n ≤ 13
    | .W => a.offset % 4 = 0 ∧ n % 4 = 0 ∧ a.offset + n ≤ 16

/-- Moves of the backend agent, one after the other. -/
def backendMoves (ms : List BackendMove) (s : State) : State := ms.foldl (fun u m => backendMove m u) s

/-- A counter after a dispatch in which its bit was set or not (R249). -/
def counted (c : Word) (seen : Bool) : Nat := if seen then min (c.toNat + 1) (2 ^ 32 - 1) else c.toNat

end Sys2Proof.Machine

/-! ### Encoding and the step -/

/-- R85 to R90: the decoder and the encoder agree both ways. -/
def Obligations.DecodeAndEncodeAgree : Prop :=
  (∀ i : Instr, i.wellFormed = true → decode (encode i) = .command i) ∧
  ∀ (w : Byte) (i : Instr), decode w = .command i → i.wellFormed = true ∧ encode i = w

/-- R86 to R88, R90: the words of the operation map, written out. -/
def Obligations.OperationMapWordsDecode : Prop :=
  decode 0b00010000 = .command .btCompute ∧ decode 0b00110000 = .command .fcEncd ∧
  decode 0b01000000 = .command .fcEncr ∧ decode 0b01010000 = .command .fcDec ∧
  decode 0b01101111 = .command (.baAlloc 15) ∧ decode 0b01110010 = .command (.baFree 2) ∧
  decode 0b10000000 = .command .cmInit ∧ decode 0b10010000 = .command .cmSleep ∧
  decode 0b10100000 = .command .cmWake ∧ decode 0b10110000 = .command .cmErrcnt ∧
  decode 0b11000001 = .command (.txSend 1) ∧ decode 0b11011000 = .command (.txSendr 8) ∧
  decode 0b11100000 = .command .isDispatch

/-- R89: which words are reserved, and what a reserved word does: `RES_CODE` becomes `InvalidArgument` (code 1) and
nothing else changes (`CMD` holds the word just written, the move is taken from the agenda). -/
def Obligations.ReservedWordAnswersInvalidArgument : Prop :=
  (∀ w : Byte, (∃ why, decode w = .reserved why) ↔
    (opField w = 0x0 ∨ opField w = 0x2 ∨ opField w = 0xF ∨
      (opField w ∈ [0x1, 0x3, 0x4, 0x5, 0x8, 0x9, 0xA, 0xB, 0xE] ∧ idxField w ≠ 0))) ∧
  ResCode.invalidArgument.toBits = 1 ∧
  ∀ (s : State) (w : Byte) (rest : List Move), cfgWf s.cfg = true → s.agenda = .command w :: rest →
    (∃ why, decode w = .reserved why) →
    step s = .next { s with agenda := rest, cmd := w, res := { s.res with code := .invalidArgument } }

/-- R85: the step whose next move is a command word runs the decoded command; the move leaves the agenda and `CMD` holds
the word. -/
def Obligations.StepRunsDecodedCommand : Prop :=
  ∀ (s : State) (w : Byte) (i : Instr) (rest : List Move), cfgWf s.cfg = true → s.agenda = .command w :: rest →
    decode w = .command i → step s = exec i { s with agenda := rest, cmd := w }

/-- R21, R73, R236 to R241, R270: the other moves. What an operand write does is `OperandWriteChangesItsRegisterOnly`. The
model's choices: with nothing scheduled the core takes a raised `IRQ` and else the block waits (log 10), a scheduled `takeIrq`
while `IRQ` is 0 does nothing (log 9), a taken interrupt is `IS.DISPATCH` with its write of `RES_CODE` (log 21), and a hardware
reset falls between commands (log 15). -/
def Obligations.StepPerformsOtherMoves : Prop :=
  ∀ s : State, cfgWf s.cfg = true →
    (∀ o rest, s.agenda = .operand o :: rest → step s = .next { s with agenda := rest, ops := writeOperand o s.ops }) ∧
    (∀ m rest, s.agenda = .backend m :: rest → step s = .next (backendMove m { s with agenda := rest })) ∧
    (∀ rest, s.agenda = .hardwareReset :: rest → step s = .next (hardwareReset { s with agenda := rest })) ∧
    (∀ rest, s.agenda = .takeIrq :: rest → irq s = true → step s = exec .isDispatch { s with agenda := rest }) ∧
    (∀ rest, s.agenda = .takeIrq :: rest → irq s = false → step s = .next { s with agenda := rest }) ∧
    (s.agenda = [] → irq s = true → step s = exec .isDispatch s) ∧
    (s.agenda = [] → irq s = false → step s = .next s)

/-- R7 (with R31 on the field widths and R6 on `SEG_BIAS`): which configurations are well formed; every other one is
refused. That the map lists exactly as many bits as the pair of counts has buffers, none for an index at or above them, is the
model's choice (log 25): R7 sets no condition on such bits. -/
def Obligations.IllFormedConfigurationIsRefused : Prop :=
  (∀ c : Cfg, cfgWf c = true ↔
    (0 < c.fClk ∧ 1 ≤ c.tqDiv ∧ c.bufCap ≤ 16 ∧ c.segBias ≤ 1 ∧ c.sjwW ≤ 2 ∧ c.propW ≤ 3 ∧ c.ph1W ≤ 3 ∧ c.ph2W ≤ 3 ∧
      c.brpMax ≤ 127 ∧
      ∀ T R : Nat, T ≤ 8 → R ≤ 8 → T + R ≤ c.bufCap →
        (irqBits c T R).tx.length = T ∧ (irqBits c T R).rx.length = R ∧
        ((irqBits c T R).tx ++ (irqBits c T R).rx ++
          [(irqBits c T R).err, (irqBits c T R).ovf, (irqBits c T R).wake]).Nodup ∧
        ∀ k ∈ (irqBits c T R).tx ++ (irqBits c T R).rx ++
          [(irqBits c T R).err, (irqBits c T R).ovf, (irqBits c T R).wake], k < 32)) ∧
  ∀ s : State, cfgWf s.cfg = false → step s = .refused .configurationIllFormed

/-! ### Bit timing -/

/-- R120 (R121 to R125): `BT.COMPUTE` answers the fields exactly when the checks hold, `InvalidTiming` (code 2) otherwise;
only the result registers named change. -/
def Obligations.BtComputeAnswersFieldsOrInvalidTiming : Prop :=
  ResCode.invalidTiming.toBits = 2 ∧
  ∀ s : State, cfgWf s.cfg = true →
    (∀ Q, TimingLegal s.cfg s.ops Q →
      exec .btCompute s = .next { s with
        res := { s.res with
          code := .ok
          brp := BitVec.ofNat 8 (Q - 1)
          sjw := BitVec.ofNat 8 (s.ops.sjw.toNat - s.cfg.segBias)
          prop := BitVec.ofNat 8 (s.ops.prop.toNat - s.cfg.segBias)
          ph1 := BitVec.ofNat 8 (s.ops.ph1.toNat - s.cfg.segBias)
          ph2 := BitVec.ofNat 8 (s.ops.ph2.toNat - s.cfg.segBias)
          btr := timingWord (Q - 1) (s.ops.sjw.toNat - s.cfg.segBias) (s.ops.prop.toNat - s.cfg.segBias)
            (s.ops.ph1.toNat - s.cfg.segBias) (s.ops.ph2.toNat - s.cfg.segBias) } }) ∧
    ((∀ Q, ¬ TimingLegal s.cfg s.ops Q) →
      exec .btCompute s = .next { s with res := { s.res with code := .invalidTiming } })

/-- R129: whenever `BT.COMPUTE` returns `Ok`, the inverted formula on the result registers gives the requested bit rate
exactly. -/
def Obligations.BtComputeInvertsExactly : Prop :=
  ∀ s t : State, cfgWf s.cfg = true → exec .btCompute s = .next t → t.res.code = .ok →
    s.cfg.fClk / (s.cfg.tqDiv * (t.res.brp.toNat + 1) *
      (1 + (t.res.prop.toNat + s.cfg.segBias) + (t.res.ph1.toNat + s.cfg.segBias) +
        (t.res.ph2.toNat + s.cfg.segBias))) = s.ops.br.toNat ∧
    s.cfg.fClk % (s.cfg.tqDiv * (t.res.brp.toNat + 1) *
      (1 + (t.res.prop.toNat + s.cfg.segBias) + (t.res.ph1.toNat + s.cfg.segBias) +
        (t.res.ph2.toNat + s.cfg.segBias))) = 0

/-- R126: the same timing operands under the same configuration give the same result, whatever the rest of the state; no
state register is written and no event emitted. -/
def Obligations.BtComputeIsPure : Prop :=
  ∀ s u : State, u.cfg = s.cfg → u.ops.br = s.ops.br → u.ops.sjw = s.ops.sjw → u.ops.prop = s.ops.prop →
    u.ops.ph1 = s.ops.ph1 → u.ops.ph2 = s.ops.ph2 →
    ∃ t v : State, exec .btCompute s = .next t ∧ exec .btCompute u = .next v ∧
      t = { s with res := t.res } ∧ v = { u with res := v.res } ∧ v.res.code = t.res.code ∧
      (t.res.code = .ok →
        v.res.brp = t.res.brp ∧ v.res.sjw = t.res.sjw ∧ v.res.prop = t.res.prop ∧ v.res.ph1 = t.res.ph1 ∧
        v.res.ph2 = t.res.ph2 ∧ v.res.btr = t.res.btr)

/-! ### Frame codec -/

/-- R140 (R95, R102, R136, R137): `FC.ENCD` answers the data frame image, or `InvalidArgument` when `OP_LEN > 8`. -/
def Obligations.FcEncdAnswersDataImage : Prop :=
  ∀ s : State,
    (s.ops.len.toNat ≤ 8 →
      ∃ r, ImageAnswered s false s.ops.len.toNat r ∧ exec .fcEncd s = .next { s with res := r }) ∧
    (8 < s.ops.len.toNat → exec .fcEncd s = .next { s with res := { s.res with code := .invalidArgument } })

/-- R146 (R95, R102, R136, R137): `FC.ENCR` answers the remote frame image of requested length `OP_LEN` and no data
bytes, or `InvalidArgument` when `OP_LEN > 8`. -/
def Obligations.FcEncrAnswersRemoteImage : Prop :=
  ∀ s : State,
    (s.ops.len.toNat ≤ 8 → ∃ r, ImageAnswered s true 0 r ∧ exec .fcEncr s = .next { s with res := r }) ∧
    (8 < s.ops.len.toNat → exec .fcEncr s = .next { s with res := { s.res with code := .invalidArgument } })

/-- R150 (R138, R139): `FC.DEC` answers the message of `OP_RAW`; elements of `RES_DATA` past the payload stay. -/
def Obligations.FcDecAnswersMessage : Prop :=
  ∀ (s : State) (ext rtr : Bool) (v len : Nat),
    (s.cfg.layout = .B → ByteImageSays s.ops.raw.bytes ext rtr v len) →
    (s.cfg.layout = .W → WordImageSays s.ops.raw.words ext rtr v len) →
    ∃ d : Vector Byte 8,
      (∀ k : Fin 8, d[k] =
        if rtr = false ∧ k.val < len then rawDataByte s.cfg.layout s.ops.raw k else s.res.data[k]) ∧
      exec .fcDec s = .next { s with
        res := { s.res with
          code := .ok
          kind := if rtr then .remote else .data
          id := BitVec.ofNat 32 v
          ext := ext
          len := BitVec.ofNat 4 len
          data := d } }

/-- R155, R156: a data frame that is encoded and decoded gives back identifier and payload, in both layouts and whatever
the bytes of the carrier past the image. -/
def Obligations.DataFrameRoundTrip : Prop :=
  ∀ s : State, s.ops.len.toNat ≤ 8 → IdentifierLegal s.ops →
    ∃ t u : State, exec .fcEncd s = .next t ∧ exec .fcDec (withRawFromResult t) = .next u ∧
      u.res.kind = .data ∧ u.res.id = s.ops.id ∧ u.res.ext = s.ops.ext ∧ u.res.len.toNat = s.ops.len.toNat ∧
      ∀ k : Fin 8, k.val < s.ops.len.toNat → u.res.data[k] = s.ops.data[k]

/-- R157: a remote frame that is encoded and decoded gives back the kind, the identifier and the requested length, with no
payload byte written. -/
def Obligations.RemoteFrameRoundTrip : Prop :=
  ∀ s : State, s.ops.len.toNat ≤ 8 → IdentifierLegal s.ops →
    ∃ t u : State, exec .fcEncr s = .next t ∧ exec .fcDec (withRawFromResult t) = .next u ∧
      u.res.kind = .remote ∧ u.res.id = s.ops.id ∧ u.res.ext = s.ops.ext ∧ u.res.len.toNat = s.ops.len.toNat ∧
      u.res.data = s.res.data

/-- R154: decoding never fails, and the message satisfies the data model. -/
def Obligations.DecodingNeverFails : Prop :=
  ∀ s : State, ∃ t, exec .fcDec s = .next t ∧ t.res.code = .ok ∧ t.res.len.toNat ≤ 8 ∧
    (t.res.ext = false → t.res.id.toNat ≤ 0x7FF) ∧ (t.res.ext = true → t.res.id.toNat ≤ 0x1FFFFFFF)

/-- R159: the codec commands read and write no state register, so the result is the same in every mode and state. -/
def Obligations.CodecReadsOnlyOperands : Prop :=
  ∀ (i : Instr) (s u : State), i ∈ [Instr.fcEncd, .fcEncr, .fcDec] → u.ops = s.ops → u.cfg = s.cfg → u.res = s.res →
    ∃ r, exec i s = .next { s with res := r } ∧ exec i u = .next { u with res := r }

/-! ### Allocator -/

/-- R170: `BA.ALLOC i`, for every `i`. -/
def Obligations.BaAllocTakesTheRequestedBuffer : Prop :=
  ∀ (s : State) (i : Nat), i < 16 →
    (i ≤ 7 → s.ctl.freeMask.getLsbD i = true →
      ∃ m : Mask, (∀ k, m.getLsbD k = (s.ctl.freeMask.getLsbD k && !decide (k = i))) ∧
        exec (.baAlloc i) s = .next { s with
          ctl := { s.ctl with freeMask := m }
          res := { s.res with code := .ok, some := true, idx := BitVec.ofNat 4 i } }) ∧
    (¬ (i ≤ 7 ∧ s.ctl.freeMask.getLsbD i = true) →
      exec (.baAlloc i) s = .next { s with res := { s.res with code := .ok, some := false } })

/-- R173 with R174 and R175: `BA.FREE i` sets the bit of a configured buffer the backend does not own; it is refused for a
missing buffer and for one whose transmission is outstanding. -/
def Obligations.BaFreeSetsTheBitOrIsRefused : Prop :=
  ∀ (s : State) (i : Nat),
    (i < s.ctl.txn.val → s.ctl.txReq.getLsbD i = false →
      ∃ m : Mask, (∀ k, m.getLsbD k = (s.ctl.freeMask.getLsbD k || decide (k = i))) ∧
        exec (.baFree i) s = .next { s with ctl := { s.ctl with freeMask := m }, res := { s.res with code := .ok } }) ∧
    (s.ctl.txn.val ≤ i → exec (.baFree i) s = .refused .freeOfMissingBuffer) ∧
    (i < s.ctl.txn.val → s.ctl.txReq.getLsbD i = true → exec (.baFree i) s = .refused .freeOfOwnedBuffer)

/-- R172: after all `TXN` buffers are allocated none is free and every request answers `None`; freeing one allows exactly
one more allocation. -/
def Obligations.AllocatorExhaustion : Prop :=
  (∀ s : State, s.ctl.freeMask = lowMask s.ctl.txn.val →
    (∀ n, n < s.ctl.txn.val → ∃ t, runCommands ((List.range (n + 1)).map Instr.baAlloc) s = .next t ∧
      t.res.some = true ∧ t.res.idx = BitVec.ofNat 4 n) ∧
    ∃ t, runCommands ((List.range s.ctl.txn.val).map Instr.baAlloc) s = .next t ∧ t.ctl.freeMask = 0) ∧
  ∀ (s : State) (k j : Nat), s.ctl.freeMask = 0 → k < s.ctl.txn.val → s.ctl.txReq.getLsbD k = false → j < 16 →
    (∃ t, exec (.baAlloc j) s = .next t ∧ t.res.some = false ∧ t.ctl.freeMask = 0) ∧
    (∃ t, runCommands [.baFree k, .baAlloc k] s = .next t ∧ t.res.some = true ∧ t.res.idx = BitVec.ofNat 4 k ∧
      t.ctl.freeMask = 0) ∧
    ∃ t, runCommands [.baFree k, .baAlloc k, .baAlloc j] s = .next t ∧ t.res.some = false ∧ t.ctl.freeMask = 0

/-! ### Mode and health -/

/-- R183: the argument checks of `CM.INIT` in their order; a failing one changes nothing but `RES_CODE`. -/
def Obligations.CmInitRejectsBadArguments : Prop :=
  ∀ s : State, cfgWf s.cfg = true →
    ((s.ops.txh = false ∨ s.ops.rxh = false) →
      exec .cmInit s = .next { s with res := { s.res with code := .invalidArgument } }) ∧
    ((8 < s.ops.txn.toNat ∨ 8 < s.ops.rxn.toNat ∨ s.cfg.bufCap < s.ops.txn.toNat + s.ops.rxn.toNat) →
      exec .cmInit s = .next { s with res := { s.res with code := .invalidArgument } }) ∧
    (s.ops.txh = true → s.ops.rxh = true → s.ops.txn.toNat ≤ 8 → s.ops.rxn.toNat ≤ 8 →
      s.ops.txn.toNat + s.ops.rxn.toNat ≤ s.cfg.bufCap → (∀ Q, ¬ TimingLegal s.cfg s.ops Q) →
      exec .cmInit s = .next { s with res := { s.res with code := .invalidTiming } })

/-- R186 (R182, R184): the state after a successful `CM.INIT`; operands, inputs, slots, `MSG` and the other result
registers are unchanged. `SNAP` and the scan position are left open, as R46 leaves them. -/
def Obligations.CmInitBringsUpTheBlock : Prop :=
  ∀ (s : State) (Q : Nat), cfgWf s.cfg = true → InitArgumentsLegal s Q → s.inp.rb = 0xF →
    ∃ (T R : Fin 9) (free armed : Mask) (ie snap : Word) (p : ScanPos),
      T.val = s.ops.txn.toNat ∧ R.val = s.ops.rxn.toNat ∧
      (∀ k, free.getLsbD k = decide (k < T.val)) ∧ (∀ k, armed.getLsbD k = decide (k < R.val)) ∧
      (∀ k, ie.getLsbD k = true ↔
        (k ∈ (irqBits s.cfg T.val R.val).tx ∨ k ∈ (irqBits s.cfg T.val R.val).rx)) ∧
      exec .cmInit s = .next { s with
        res := { s.res with code := .ok }
        ctl := {
          mode := .normal, txn := T, rxn := R, hnd := 3, freeMask := free, txReq := 0, rxArmed := armed
          btr := timingWord (Q - 1) (s.ops.sjw.toNat - s.cfg.segBias) (s.ops.prop.toNat - s.cfg.segBias)
            (s.ops.ph1.toNat - s.cfg.segBias) (s.ops.ph2.toNat - s.cfg.segBias)
          status := 0, ie := ie, errCnt := 0, ovfCnt := 0, wakeCnt := 0, tec := 0, recv := 0, xcvrEn := true }
        hid := { s.hid with dstate := .idle, snap := snap, scan := p }
        trace := s.trace ++ offEvents s ++ [.xcvr true] }

/-- R185: the first read-back verdict that is 0 ends `CM.INIT` with `HardwareFault` (code 5) and leaves the reset values of
R46 in every control register. `SNAP` and the scan position are left open, as R46 leaves them. -/
def Obligations.CmInitMismatchLeavesResetState : Prop :=
  ResCode.hardwareFault.toBits = 5 ∧
  ∀ (s : State) (Q : Nat), cfgWf s.cfg = true → InitArgumentsLegal s Q → s.inp.rb ≠ 0xF →
    ∃ (snap : Word) (p : ScanPos), exec .cmInit s = .next { s with
      res := { s.res with code := .hardwareFault }
      ctl := {
        mode := .uninitialized, txn := 0, rxn := 0, hnd := 0, freeMask := 0, txReq := 0, rxArmed := 0, btr := 0
        status := 0, ie := 0, errCnt := 0, ovfCnt := 0, wakeCnt := 0, tec := 0, recv := 0, xcvrEn := false }
      hid := { s.hid with dstate := .idle, snap := snap, scan := p }
      trace := s.trace ++ offEvents s }

/-- R188, R189: `CM.SLEEP` in `Normal`, with both verdicts; refused in every other mode. -/
def Obligations.CmSleepEntersSleepOrStays : Prop :=
  ∀ s : State,
    (s.ctl.mode = .normal → s.inp.rb.getLsbD 3 = true →
      exec .cmSleep s = .next { s with
        ctl := { s.ctl with mode := .sleep, xcvrEn := false }
        res := { s.res with code := .ok }
        trace := s.trace ++ [.xcvr false] }) ∧
    (s.ctl.mode = .normal → s.inp.rb.getLsbD 3 = false →
      exec .cmSleep s = .next { s with res := { s.res with code := .hardwareFault } }) ∧
    (s.ctl.mode ≠ .normal → exec .cmSleep s = .refused (.commandOutsideItsMode s.ctl.mode))

/-- R190, R191: `CM.WAKE` in `Sleep` and in `ListenOnly`, with both verdicts; refused in every other mode. -/
def Obligations.CmWakeEntersNormalOrListens : Prop :=
  ∀ s : State,
    ((s.ctl.mode = .sleep ∨ s.ctl.mode = .listenOnly) → s.inp.rb.getLsbD 3 = true →
      exec .cmWake s = .next { s with
        ctl := { s.ctl with mode := .normal, xcvrEn := true }
        res := { s.res with code := .ok }
        trace := s.trace ++ [.xcvr true] }) ∧
    ((s.ctl.mode = .sleep ∨ s.ctl.mode = .listenOnly) → s.inp.rb.getLsbD 3 = false →
      exec .cmWake s = .next { s with
        ctl := { s.ctl with mode := .listenOnly }
        res := { s.res with code := .hardwareFault } }) ∧
    (s.ctl.mode ≠ .sleep → s.ctl.mode ≠ .listenOnly →
      exec .cmWake s = .refused (.commandOutsideItsMode s.ctl.mode))

/-- R193: sleep followed by wake, both confirmed, ends in the start state in every register (`RES_CODE` is `Ok`), with the
two events. That the transceiver is on in `Normal` is the invariant `ModeInv` (`EveryStepKeepsModeDiscipline`). -/
def Obligations.SleepThenWakeRestoresEverything : Prop :=
  ∀ s : State, s.ctl.mode = .normal → s.ctl.xcvrEn = true → s.inp.rb.getLsbD 3 = true →
    runCommands [.cmSleep, .cmWake] s = .next { s with
      res := { s.res with code := .ok }, trace := s.trace ++ [.xcvr false, .xcvr true] }

/-- R192: `CM.ERRCNT` snapshots both counters in every mode. -/
def Obligations.CmErrcntSnapshotsCounters : Prop :=
  ∀ s : State, exec .cmErrcnt s = .next { s with
    res := { s.res with code := .ok, tec := s.ctl.tec, recv := s.ctl.recv } }

/-- R181: exactly these commands in exactly these modes have no meaning; in `Uninitialized`, where `TXN` is 0, `BA.FREE`
is refused. -/
def Obligations.CommandsOutsideTheirMode : Prop :=
  (∀ (i : Instr) (s : State),
    (∃ m, exec i s = .refused (.commandOutsideItsMode m)) ↔
      ((∃ n, i = .txSend n) ∧ s.ctl.mode ≠ .normal) ∨ ((∃ n, i = .txSendr n) ∧ s.ctl.mode ≠ .normal) ∨
      (i = .cmSleep ∧ s.ctl.mode ≠ .normal) ∨
      (i = .cmWake ∧ s.ctl.mode ≠ .sleep ∧ s.ctl.mode ≠ .listenOnly)) ∧
  ∀ (s : State) (n : Nat), s.ctl.txn = 0 → exec (.baFree n) s = .refused .freeOfMissingBuffer

/-- R180: a step changes the mode only along the edges of the state machine (and a hardware reset leads to
`Uninitialized`, R270). -/
def Obligations.ModeFollowsTheStateMachine : Prop :=
  ∀ s t : State, step s = .next t → t.ctl.mode ≠ s.ctl.mode →
    (t.ctl.mode = .normal ∧ ∃ w rest, s.agenda = .command w :: rest ∧
      (decode w = .command .cmInit ∨
        (decode w = .command .cmWake ∧ (s.ctl.mode = .sleep ∨ s.ctl.mode = .listenOnly)))) ∨
    (t.ctl.mode = .uninitialized ∧ ∃ m rest, s.agenda = m :: rest ∧
      (m = .hardwareReset ∨ ∃ w, m = .command w ∧ decode w = .command .cmInit)) ∨
    (s.ctl.mode = .normal ∧ t.ctl.mode = .sleep ∧ ∃ w rest, s.agenda = .command w :: rest ∧
      decode w = .command .cmSleep) ∨
    (s.ctl.mode = .sleep ∧ t.ctl.mode = .listenOnly)

/-! ### Send path -/

/-- R200, R206, R203 (with no move of another agent between the steps): an admitted send that the backend accepts. The
buffer is taken, the slot holds the image, the request is set and announced; nothing else changes. -/
def Obligations.AcceptedSendRequestsTransmission : Prop :=
  ∀ (s : State) (i : Nat) (rtr : Bool), s.gaps = [] → s.inp.accept = true → SendAdmitted s i (!rtr) →
    ∃ (free req : Mask) (m : List Host.Cell),
      (∀ k, free.getLsbD k = (s.ctl.freeMask.getLsbD k && !decide (k = i))) ∧
      (∀ k, req.getLsbD k = (s.ctl.txReq.getLsbD k || decide (k = i))) ∧
      SlotStored s.mem m i (sendImage s rtr) ∧
      exec (sendCommand rtr i) s = .next { s with
        ctl := { s.ctl with freeMask := free, txReq := req }
        mem := m
        res := { s.res with code := .ok }
        hid := { s.hid with sending := none }
        trace := s.trace ++ [.requestSend i] }

/-- R204 (with no move of another agent between the steps): an admitted send that the backend does not accept frees the
buffer at once and answers `Busy`; the slot keeps the image and nothing else changes. -/
def Obligations.UnacceptedSendFreesTheBuffer : Prop :=
  ∀ (s : State) (i : Nat) (rtr : Bool), s.gaps = [] → s.inp.accept = false → SendAdmitted s i (!rtr) →
    ∃ m : List Host.Cell, SlotStored s.mem m i (sendImage s rtr) ∧
      exec (sendCommand rtr i) s = .next { s with
        mem := m, res := { s.res with code := .busy }, hid := { s.hid with sending := none } }

/-- R205, R200, R206: the errors of step S1 in their order, each without side effects. -/
def Obligations.SendErrorsHaveNoSideEffects : Prop :=
  ∀ (s : State) (i : Nat) (rtr : Bool), s.ctl.mode = .normal →
    (¬ SendArgumentsLegal s i (!rtr) →
      exec (sendCommand rtr i) s = .next { s with res := { s.res with code := .invalidArgument } }) ∧
    (SendArgumentsLegal s i (!rtr) → s.ops.ext = true → s.cfg.extSupported = false →
      exec (sendCommand rtr i) s = .next { s with res := { s.res with code := .notSupported } }) ∧
    (SendArgumentsLegal s i (!rtr) → (s.ops.ext = true → s.cfg.extSupported = true) →
      s.ctl.freeMask.getLsbD i = false →
      exec (sendCommand rtr i) s = .next { s with res := { s.res with code := .busy } })

/-- R73, R201, R224: in `Normal`, a send runs to its end whatever the other agents do between its steps, as long as no
handler breaks the discipline of R287. -/
def Obligations.SendCompletesUnderInterleaving : Prop :=
  ∀ (s : State) (i : Nat) (rtr : Bool), s.ctl.mode = .normal → disciplinedGaps s = true →
    ∃ t, exec (sendCommand rtr i) s = .next t ∧ t.ops = s.ops ∧ t.cfg = s.cfg ∧
      (t.res.code = .ok ∨ t.res.code = .invalidArgument ∨ t.res.code = .notSupported ∨ t.res.code = .busy)

/-- R210: under the constrained backend agent nothing that falls between the steps touches the buffer, the slot or the
request of the send, dispatches included: the outcome is that of the command taken as one step. That the verdict is the one
`IN_ACCEPT` holds at step S3 is the model's reading (log 22). -/
def Obligations.SendIsAtomicUnderConstrainedBackend : Prop :=
  ∀ (s : State) (i : Nat) (rtr : Bool), cfgWf s.cfg = true → BuffersInv s → CountsInv s → constrainedGaps s = true →
    SendAdmitted s i (!rtr) → s.ctl.txReq.getLsbD i = false → s.ctl.status.getLsbD (txBit s i) = false →
    ∃ t, exec (sendCommand rtr i) s = .next t ∧
      (∀ d, d < (sendImage s rtr).length →
        Memory.get t.mem (SlotAddr.key ⟨.TXS, i, 0⟩ + d) = (sendImage s rtr)[d]?) ∧
      (t.inp.accept = true →
        t.res.code = .ok ∧ t.ctl.freeMask.getLsbD i = false ∧ t.ctl.txReq.getLsbD i = true) ∧
      (t.inp.accept = false →
        t.res.code = .busy ∧ t.ctl.freeMask.getLsbD i = true ∧ t.ctl.txReq.getLsbD i = false)

/-- R208: a send, its transmit completion and a dispatch invoke the handler of the buffer exactly once and return it to
`Free`. -/
def Obligations.SendCompletionCycle : Prop :=
  ∀ (s : State) (i : Fin 8) (rtr : Bool), cfgWf s.cfg = true → CountsInv s → s.gaps = [] → s.inp.accept = true →
    SendAdmitted s i.val (!rtr) → s.ctl.status = 0 →
    ∃ t u : State, exec (sendCommand rtr i.val) s = .next t ∧
      (backendMove (.complete i) t).ctl.status.getLsbD (txBit s i.val) = true ∧
      exec .isDispatch (backendMove (.complete i) t) = .next u ∧
      u.trace = s.trace ++ [.requestSend i.val, .txHandler i.val] ∧
      bufferBusy t i.val = true ∧ bufferFree u i.val = true ∧ u.ctl.txReq.getLsbD i.val = false ∧ u.ctl.status = 0

/-- R79: only the owner of a slot writes it, and who hands it to whom. A constrained backend move stores only to a receive
slot the backend owns. A send owns its transmit slot from its allocation to its request, whatever falls between its steps; its
store lies in that slot; the request gives the slot to the backend, or to nobody. A dispatch stores nothing itself, and no other
command stores. A delivery hands a receive slot from the backend to the dispatcher, the re-arm hands it back. -/
def Obligations.OnlyTheOwnerWritesASlot : Prop :=
  (∀ (m : BackendMove) (s : State) (k : Nat), m.constrained = true →
    Memory.get (backendMove m s).mem k ≠ Memory.get s.mem k →
    ∃ j : Fin 8, rxSlotOwner s j.val = .backend ∧ SlotAddr.key ⟨.RXS, j.val, 0⟩ ≤ k ∧
      k < SlotAddr.key ⟨.RXS, j.val, 0⟩ + imgBytes s.cfg.layout) ∧
  (∀ (s u : State) (i : Nat), s.ctl.txReq.getLsbD i = false → applicationGap (sendAllocate i s) = .next u →
    txSlotOwner (sendAllocate i s) i = .application ∧ txSlotOwner u i = .application ∧
    ∀ (rtr : Bool) (dlc : Nat) (data : List Byte) (t : State), sendWrite i rtr dlc data u = .next t →
      (∀ k, Memory.get t.mem k ≠ Memory.get u.mem k →
        SlotAddr.key ⟨.TXS, i, 0⟩ ≤ k ∧ k < SlotAddr.key ⟨.TXS, i, 0⟩ + imgBytes u.cfg.layout) ∧
      txSlotOwner t i = .application ∧ ∀ v, applicationGap t = .next v → txSlotOwner v i = .application) ∧
  (∀ (s : State) (i : Fin 8), s.inp.accept = true → txSlotOwner (sendRequest i.val s) i.val = .backend) ∧
  (∀ (s : State) (i : Nat), s.inp.accept = false → s.ctl.txReq.getLsbD i = false →
    txSlotOwner (sendRequest i s) i = .nobody) ∧
  (∀ s t : State, (∀ g ∈ s.gaps, (∀ j raw, GapMove.backend (.deliver j raw) ∉ g) ∧
      ∀ sp j raw, GapMove.backend (.fillSlot sp j raw) ∉ g) →
    exec .isDispatch s = .next t → t.mem = s.mem) ∧
  (∀ (i : Instr) (s t : State), (∀ n, i ≠ .txSend n) → (∀ n, i ≠ .txSendr n) → i ≠ .isDispatch →
    exec i s = .next t → t.mem = s.mem) ∧
  (∀ (s : State) (j : Fin 8) (raw : ImageReg), j.val < s.ctl.rxn.val → s.ctl.rxArmed.getLsbD j.val = true →
    (s.ctl.mode = .normal ∨ s.ctl.mode = .listenOnly) →
    rxSlotOwner s j.val = .backend ∧ rxSlotOwner (backendMove (.deliver j raw) s) j.val = .dispatcher) ∧
  ∀ (s : State) (j : Fin 8), j.val < s.ctl.rxn.val → s.ctl.rxArmed.getLsbD j.val = false →
    rxSlotOwner s j.val = .dispatcher ∧ rxSlotOwner (rearm j.val s) j.val = .backend

/-! ### Dispatcher -/

/-- R245 to R250 (with no move of another agent during the dispatch): what a dispatch does. Transmit events come before
receive events, each in increasing index; the counters saturate; all of `STATUS` is cleared; nothing else changes but
`MSG`, the code and the hidden registers. -/
def Obligations.DispatchServesEveryEventInOrder : Prop :=
  ∀ s : State, s.gaps = [] →
    ∃ (t : State) (m : Nat → Message),
      (∀ j, j < s.ctl.rxn.val → slotMessage j s = .ok (m j)) ∧
      exec .isDispatch s = .next t ∧
      t = { s with
        ctl := { s.ctl with
          freeMask := t.ctl.freeMask, rxArmed := t.ctl.rxArmed, status := 0
          errCnt := t.ctl.errCnt, ovfCnt := t.ctl.ovfCnt, wakeCnt := t.ctl.wakeCnt }
        res := { s.res with code := .ok }
        hid := { s.hid with dstate := .idle, snap := s.ctl.status, scan := t.hid.scan }
        msg := t.msg
        trace := s.trace ++ (servedTx s).map Event.txHandler ++
          (servedRx s).flatMap fun j => [.rxHandler j (m j), .rearm j] } ∧
      (∀ k, t.ctl.freeMask.getLsbD k = (s.ctl.freeMask.getLsbD k || decide (k ∈ servedTx s))) ∧
      (∀ k, t.ctl.rxArmed.getLsbD k = (s.ctl.rxArmed.getLsbD k || decide (k ∈ servedRx s))) ∧
      t.ctl.errCnt.toNat = counted s.ctl.errCnt (s.ctl.status.getLsbD s.irqBits.err) ∧
      t.ctl.ovfCnt.toNat = counted s.ctl.ovfCnt (s.ctl.status.getLsbD s.irqBits.ovf) ∧
      t.ctl.wakeCnt.toNat = counted s.ctl.wakeCnt (s.ctl.status.getLsbD s.irqBits.wake) ∧
      (servedRx s = [] → t.msg = s.msg) ∧
      ∀ j, j ∈ servedRx s → (∀ j' ∈ servedRx s, j' ≤ j) →
        t.msg.kind = (m j).kind ∧ t.msg.id = (m j).id ∧ t.msg.ext = (m j).ext ∧ t.msg.len.toNat = (m j).len ∧
        ∀ k : Fin 8, k.val < (m j).bytes.length → (m j).bytes[k.val]? = some t.msg.data[k]

/-- R224, R250, R252: a dispatch runs to its end whatever the backend agent does between its steps; all 32 bits of
`STATUS` are 0 afterwards, those set after the snapshot included, and `DSTATE` is `Idle`. -/
def Obligations.DispatchCompletesAndClearsStatus : Prop :=
  ∀ s : State, disciplinedGaps s = true →
    ∃ t, exec .isDispatch s = .next t ∧ t.ctl.status = 0 ∧ t.hid.dstate = .idle ∧ t.res.code = .ok ∧
      irq t = false ∧ t.hid.sending = s.hid.sending ∧ t.ctl.btr = s.ctl.btr ∧ t.ops = s.ops

/-- R237, R248, R152: a frame delivered into an armed slot is the one a dispatch decodes from it. -/
def Obligations.DeliveredFrameIsDecoded : Prop :=
  ∀ (s : State) (j : Fin 8) (raw : ImageReg), j.val < s.ctl.rxn.val → s.ctl.rxArmed.getLsbD j.val = true →
    (s.ctl.mode = .normal ∨ s.ctl.mode = .listenOnly) →
    slotMessage j.val (backendMove (.deliver j raw) s) = .ok (decImage s.cfg.layout raw)

/-- R284: a transmit completion at any boundary between the snapshot and the clear step is lost, whatever else the snapshot
holds: the dispatch ends as one that nothing disturbed, but for the request; no handler of the buffer runs, and the buffer stays
`Busy` with no request outstanding and no bit pending. -/
def Obligations.CompletionDuringDispatchIsLost : Prop :=
  ∀ (s : State) (i : Fin 8) (n : Nat), n ≤ s.ctl.txn.val + s.ctl.rxn.val + 1 →
    s.gaps = List.replicate n [] ++ [[.backend (.complete i)]] → s.ctl.status.getLsbD (txBit s i.val) = false →
    s.ctl.txReq.getLsbD i.val = true → s.ctl.freeMask.getLsbD i.val = false →
    ∃ (t u : State) (es : List Event), exec .isDispatch s = .next t ∧ exec .isDispatch { s with gaps := [] } = .next u ∧
      t = { u with ctl := { u.ctl with txReq := t.ctl.txReq } } ∧ t.ctl.status = 0 ∧
      t.trace = s.trace ++ es ∧ Event.txHandler i.val ∉ es ∧
      t.ctl.freeMask.getLsbD i.val = false ∧
      ∀ k, t.ctl.txReq.getLsbD k = (s.ctl.txReq.getLsbD k && !decide (k = i.val))

/-- R254, R39: a dispatch with no recognised bit in `STATUS` emits nothing, counts nothing and clears `STATUS`. -/
def Obligations.UnrecognisedStatusIsClearedWithoutAction : Prop :=
  ∀ s : State, s.gaps = [] → (∀ k ∈ recognisedBits s, s.ctl.status.getLsbD k = false) →
    ∃ p, exec .isDispatch s = .next { s with
      ctl := { s.ctl with status := 0 }
      res := { s.res with code := .ok }
      hid := { s.hid with dstate := .idle, snap := s.ctl.status, scan := p } }

/-- R232, R287: a handler that issues a command or writes an operand register gives the run no meaning. That this is so at
every boundary of the dispatch, one before the first handler event included, is the model's reading (log 11). -/
def Obligations.HandlerIssuedCommandIsRefused : Prop :=
  ∀ (s : State) (before : List (List GapMove)) (earlier later : List GapMove) (rest : List (List GapMove)),
    before.length ≤ s.ctl.txn.val + s.ctl.rxn.val + 1 → (∀ g ∈ before, g.all GapMove.disciplined = true) →
    earlier.all GapMove.disciplined = true →
    (∀ w, s.gaps = before ++ (earlier ++ .handlerCommand w :: later) :: rest →
      exec .isDispatch s = .refused .commandFromHandler) ∧
    ∀ o, s.gaps = before ++ (earlier ++ .handlerOperand o :: later) :: rest →
      exec .isDispatch s = .refused .operandFromHandler

/-- R34, R251, R252: the request line, and what entry and return change: `SNAP`, `DSTATE` and the cleared `STATUS`, nothing
saved and nothing restored; inside a dispatch the line is 0. -/
def Obligations.InterruptLineEntryAndReturn : Prop :=
  ∀ s : State,
    (irq s = true ↔ (s.ctl.status &&& s.ctl.ie ≠ 0 ∧ s.hid.dstate = .idle)) ∧
    enterInterrupt s = { s with hid := { s.hid with dstate := .active, snap := s.ctl.status } } ∧
    irq (enterInterrupt s) = false ∧
    returnInterrupt s = { s with ctl := { s.ctl with status := 0 }, hid := { s.hid with dstate := .idle } } ∧
    context (enterInterrupt s) = .interrupt ∧ context (returnInterrupt s) = .application

/-! ### Backend agent and resets -/

/-- R236, R237: transmit completion and frame delivery, with their preconditions. A move whose precondition fails does not
occur: the model's choice (log 9). -/
def Obligations.BackendCompletesAndDelivers : Prop :=
  (∀ (s : State) (i : Fin 8), cfgWf s.cfg = true → BuffersInv s → CountsInv s →
    (s.ctl.txReq.getLsbD i.val = true →
      ∃ (req : Mask) (st : Word), (∀ k, req.getLsbD k = (s.ctl.txReq.getLsbD k && !decide (k = i.val))) ∧
        (∀ k, st.getLsbD k = (s.ctl.status.getLsbD k || decide (k = txBit s i.val))) ∧
        backendMove (.complete i) s = { s with ctl := { s.ctl with txReq := req, status := st } }) ∧
    (s.ctl.txReq.getLsbD i.val = false → backendMove (.complete i) s = s)) ∧
  ∀ (s : State) (j : Fin 8) (raw : ImageReg), cfgWf s.cfg = true → CountsInv s →
    (j.val < s.ctl.rxn.val → s.ctl.rxArmed.getLsbD j.val = true →
      (s.ctl.mode = .normal ∨ s.ctl.mode = .listenOnly) →
      ∃ (armed : Mask) (st : Word) (m : List Host.Cell),
        (∀ k, armed.getLsbD k = (s.ctl.rxArmed.getLsbD k && !decide (k = j.val))) ∧
        (∀ k, st.getLsbD k = (s.ctl.status.getLsbD k || decide (k = rxBit s j.val))) ∧
        (∀ d, d < imgBytes s.cfg.layout →
          Memory.get m (SlotAddr.key ⟨.RXS, j.val, 0⟩ + d) = (imageBytes s.cfg.layout raw)[d]?) ∧
        (∀ k, (k < SlotAddr.key ⟨.RXS, j.val, 0⟩ ∨ SlotAddr.key ⟨.RXS, j.val, 0⟩ + imgBytes s.cfg.layout ≤ k) →
          Memory.get m k = Memory.get s.mem k) ∧
        backendMove (.deliver j raw) s = { s with ctl := { s.ctl with rxArmed := armed, status := st }, mem := m }) ∧
    (¬ (j.val < s.ctl.rxn.val ∧ s.ctl.rxArmed.getLsbD j.val = true ∧
        (s.ctl.mode = .normal ∨ s.ctl.mode = .listenOnly)) → backendMove (.deliver j raw) s = s)

/-- R238 to R241: bus error, overflow, error counters, wake, verdicts. `raiseStatus` and `fillSlot` are moves of the stronger
environment that R241 names (log 12). A move whose precondition fails does not occur: the model's choice (log 9). -/
def Obligations.BackendErrorsCountersAndWake : Prop :=
  ∀ s : State, cfgWf s.cfg = true → CountsInv s →
    (∃ st : Word, (∀ k, st.getLsbD k = (s.ctl.status.getLsbD k || decide (k = s.irqBits.err))) ∧
      backendMove .busError s = { s with ctl := { s.ctl with status := st } }) ∧
    ((∀ j, j < s.ctl.rxn.val → s.ctl.rxArmed.getLsbD j = false) →
      ∃ st : Word, (∀ k, st.getLsbD k = (s.ctl.status.getLsbD k || decide (k = s.irqBits.ovf))) ∧
        backendMove .overflow s = { s with ctl := { s.ctl with status := st } }) ∧
    ((∃ j, j < s.ctl.rxn.val ∧ s.ctl.rxArmed.getLsbD j = true) → backendMove .overflow s = s) ∧
    (∀ a b, backendMove (.counters a b) s = { s with ctl := { s.ctl with tec := a, recv := b } }) ∧
    (s.ctl.mode = .sleep →
      ∃ st : Word, (∀ k, st.getLsbD k = (s.ctl.status.getLsbD k || decide (k = s.irqBits.wake))) ∧
        backendMove .wake s = { s with ctl := { s.ctl with mode := .listenOnly, status := st } }) ∧
    (s.ctl.mode ≠ .sleep → backendMove .wake s = s) ∧
    (∀ rb accept, backendMove (.verdicts rb accept) s = { s with inp := { rb := rb, accept := accept } }) ∧
    (∀ bits, ∃ st : Word, (∀ k, st.getLsbD k = (s.ctl.status.getLsbD k || bits.getLsbD k)) ∧
      backendMove (.raiseStatus bits) s = { s with ctl := { s.ctl with status := st } }) ∧
    ∀ (sp : Space) (j : Fin 8) (raw : ImageReg), ∃ m : List Host.Cell,
      (∀ d, d < imgBytes s.cfg.layout →
        Memory.get m (SlotAddr.key ⟨sp, j.val, 0⟩ + d) = (imageBytes s.cfg.layout raw)[d]?) ∧
      (∀ k, (k < SlotAddr.key ⟨sp, j.val, 0⟩ ∨ SlotAddr.key ⟨sp, j.val, 0⟩ + imgBytes s.cfg.layout ≤ k) →
        Memory.get m k = Memory.get s.mem k) ∧
      backendMove (.fillSlot sp j raw) s = { s with mem := m }

/-- R46, R271: the control registers, the dispatcher and the request line after hardware reset. (The other registers hold
values the model names, log 3 and log 4, and are not stated here.) -/
def Obligations.ResetLeavesTheBlockUninitialized : Prop :=
  State.reset.ctl = {
    mode := .uninitialized, txn := 0, rxn := 0, hnd := 0, freeMask := 0, txReq := 0, rxArmed := 0, btr := 0
    status := 0, ie := 0, errCnt := 0, ovfCnt := 0, wakeCnt := 0, tec := 0, recv := 0, xcvrEn := false } ∧
  State.reset.hid.dstate = .idle ∧ irq State.reset = false ∧ context State.reset = .application ∧
  Mode.uninitialized.toBits = 0

/-- R270: a hardware reset during operation gives every control register its reset value, whatever the state. -/
def Obligations.HardwareResetRestoresControlRegisters : Prop :=
  ∀ (s : State) (rest : List Move), cfgWf s.cfg = true → s.agenda = .hardwareReset :: rest →
    ∃ t, step s = .next t ∧ t.ctl = State.reset.ctl ∧ t.hid.dstate = .idle ∧ t.hid.sending = none ∧ t.cfg = s.cfg ∧
      t.agenda = rest ∧ irq t = false

/-! ### Rules of the whole machine -/

/-- R28, R30: no step sets a bit of `FREE_MASK`, `TXREQ` or `RX_ARMED` at or above the configured count, the stronger
environment and every interleaving included. -/
def Obligations.EveryStepKeepsBufferMasks : Prop :=
  ∀ s t : State, BuffersInv s → step s = .next t → BuffersInv t

/-- R26, R33: every step keeps the counts within the capacity and `IE` at the bits of the configured buffers. -/
def Obligations.EveryStepKeepsCountsAndEnables : Prop :=
  ∀ s t : State, CountsInv s → step s = .next t → CountsInv t

/-- R180, R43, R37, R27: every step keeps the mode settled, the dispatcher idle, and the transceiver on exactly in
`Normal`. -/
def Obligations.EveryStepKeepsModeDiscipline : Prop :=
  ∀ s t : State, ModeInv s → step s = .next t → ModeInv t

/-- R31: every step keeps the reserved bits of `BTR` at 0. -/
def Obligations.EveryStepKeepsTimingReservedBits : Prop :=
  ∀ s t : State, TimingInv s → step s = .next t → TimingInv t

/-- R60, R61, R67: every step keeps the slot memory canonical and inside the places that exist. -/
def Obligations.EveryStepKeepsSlotMemory : Prop :=
  ∀ s t : State, MemoryInv s → step s = .next t → MemoryInv t

/-- R46, R271: the state after hardware reset is safe under every well-formed configuration. -/
def Obligations.ResetIsSafe : Prop :=
  State.reset = State.resetWith cfgB ∧ ∀ c : Cfg, cfgWf c = true → SafeState (State.resetWith c)

/-- R20, R21: no command writes an operand register, and no step writes the configuration. -/
def Obligations.CommandsWriteNoOperandRegister : Prop :=
  (∀ (i : Instr) (s t : State), exec i s = .next t → t.ops = s.ops ∧ t.cfg = s.cfg) ∧
  ∀ s t : State, step s = .next t → t.cfg = s.cfg

/-- R29, R209: no command but `CM.INIT` clears a request; only the backend's completion of that buffer does. -/
def Obligations.OnlyInitAbortsARequest : Prop :=
  ∀ (i : Instr) (s t : State) (k : Fin 8), i ≠ .cmInit →
    (∀ g ∈ s.gaps, GapMove.backend (.complete k) ∉ g) → exec i s = .next t →
    s.ctl.txReq.getLsbD k.val = true → t.ctl.txReq.getLsbD k.val = true

/-- R31, R26, R27, R33: the timing register, the counts, the handler flags and the enables are written by `CM.INIT`
only. -/
def Obligations.OnlyInitWritesConfigurationRegisters : Prop :=
  ∀ (i : Instr) (s t : State), i ≠ .cmInit → exec i s = .next t →
    t.ctl.btr = s.ctl.btr ∧ t.ctl.txn = s.ctl.txn ∧ t.ctl.rxn = s.ctl.rxn ∧ t.ctl.hnd = s.ctl.hnd ∧
    t.ctl.ie = s.ctl.ie

/-- R221: these commands never return an error. -/
def Obligations.CommandsThatNeverReturnAnError : Prop :=
  ∀ (i : Instr) (s t : State),
    ((∃ n, i = .baAlloc n) ∨ (∃ n, i = .baFree n) ∨ i = .fcDec ∨ i = .cmErrcnt ∨ i = .isDispatch) →
    exec i s = .next t → t.res.code = .ok

/-! ### Operand writes and the slot primitives -/

/-- R21: the step that takes an operand write changes the register, or the one array element, that the write names, and no
other; the move leaves the agenda. -/
def Obligations.OperandWriteChangesItsRegisterOnly : Prop :=
  ∀ (s : State) (rest : List Move), cfgWf s.cfg = true →
    (∀ v, s.agenda = .operand (.id v) :: rest → step s = .next { s with agenda := rest, ops := { s.ops with id := v } }) ∧
    (∀ v, s.agenda = .operand (.ext v) :: rest → step s = .next { s with agenda := rest, ops := { s.ops with ext := v } }) ∧
    (∀ v, s.agenda = .operand (.len v) :: rest → step s = .next { s with agenda := rest, ops := { s.ops with len := v } }) ∧
    (∀ (k : Fin 8) v, s.agenda = .operand (.data k v) :: rest →
      ∃ d : Vector Byte 8, (∀ j : Fin 8, d[j] = if j = k then v else s.ops.data[j]) ∧
        step s = .next { s with agenda := rest, ops := { s.ops with data := d } }) ∧
    (∀ (k : Fin 13) v, s.agenda = .operand (.rawByte k v) :: rest →
      ∃ d : Vector Byte 13, (∀ j : Fin 13, d[j] = if j = k then v else s.ops.raw.bytes[j]) ∧
        step s = .next { s with agenda := rest, ops := { s.ops with raw := { s.ops.raw with bytes := d } } }) ∧
    (∀ (k : Fin 4) v, s.agenda = .operand (.rawWord k v) :: rest →
      ∃ d : Vector Word 4, (∀ j : Fin 4, d[j] = if j = k then v else s.ops.raw.words[j]) ∧
        step s = .next { s with agenda := rest, ops := { s.ops with raw := { s.ops.raw with words := d } } }) ∧
    (∀ v, s.agenda = .operand (.br v) :: rest → step s = .next { s with agenda := rest, ops := { s.ops with br := v } }) ∧
    (∀ v, s.agenda = .operand (.sjw v) :: rest → step s = .next { s with agenda := rest, ops := { s.ops with sjw := v } }) ∧
    (∀ v, s.agenda = .operand (.prop v) :: rest →
      step s = .next { s with agenda := rest, ops := { s.ops with prop := v } }) ∧
    (∀ v, s.agenda = .operand (.ph1 v) :: rest → step s = .next { s with agenda := rest, ops := { s.ops with ph1 := v } }) ∧
    (∀ v, s.agenda = .operand (.ph2 v) :: rest → step s = .next { s with agenda := rest, ops := { s.ops with ph2 := v } }) ∧
    (∀ v, s.agenda = .operand (.txn v) :: rest → step s = .next { s with agenda := rest, ops := { s.ops with txn := v } }) ∧
    (∀ v, s.agenda = .operand (.rxn v) :: rest → step s = .next { s with agenda := rest, ops := { s.ops with rxn := v } }) ∧
    (∀ v, s.agenda = .operand (.txh v) :: rest → step s = .next { s with agenda := rest, ops := { s.ops with txh := v } }) ∧
    ∀ v, s.agenda = .operand (.rxh v) :: rest → step s = .next { s with agenda := rest, ops := { s.ops with rxh := v } }

/-- R62, R63, R67, U23: `MemRead` and `MemWrite` where the access is admitted, what one reads after the other, and the refusal
everywhere else. -/
def Obligations.SlotAccessReadsAndStoresOrIsRefused : Prop :=
  (∀ (s : State) (a : SlotAddr) (n : Nat),
    (AccessAdmitted s.cfg.layout a n → ∃ bs : List Byte, memRead s a n = .ok bs ∧ bs.length = n ∧
      ∀ d, d < n → bs[d]? = some (readByte s (a.key + d))) ∧
    (¬ AccessAdmitted s.cfg.layout a n → memRead s a n = .error .slotAccessNotAdmitted)) ∧
  ∀ (s : State) (a : SlotAddr) (v : List Byte),
    (AccessAdmitted s.cfg.layout a v.length → ∃ m : List Host.Cell, memWrite a v s = .next { s with mem := m } ∧
      memRead { s with mem := m } a v.length = .ok v ∧
      ∀ k, (k < a.key ∨ a.key + v.length ≤ k) → Memory.get m k = Memory.get s.mem k) ∧
    (¬ AccessAdmitted s.cfg.layout a v.length → memWrite a v s = .refused .slotAccessNotAdmitted)

/-- R75, R236: the image the backend transmits for a buffer whose send ended with `Ok` is the one the write step stored,
whatever falls between the steps of the send and whatever constrained moves the backend makes before it transmits. -/
def Obligations.BackendTransmitsTheStoredImage : Prop :=
  ∀ (s : State) (i : Nat) (rtr : Bool), constrainedGaps s = true → SendAdmitted s i (!rtr) →
    ∃ t, exec (sendCommand rtr i) s = .next t ∧
      (t.res.code = .ok → t.ctl.txReq.getLsbD i = true ∧
        ∀ ms : List BackendMove, (∀ m ∈ ms, m.constrained = true) →
          ∀ d, d < (sendImage s rtr).length →
            (transmittedImage i (backendMoves ms t))[d]? = (sendImage s rtr)[d]?)

/-- `SNAP` and the scan position, which R46 and R47 leave open, survive `CM.INIT` whatever it answers: the model's choice
(log 14). -/
def Obligations.CmInitKeepsSnapshotAndScan : Prop :=
  ∀ s t : State, exec .cmInit s = .next t → t.hid.snap = s.hid.snap ∧ t.hid.scan = s.hid.scan
end

