-- ==== Sys2Proof/Laws/State.lean ====
section
/-! SUPPORT. For every update of the state, what each part of the state is after it: one lemma per part, true by rfl. -/

namespace Sys2Proof.Machine

variable (s : State)

/-! ### finish -/

@[simp] theorem finish_cmd (c : ResCode) : (finish c s).cmd = s.cmd := rfl
@[simp] theorem finish_ops (c : ResCode) : (finish c s).ops = s.ops := rfl
@[simp] theorem finish_inp (c : ResCode) : (finish c s).inp = s.inp := rfl
@[simp] theorem finish_res (c : ResCode) : (finish c s).res = { s.res with code := c } := rfl
@[simp] theorem finish_ctl (c : ResCode) : (finish c s).ctl = s.ctl := rfl
@[simp] theorem finish_hid (c : ResCode) : (finish c s).hid = s.hid := rfl
@[simp] theorem finish_msg (c : ResCode) : (finish c s).msg = s.msg := rfl
@[simp] theorem finish_mem (c : ResCode) : (finish c s).mem = s.mem := rfl
@[simp] theorem finish_trace (c : ResCode) : (finish c s).trace = s.trace := rfl
@[simp] theorem finish_cfg (c : ResCode) : (finish c s).cfg = s.cfg := rfl
@[simp] theorem finish_agenda (c : ResCode) : (finish c s).agenda = s.agenda := rfl
@[simp] theorem finish_gaps (c : ResCode) : (finish c s).gaps = s.gaps := rfl
@[simp] theorem finish_epoch (c : ResCode) : (finish c s).epoch = s.epoch := rfl

/-! ### emit -/

@[simp] theorem emit_cmd (e : Event) : (emit e s).cmd = s.cmd := rfl
@[simp] theorem emit_ops (e : Event) : (emit e s).ops = s.ops := rfl
@[simp] theorem emit_inp (e : Event) : (emit e s).inp = s.inp := rfl
@[simp] theorem emit_res (e : Event) : (emit e s).res = s.res := rfl
@[simp] theorem emit_ctl (e : Event) : (emit e s).ctl = s.ctl := rfl
@[simp] theorem emit_hid (e : Event) : (emit e s).hid = s.hid := rfl
@[simp] theorem emit_msg (e : Event) : (emit e s).msg = s.msg := rfl
@[simp] theorem emit_mem (e : Event) : (emit e s).mem = s.mem := rfl
@[simp] theorem emit_trace (e : Event) : (emit e s).trace = s.trace ++ [e] := rfl
@[simp] theorem emit_cfg (e : Event) : (emit e s).cfg = s.cfg := rfl
@[simp] theorem emit_agenda (e : Event) : (emit e s).agenda = s.agenda := rfl
@[simp] theorem emit_gaps (e : Event) : (emit e s).gaps = s.gaps := rfl
@[simp] theorem emit_epoch (e : Event) : (emit e s).epoch = s.epoch := rfl

/-! ### freeBuffer -/

@[simp] theorem freeBuffer_cmd (i : Nat) : (freeBuffer i s).cmd = s.cmd := rfl
@[simp] theorem freeBuffer_ops (i : Nat) : (freeBuffer i s).ops = s.ops := rfl
@[simp] theorem freeBuffer_inp (i : Nat) : (freeBuffer i s).inp = s.inp := rfl
@[simp] theorem freeBuffer_res (i : Nat) : (freeBuffer i s).res = s.res := rfl
@[simp] theorem freeBuffer_ctl (i : Nat) : (freeBuffer i s).ctl = { s.ctl with freeMask := setBit s.ctl.freeMask i } := rfl
@[simp] theorem freeBuffer_hid (i : Nat) : (freeBuffer i s).hid = s.hid := rfl
@[simp] theorem freeBuffer_msg (i : Nat) : (freeBuffer i s).msg = s.msg := rfl
@[simp] theorem freeBuffer_mem (i : Nat) : (freeBuffer i s).mem = s.mem := rfl
@[simp] theorem freeBuffer_trace (i : Nat) : (freeBuffer i s).trace = s.trace := rfl
@[simp] theorem freeBuffer_cfg (i : Nat) : (freeBuffer i s).cfg = s.cfg := rfl
@[simp] theorem freeBuffer_agenda (i : Nat) : (freeBuffer i s).agenda = s.agenda := rfl
@[simp] theorem freeBuffer_gaps (i : Nat) : (freeBuffer i s).gaps = s.gaps := rfl
@[simp] theorem freeBuffer_epoch (i : Nat) : (freeBuffer i s).epoch = s.epoch := rfl

/-! ### takeBuffer -/

@[simp] theorem takeBuffer_cmd (i : Nat) : (takeBuffer i s).cmd = s.cmd := rfl
@[simp] theorem takeBuffer_ops (i : Nat) : (takeBuffer i s).ops = s.ops := rfl
@[simp] theorem takeBuffer_inp (i : Nat) : (takeBuffer i s).inp = s.inp := rfl
@[simp] theorem takeBuffer_res (i : Nat) : (takeBuffer i s).res = s.res := rfl
@[simp] theorem takeBuffer_ctl (i : Nat) : (takeBuffer i s).ctl = { s.ctl with freeMask := clearBit s.ctl.freeMask i } := rfl
@[simp] theorem takeBuffer_hid (i : Nat) : (takeBuffer i s).hid = s.hid := rfl
@[simp] theorem takeBuffer_msg (i : Nat) : (takeBuffer i s).msg = s.msg := rfl
@[simp] theorem takeBuffer_mem (i : Nat) : (takeBuffer i s).mem = s.mem := rfl
@[simp] theorem takeBuffer_trace (i : Nat) : (takeBuffer i s).trace = s.trace := rfl
@[simp] theorem takeBuffer_cfg (i : Nat) : (takeBuffer i s).cfg = s.cfg := rfl
@[simp] theorem takeBuffer_agenda (i : Nat) : (takeBuffer i s).agenda = s.agenda := rfl
@[simp] theorem takeBuffer_gaps (i : Nat) : (takeBuffer i s).gaps = s.gaps := rfl
@[simp] theorem takeBuffer_epoch (i : Nat) : (takeBuffer i s).epoch = s.epoch := rfl

/-! ### requestSend -/

@[simp] theorem requestSend_cmd (i : Nat) : (requestSend i s).cmd = s.cmd := rfl
@[simp] theorem requestSend_ops (i : Nat) : (requestSend i s).ops = s.ops := rfl
@[simp] theorem requestSend_inp (i : Nat) : (requestSend i s).inp = s.inp := rfl
@[simp] theorem requestSend_res (i : Nat) : (requestSend i s).res = s.res := rfl
@[simp] theorem requestSend_ctl (i : Nat) : (requestSend i s).ctl = { s.ctl with txReq := setBit s.ctl.txReq i } := rfl
@[simp] theorem requestSend_hid (i : Nat) : (requestSend i s).hid = s.hid := rfl
@[simp] theorem requestSend_msg (i : Nat) : (requestSend i s).msg = s.msg := rfl
@[simp] theorem requestSend_mem (i : Nat) : (requestSend i s).mem = s.mem := rfl
@[simp] theorem requestSend_trace (i : Nat) : (requestSend i s).trace = s.trace ++ [.requestSend i] := rfl
@[simp] theorem requestSend_cfg (i : Nat) : (requestSend i s).cfg = s.cfg := rfl
@[simp] theorem requestSend_agenda (i : Nat) : (requestSend i s).agenda = s.agenda := rfl
@[simp] theorem requestSend_gaps (i : Nat) : (requestSend i s).gaps = s.gaps := rfl
@[simp] theorem requestSend_epoch (i : Nat) : (requestSend i s).epoch = s.epoch := rfl

/-! ### rearm -/

@[simp] theorem rearm_cmd (j : Nat) : (rearm j s).cmd = s.cmd := rfl
@[simp] theorem rearm_ops (j : Nat) : (rearm j s).ops = s.ops := rfl
@[simp] theorem rearm_inp (j : Nat) : (rearm j s).inp = s.inp := rfl
@[simp] theorem rearm_res (j : Nat) : (rearm j s).res = s.res := rfl
@[simp] theorem rearm_ctl (j : Nat) : (rearm j s).ctl = { s.ctl with rxArmed := setBit s.ctl.rxArmed j } := rfl
@[simp] theorem rearm_hid (j : Nat) : (rearm j s).hid = s.hid := rfl
@[simp] theorem rearm_msg (j : Nat) : (rearm j s).msg = s.msg := rfl
@[simp] theorem rearm_mem (j : Nat) : (rearm j s).mem = s.mem := rfl
@[simp] theorem rearm_trace (j : Nat) : (rearm j s).trace = s.trace ++ [.rearm j] := rfl
@[simp] theorem rearm_cfg (j : Nat) : (rearm j s).cfg = s.cfg := rfl
@[simp] theorem rearm_agenda (j : Nat) : (rearm j s).agenda = s.agenda := rfl
@[simp] theorem rearm_gaps (j : Nat) : (rearm j s).gaps = s.gaps := rfl
@[simp] theorem rearm_epoch (j : Nat) : (rearm j s).epoch = s.epoch := rfl

/-! ### setMode -/

@[simp] theorem setMode_cmd (m : Mode) : (setMode m s).cmd = s.cmd := rfl
@[simp] theorem setMode_ops (m : Mode) : (setMode m s).ops = s.ops := rfl
@[simp] theorem setMode_inp (m : Mode) : (setMode m s).inp = s.inp := rfl
@[simp] theorem setMode_res (m : Mode) : (setMode m s).res = s.res := rfl
@[simp] theorem setMode_ctl (m : Mode) : (setMode m s).ctl = { s.ctl with mode := m } := rfl
@[simp] theorem setMode_hid (m : Mode) : (setMode m s).hid = s.hid := rfl
@[simp] theorem setMode_msg (m : Mode) : (setMode m s).msg = s.msg := rfl
@[simp] theorem setMode_mem (m : Mode) : (setMode m s).mem = s.mem := rfl
@[simp] theorem setMode_trace (m : Mode) : (setMode m s).trace = s.trace := rfl
@[simp] theorem setMode_cfg (m : Mode) : (setMode m s).cfg = s.cfg := rfl
@[simp] theorem setMode_agenda (m : Mode) : (setMode m s).agenda = s.agenda := rfl
@[simp] theorem setMode_gaps (m : Mode) : (setMode m s).gaps = s.gaps := rfl
@[simp] theorem setMode_epoch (m : Mode) : (setMode m s).epoch = s.epoch := rfl

/-! ### driveXcvr -/

@[simp] theorem driveXcvr_cmd (b : Bool) : (driveXcvr b s).cmd = s.cmd := rfl
@[simp] theorem driveXcvr_ops (b : Bool) : (driveXcvr b s).ops = s.ops := rfl
@[simp] theorem driveXcvr_inp (b : Bool) : (driveXcvr b s).inp = s.inp := rfl
@[simp] theorem driveXcvr_res (b : Bool) : (driveXcvr b s).res = s.res := rfl
@[simp] theorem driveXcvr_ctl (b : Bool) : (driveXcvr b s).ctl = { s.ctl with xcvrEn := b } := rfl
@[simp] theorem driveXcvr_hid (b : Bool) : (driveXcvr b s).hid = s.hid := rfl
@[simp] theorem driveXcvr_msg (b : Bool) : (driveXcvr b s).msg = s.msg := rfl
@[simp] theorem driveXcvr_mem (b : Bool) : (driveXcvr b s).mem = s.mem := rfl
@[simp] theorem driveXcvr_trace (b : Bool) : (driveXcvr b s).trace = s.trace ++ [.xcvr b] := rfl
@[simp] theorem driveXcvr_cfg (b : Bool) : (driveXcvr b s).cfg = s.cfg := rfl
@[simp] theorem driveXcvr_agenda (b : Bool) : (driveXcvr b s).agenda = s.agenda := rfl
@[simp] theorem driveXcvr_gaps (b : Bool) : (driveXcvr b s).gaps = s.gaps := rfl
@[simp] theorem driveXcvr_epoch (b : Bool) : (driveXcvr b s).epoch = s.epoch := rfl

/-! ### setSending -/

@[simp] theorem setSending_cmd (p : Option Sending) : (setSending p s).cmd = s.cmd := rfl
@[simp] theorem setSending_ops (p : Option Sending) : (setSending p s).ops = s.ops := rfl
@[simp] theorem setSending_inp (p : Option Sending) : (setSending p s).inp = s.inp := rfl
@[simp] theorem setSending_res (p : Option Sending) : (setSending p s).res = s.res := rfl
@[simp] theorem setSending_ctl (p : Option Sending) : (setSending p s).ctl = s.ctl := rfl
@[simp] theorem setSending_hid (p : Option Sending) : (setSending p s).hid = { s.hid with sending := p } := rfl
@[simp] theorem setSending_msg (p : Option Sending) : (setSending p s).msg = s.msg := rfl
@[simp] theorem setSending_mem (p : Option Sending) : (setSending p s).mem = s.mem := rfl
@[simp] theorem setSending_trace (p : Option Sending) : (setSending p s).trace = s.trace := rfl
@[simp] theorem setSending_cfg (p : Option Sending) : (setSending p s).cfg = s.cfg := rfl
@[simp] theorem setSending_agenda (p : Option Sending) : (setSending p s).agenda = s.agenda := rfl
@[simp] theorem setSending_gaps (p : Option Sending) : (setSending p s).gaps = s.gaps := rfl
@[simp] theorem setSending_epoch (p : Option Sending) : (setSending p s).epoch = s.epoch := rfl

/-! ### setScan -/

@[simp] theorem setScan_cmd (p : ScanPos) : (setScan p s).cmd = s.cmd := rfl
@[simp] theorem setScan_ops (p : ScanPos) : (setScan p s).ops = s.ops := rfl
@[simp] theorem setScan_inp (p : ScanPos) : (setScan p s).inp = s.inp := rfl
@[simp] theorem setScan_res (p : ScanPos) : (setScan p s).res = s.res := rfl
@[simp] theorem setScan_ctl (p : ScanPos) : (setScan p s).ctl = s.ctl := rfl
@[simp] theorem setScan_hid (p : ScanPos) : (setScan p s).hid = { s.hid with scan := p } := rfl
@[simp] theorem setScan_msg (p : ScanPos) : (setScan p s).msg = s.msg := rfl
@[simp] theorem setScan_mem (p : ScanPos) : (setScan p s).mem = s.mem := rfl
@[simp] theorem setScan_trace (p : ScanPos) : (setScan p s).trace = s.trace := rfl
@[simp] theorem setScan_cfg (p : ScanPos) : (setScan p s).cfg = s.cfg := rfl
@[simp] theorem setScan_agenda (p : ScanPos) : (setScan p s).agenda = s.agenda := rfl
@[simp] theorem setScan_gaps (p : ScanPos) : (setScan p s).gaps = s.gaps := rfl
@[simp] theorem setScan_epoch (p : ScanPos) : (setScan p s).epoch = s.epoch := rfl

/-! ### dropGap -/

@[simp] theorem dropGap_cmd : (dropGap s).cmd = s.cmd := rfl
@[simp] theorem dropGap_ops : (dropGap s).ops = s.ops := rfl
@[simp] theorem dropGap_inp : (dropGap s).inp = s.inp := rfl
@[simp] theorem dropGap_res : (dropGap s).res = s.res := rfl
@[simp] theorem dropGap_ctl : (dropGap s).ctl = s.ctl := rfl
@[simp] theorem dropGap_hid : (dropGap s).hid = s.hid := rfl
@[simp] theorem dropGap_msg : (dropGap s).msg = s.msg := rfl
@[simp] theorem dropGap_mem : (dropGap s).mem = s.mem := rfl
@[simp] theorem dropGap_trace : (dropGap s).trace = s.trace := rfl
@[simp] theorem dropGap_cfg : (dropGap s).cfg = s.cfg := rfl
@[simp] theorem dropGap_agenda : (dropGap s).agenda = s.agenda := rfl
@[simp] theorem dropGap_gaps : (dropGap s).gaps = s.gaps.tail := rfl
@[simp] theorem dropGap_epoch : (dropGap s).epoch = s.epoch := rfl

/-! ### raiseBit -/

@[simp] theorem raiseBit_cmd (k : Nat) : (raiseBit k s).cmd = s.cmd := rfl
@[simp] theorem raiseBit_ops (k : Nat) : (raiseBit k s).ops = s.ops := rfl
@[simp] theorem raiseBit_inp (k : Nat) : (raiseBit k s).inp = s.inp := rfl
@[simp] theorem raiseBit_res (k : Nat) : (raiseBit k s).res = s.res := rfl
@[simp] theorem raiseBit_ctl (k : Nat) : (raiseBit k s).ctl = { s.ctl with status := setBit s.ctl.status k } := rfl
@[simp] theorem raiseBit_hid (k : Nat) : (raiseBit k s).hid = s.hid := rfl
@[simp] theorem raiseBit_msg (k : Nat) : (raiseBit k s).msg = s.msg := rfl
@[simp] theorem raiseBit_mem (k : Nat) : (raiseBit k s).mem = s.mem := rfl
@[simp] theorem raiseBit_trace (k : Nat) : (raiseBit k s).trace = s.trace := rfl
@[simp] theorem raiseBit_cfg (k : Nat) : (raiseBit k s).cfg = s.cfg := rfl
@[simp] theorem raiseBit_agenda (k : Nat) : (raiseBit k s).agenda = s.agenda := rfl
@[simp] theorem raiseBit_gaps (k : Nat) : (raiseBit k s).gaps = s.gaps := rfl
@[simp] theorem raiseBit_epoch (k : Nat) : (raiseBit k s).epoch = s.epoch := rfl

/-! ### storeSlot -/

@[simp] theorem storeSlot_cmd (p : Space) (n : Nat) (r : ImageReg) : (storeSlot p n r s).cmd = s.cmd := rfl
@[simp] theorem storeSlot_ops (p : Space) (n : Nat) (r : ImageReg) : (storeSlot p n r s).ops = s.ops := rfl
@[simp] theorem storeSlot_inp (p : Space) (n : Nat) (r : ImageReg) : (storeSlot p n r s).inp = s.inp := rfl
@[simp] theorem storeSlot_res (p : Space) (n : Nat) (r : ImageReg) : (storeSlot p n r s).res = s.res := rfl
@[simp] theorem storeSlot_ctl (p : Space) (n : Nat) (r : ImageReg) : (storeSlot p n r s).ctl = s.ctl := rfl
@[simp] theorem storeSlot_hid (p : Space) (n : Nat) (r : ImageReg) : (storeSlot p n r s).hid = s.hid := rfl
@[simp] theorem storeSlot_msg (p : Space) (n : Nat) (r : ImageReg) : (storeSlot p n r s).msg = s.msg := rfl
@[simp] theorem storeSlot_mem (p : Space) (n : Nat) (r : ImageReg) : (storeSlot p n r s).mem = Memory.setList s.mem (SlotAddr.key ⟨p, n, 0⟩) (imageBytes s.cfg.layout r) := rfl
@[simp] theorem storeSlot_trace (p : Space) (n : Nat) (r : ImageReg) : (storeSlot p n r s).trace = s.trace := rfl
@[simp] theorem storeSlot_cfg (p : Space) (n : Nat) (r : ImageReg) : (storeSlot p n r s).cfg = s.cfg := rfl
@[simp] theorem storeSlot_agenda (p : Space) (n : Nat) (r : ImageReg) : (storeSlot p n r s).agenda = s.agenda := rfl
@[simp] theorem storeSlot_gaps (p : Space) (n : Nat) (r : ImageReg) : (storeSlot p n r s).gaps = s.gaps := rfl
@[simp] theorem storeSlot_epoch (p : Space) (n : Nat) (r : ImageReg) : (storeSlot p n r s).epoch = s.epoch := rfl

/-! ### enterInterrupt -/

@[simp] theorem enterInterrupt_cmd : (enterInterrupt s).cmd = s.cmd := rfl
@[simp] theorem enterInterrupt_ops : (enterInterrupt s).ops = s.ops := rfl
@[simp] theorem enterInterrupt_inp : (enterInterrupt s).inp = s.inp := rfl
@[simp] theorem enterInterrupt_res : (enterInterrupt s).res = s.res := rfl
@[simp] theorem enterInterrupt_ctl : (enterInterrupt s).ctl = s.ctl := rfl
@[simp] theorem enterInterrupt_hid : (enterInterrupt s).hid = { s.hid with dstate := .active, snap := s.ctl.status } := rfl
@[simp] theorem enterInterrupt_msg : (enterInterrupt s).msg = s.msg := rfl
@[simp] theorem enterInterrupt_mem : (enterInterrupt s).mem = s.mem := rfl
@[simp] theorem enterInterrupt_trace : (enterInterrupt s).trace = s.trace := rfl
@[simp] theorem enterInterrupt_cfg : (enterInterrupt s).cfg = s.cfg := rfl
@[simp] theorem enterInterrupt_agenda : (enterInterrupt s).agenda = s.agenda := rfl
@[simp] theorem enterInterrupt_gaps : (enterInterrupt s).gaps = s.gaps := rfl
@[simp] theorem enterInterrupt_epoch : (enterInterrupt s).epoch = s.epoch := rfl

/-! ### returnInterrupt -/

@[simp] theorem returnInterrupt_cmd : (returnInterrupt s).cmd = s.cmd := rfl
@[simp] theorem returnInterrupt_ops : (returnInterrupt s).ops = s.ops := rfl
@[simp] theorem returnInterrupt_inp : (returnInterrupt s).inp = s.inp := rfl
@[simp] theorem returnInterrupt_res : (returnInterrupt s).res = s.res := rfl
@[simp] theorem returnInterrupt_ctl : (returnInterrupt s).ctl = { s.ctl with status := 0 } := rfl
@[simp] theorem returnInterrupt_hid : (returnInterrupt s).hid = { s.hid with dstate := .idle } := rfl
@[simp] theorem returnInterrupt_msg : (returnInterrupt s).msg = s.msg := rfl
@[simp] theorem returnInterrupt_mem : (returnInterrupt s).mem = s.mem := rfl
@[simp] theorem returnInterrupt_trace : (returnInterrupt s).trace = s.trace := rfl
@[simp] theorem returnInterrupt_cfg : (returnInterrupt s).cfg = s.cfg := rfl
@[simp] theorem returnInterrupt_agenda : (returnInterrupt s).agenda = s.agenda := rfl
@[simp] theorem returnInterrupt_gaps : (returnInterrupt s).gaps = s.gaps := rfl
@[simp] theorem returnInterrupt_epoch : (returnInterrupt s).epoch = s.epoch := rfl

/-! ### controllerReset -/

@[simp] theorem controllerReset_cmd : (controllerReset s).cmd = s.cmd := rfl
@[simp] theorem controllerReset_ops : (controllerReset s).ops = s.ops := rfl
@[simp] theorem controllerReset_inp : (controllerReset s).inp = s.inp := rfl
@[simp] theorem controllerReset_res : (controllerReset s).res = s.res := rfl
@[simp] theorem controllerReset_ctl : (controllerReset s).ctl = ControlRegs.reset := rfl
@[simp] theorem controllerReset_hid : (controllerReset s).hid = { s.hid with dstate := .idle } := rfl
@[simp] theorem controllerReset_msg : (controllerReset s).msg = s.msg := rfl
@[simp] theorem controllerReset_mem : (controllerReset s).mem = s.mem := rfl
@[simp] theorem controllerReset_trace : (controllerReset s).trace = traceXcvrOff s := rfl
@[simp] theorem controllerReset_cfg : (controllerReset s).cfg = s.cfg := rfl
@[simp] theorem controllerReset_agenda : (controllerReset s).agenda = s.agenda := rfl
@[simp] theorem controllerReset_gaps : (controllerReset s).gaps = s.gaps := rfl
@[simp] theorem controllerReset_epoch : (controllerReset s).epoch = s.epoch := rfl

/-! ### configureBuffers -/

@[simp] theorem configureBuffers_cmd : (configureBuffers s).cmd = s.cmd := rfl
@[simp] theorem configureBuffers_ops : (configureBuffers s).ops = s.ops := rfl
@[simp] theorem configureBuffers_inp : (configureBuffers s).inp = s.inp := rfl
@[simp] theorem configureBuffers_res : (configureBuffers s).res = s.res := rfl
@[simp] theorem configureBuffers_hid : (configureBuffers s).hid = s.hid := rfl
@[simp] theorem configureBuffers_msg : (configureBuffers s).msg = s.msg := rfl
@[simp] theorem configureBuffers_mem : (configureBuffers s).mem = s.mem := rfl
@[simp] theorem configureBuffers_trace : (configureBuffers s).trace = s.trace := rfl
@[simp] theorem configureBuffers_cfg : (configureBuffers s).cfg = s.cfg := rfl
@[simp] theorem configureBuffers_agenda : (configureBuffers s).agenda = s.agenda := rfl
@[simp] theorem configureBuffers_gaps : (configureBuffers s).gaps = s.gaps := rfl
@[simp] theorem configureBuffers_epoch : (configureBuffers s).epoch = s.epoch := rfl

/-! ### countEvents -/

@[simp] theorem countEvents_cmd : (countEvents s).cmd = s.cmd := rfl
@[simp] theorem countEvents_ops : (countEvents s).ops = s.ops := rfl
@[simp] theorem countEvents_inp : (countEvents s).inp = s.inp := rfl
@[simp] theorem countEvents_res : (countEvents s).res = s.res := rfl
@[simp] theorem countEvents_hid : (countEvents s).hid = s.hid := rfl
@[simp] theorem countEvents_msg : (countEvents s).msg = s.msg := rfl
@[simp] theorem countEvents_mem : (countEvents s).mem = s.mem := rfl
@[simp] theorem countEvents_trace : (countEvents s).trace = s.trace := rfl
@[simp] theorem countEvents_cfg : (countEvents s).cfg = s.cfg := rfl
@[simp] theorem countEvents_agenda : (countEvents s).agenda = s.agenda := rfl
@[simp] theorem countEvents_gaps : (countEvents s).gaps = s.gaps := rfl
@[simp] theorem countEvents_epoch : (countEvents s).epoch = s.epoch := rfl

/-! ### answerSome -/

@[simp] theorem answerSome_cmd (i : Nat) : (answerSome i s).cmd = s.cmd := rfl
@[simp] theorem answerSome_ops (i : Nat) : (answerSome i s).ops = s.ops := rfl
@[simp] theorem answerSome_inp (i : Nat) : (answerSome i s).inp = s.inp := rfl
@[simp] theorem answerSome_res (i : Nat) : (answerSome i s).res = { s.res with some := true, idx := BitVec.ofNat 4 i } := rfl
@[simp] theorem answerSome_ctl (i : Nat) : (answerSome i s).ctl = s.ctl := rfl
@[simp] theorem answerSome_hid (i : Nat) : (answerSome i s).hid = s.hid := rfl
@[simp] theorem answerSome_msg (i : Nat) : (answerSome i s).msg = s.msg := rfl
@[simp] theorem answerSome_mem (i : Nat) : (answerSome i s).mem = s.mem := rfl
@[simp] theorem answerSome_trace (i : Nat) : (answerSome i s).trace = s.trace := rfl
@[simp] theorem answerSome_cfg (i : Nat) : (answerSome i s).cfg = s.cfg := rfl
@[simp] theorem answerSome_agenda (i : Nat) : (answerSome i s).agenda = s.agenda := rfl
@[simp] theorem answerSome_gaps (i : Nat) : (answerSome i s).gaps = s.gaps := rfl
@[simp] theorem answerSome_epoch (i : Nat) : (answerSome i s).epoch = s.epoch := rfl

/-! ### answerNone -/

@[simp] theorem answerNone_cmd : (answerNone s).cmd = s.cmd := rfl
@[simp] theorem answerNone_ops : (answerNone s).ops = s.ops := rfl
@[simp] theorem answerNone_inp : (answerNone s).inp = s.inp := rfl
@[simp] theorem answerNone_res : (answerNone s).res = { s.res with some := false } := rfl
@[simp] theorem answerNone_ctl : (answerNone s).ctl = s.ctl := rfl
@[simp] theorem answerNone_hid : (answerNone s).hid = s.hid := rfl
@[simp] theorem answerNone_msg : (answerNone s).msg = s.msg := rfl
@[simp] theorem answerNone_mem : (answerNone s).mem = s.mem := rfl
@[simp] theorem answerNone_trace : (answerNone s).trace = s.trace := rfl
@[simp] theorem answerNone_cfg : (answerNone s).cfg = s.cfg := rfl
@[simp] theorem answerNone_agenda : (answerNone s).agenda = s.agenda := rfl
@[simp] theorem answerNone_gaps : (answerNone s).gaps = s.gaps := rfl
@[simp] theorem answerNone_epoch : (answerNone s).epoch = s.epoch := rfl

/-! ### writeTiming -/

@[simp] theorem writeTiming_cmd (f : TimingFields) : (writeTiming f s).cmd = s.cmd := rfl
@[simp] theorem writeTiming_ops (f : TimingFields) : (writeTiming f s).ops = s.ops := rfl
@[simp] theorem writeTiming_inp (f : TimingFields) : (writeTiming f s).inp = s.inp := rfl
@[simp] theorem writeTiming_ctl (f : TimingFields) : (writeTiming f s).ctl = s.ctl := rfl
@[simp] theorem writeTiming_hid (f : TimingFields) : (writeTiming f s).hid = s.hid := rfl
@[simp] theorem writeTiming_msg (f : TimingFields) : (writeTiming f s).msg = s.msg := rfl
@[simp] theorem writeTiming_mem (f : TimingFields) : (writeTiming f s).mem = s.mem := rfl
@[simp] theorem writeTiming_trace (f : TimingFields) : (writeTiming f s).trace = s.trace := rfl
@[simp] theorem writeTiming_cfg (f : TimingFields) : (writeTiming f s).cfg = s.cfg := rfl
@[simp] theorem writeTiming_agenda (f : TimingFields) : (writeTiming f s).agenda = s.agenda := rfl
@[simp] theorem writeTiming_gaps (f : TimingFields) : (writeTiming f s).gaps = s.gaps := rfl
@[simp] theorem writeTiming_epoch (f : TimingFields) : (writeTiming f s).epoch = s.epoch := rfl

/-! ### writeImage -/

@[simp] theorem writeImage_cmd (r : Bool) (d : Nat) (b : List Byte) : (writeImage r d b s).cmd = s.cmd := rfl
@[simp] theorem writeImage_ops (r : Bool) (d : Nat) (b : List Byte) : (writeImage r d b s).ops = s.ops := rfl
@[simp] theorem writeImage_inp (r : Bool) (d : Nat) (b : List Byte) : (writeImage r d b s).inp = s.inp := rfl
@[simp] theorem writeImage_res (r : Bool) (d : Nat) (b : List Byte) : (writeImage r d b s).res = imageResult s.cfg.layout s.ops.id s.ops.ext r d b s.res := rfl
@[simp] theorem writeImage_ctl (r : Bool) (d : Nat) (b : List Byte) : (writeImage r d b s).ctl = s.ctl := rfl
@[simp] theorem writeImage_hid (r : Bool) (d : Nat) (b : List Byte) : (writeImage r d b s).hid = s.hid := rfl
@[simp] theorem writeImage_msg (r : Bool) (d : Nat) (b : List Byte) : (writeImage r d b s).msg = s.msg := rfl
@[simp] theorem writeImage_mem (r : Bool) (d : Nat) (b : List Byte) : (writeImage r d b s).mem = s.mem := rfl
@[simp] theorem writeImage_trace (r : Bool) (d : Nat) (b : List Byte) : (writeImage r d b s).trace = s.trace := rfl
@[simp] theorem writeImage_cfg (r : Bool) (d : Nat) (b : List Byte) : (writeImage r d b s).cfg = s.cfg := rfl
@[simp] theorem writeImage_agenda (r : Bool) (d : Nat) (b : List Byte) : (writeImage r d b s).agenda = s.agenda := rfl
@[simp] theorem writeImage_gaps (r : Bool) (d : Nat) (b : List Byte) : (writeImage r d b s).gaps = s.gaps := rfl
@[simp] theorem writeImage_epoch (r : Bool) (d : Nat) (b : List Byte) : (writeImage r d b s).epoch = s.epoch := rfl

/-! ### writeMessage -/

@[simp] theorem writeMessage_cmd (m : Message) : (writeMessage m s).cmd = s.cmd := rfl
@[simp] theorem writeMessage_ops (m : Message) : (writeMessage m s).ops = s.ops := rfl
@[simp] theorem writeMessage_inp (m : Message) : (writeMessage m s).inp = s.inp := rfl
@[simp] theorem writeMessage_ctl (m : Message) : (writeMessage m s).ctl = s.ctl := rfl
@[simp] theorem writeMessage_hid (m : Message) : (writeMessage m s).hid = s.hid := rfl
@[simp] theorem writeMessage_msg (m : Message) : (writeMessage m s).msg = s.msg := rfl
@[simp] theorem writeMessage_mem (m : Message) : (writeMessage m s).mem = s.mem := rfl
@[simp] theorem writeMessage_trace (m : Message) : (writeMessage m s).trace = s.trace := rfl
@[simp] theorem writeMessage_cfg (m : Message) : (writeMessage m s).cfg = s.cfg := rfl
@[simp] theorem writeMessage_agenda (m : Message) : (writeMessage m s).agenda = s.agenda := rfl
@[simp] theorem writeMessage_gaps (m : Message) : (writeMessage m s).gaps = s.gaps := rfl
@[simp] theorem writeMessage_epoch (m : Message) : (writeMessage m s).epoch = s.epoch := rfl

/-! ### latchMessage -/

@[simp] theorem latchMessage_cmd (m : Message) : (latchMessage m s).cmd = s.cmd := rfl
@[simp] theorem latchMessage_ops (m : Message) : (latchMessage m s).ops = s.ops := rfl
@[simp] theorem latchMessage_inp (m : Message) : (latchMessage m s).inp = s.inp := rfl
@[simp] theorem latchMessage_res (m : Message) : (latchMessage m s).res = s.res := rfl
@[simp] theorem latchMessage_ctl (m : Message) : (latchMessage m s).ctl = s.ctl := rfl
@[simp] theorem latchMessage_hid (m : Message) : (latchMessage m s).hid = s.hid := rfl
@[simp] theorem latchMessage_mem (m : Message) : (latchMessage m s).mem = s.mem := rfl
@[simp] theorem latchMessage_trace (m : Message) : (latchMessage m s).trace = s.trace := rfl
@[simp] theorem latchMessage_cfg (m : Message) : (latchMessage m s).cfg = s.cfg := rfl
@[simp] theorem latchMessage_agenda (m : Message) : (latchMessage m s).agenda = s.agenda := rfl
@[simp] theorem latchMessage_gaps (m : Message) : (latchMessage m s).gaps = s.gaps := rfl
@[simp] theorem latchMessage_epoch (m : Message) : (latchMessage m s).epoch = s.epoch := rfl

/-! ### The control registers that a long update leaves alone -/

@[simp] theorem configureBuffers_ctl_mode : (configureBuffers s).ctl.mode = s.ctl.mode := rfl
@[simp] theorem configureBuffers_ctl_txReq : (configureBuffers s).ctl.txReq = s.ctl.txReq := rfl
@[simp] theorem configureBuffers_ctl_btr : (configureBuffers s).ctl.btr = s.ctl.btr := rfl
@[simp] theorem configureBuffers_ctl_status : (configureBuffers s).ctl.status = s.ctl.status := rfl
@[simp] theorem configureBuffers_ctl_errCnt : (configureBuffers s).ctl.errCnt = s.ctl.errCnt := rfl
@[simp] theorem configureBuffers_ctl_ovfCnt : (configureBuffers s).ctl.ovfCnt = s.ctl.ovfCnt := rfl
@[simp] theorem configureBuffers_ctl_wakeCnt : (configureBuffers s).ctl.wakeCnt = s.ctl.wakeCnt := rfl
@[simp] theorem configureBuffers_ctl_tec : (configureBuffers s).ctl.tec = s.ctl.tec := rfl
@[simp] theorem configureBuffers_ctl_recv : (configureBuffers s).ctl.recv = s.ctl.recv := rfl
@[simp] theorem configureBuffers_ctl_xcvrEn : (configureBuffers s).ctl.xcvrEn = s.ctl.xcvrEn := rfl
@[simp] theorem countEvents_ctl_mode : (countEvents s).ctl.mode = s.ctl.mode := rfl
@[simp] theorem countEvents_ctl_txn : (countEvents s).ctl.txn = s.ctl.txn := rfl
@[simp] theorem countEvents_ctl_rxn : (countEvents s).ctl.rxn = s.ctl.rxn := rfl
@[simp] theorem countEvents_ctl_hnd : (countEvents s).ctl.hnd = s.ctl.hnd := rfl
@[simp] theorem countEvents_ctl_freeMask : (countEvents s).ctl.freeMask = s.ctl.freeMask := rfl
@[simp] theorem countEvents_ctl_txReq : (countEvents s).ctl.txReq = s.ctl.txReq := rfl
@[simp] theorem countEvents_ctl_rxArmed : (countEvents s).ctl.rxArmed = s.ctl.rxArmed := rfl
@[simp] theorem countEvents_ctl_btr : (countEvents s).ctl.btr = s.ctl.btr := rfl
@[simp] theorem countEvents_ctl_status : (countEvents s).ctl.status = s.ctl.status := rfl
@[simp] theorem countEvents_ctl_ie : (countEvents s).ctl.ie = s.ctl.ie := rfl
@[simp] theorem countEvents_ctl_tec : (countEvents s).ctl.tec = s.ctl.tec := rfl
@[simp] theorem countEvents_ctl_recv : (countEvents s).ctl.recv = s.ctl.recv := rfl
@[simp] theorem countEvents_ctl_xcvrEn : (countEvents s).ctl.xcvrEn = s.ctl.xcvrEn := rfl

/-! ### The map under an update of other registers -/

theorem irqBits_congr {s t : State} (hc : t.cfg = s.cfg) (ht : t.ctl.txn = s.ctl.txn) (hr : t.ctl.rxn = s.ctl.rxn) :
    t.irqBits = s.irqBits := by
  simp only [State.irqBits, hc, ht, hr]

end Sys2Proof.Machine
end

