-- ==== Sys2Proof/Laws/Bits.lean ====
section
/-! SUPPORT. What the bit operations do to each bit of a register (R11, R77), and when a result goes on. -/

namespace Sys2Proof.Machine

/-- `bit_modify` takes the masked bits of the value and keeps the others. -/
theorem getLsbD_bitModify {w : Nat} (v mask value : BitVec w) (k : Nat) :
    (bitModify v mask value).getLsbD k = if mask.getLsbD k then value.getLsbD k else v.getLsbD k := by
  unfold bitModify
  simp only [BitVec.getLsbD_or, BitVec.getLsbD_and, BitVec.getLsbD_not]
  by_cases hk : k < w
  · cases mask.getLsbD k <;> simp [hk]
  · simp [BitVec.getLsbD_of_ge _ _ (Nat.le_of_not_lt hk)]

theorem getLsbD_bitMask (w k j : Nat) : (bitMask w k).getLsbD j = (decide (j < w) && decide (j = k)) := by
  unfold bitMask
  simp only [BitVec.getLsbD_shiftLeft, BitVec.getLsbD_one]
  by_cases hj : j < w <;> by_cases hk : j = k <;> simp [hj, hk] <;> omega

/-- `NAME[k] <- 1` sets bit `k`, if there is one, and no other. -/
@[simp] theorem getLsbD_setBit {w : Nat} (v : BitVec w) (k j : Nat) :
    (setBit v k).getLsbD j = (v.getLsbD j || (decide (j < w) && decide (j = k))) := by
  unfold setBit
  rw [getLsbD_bitModify, getLsbD_bitMask]
  cases (decide (j < w) && decide (j = k)) <;> simp

/-- `NAME[k] <- 0` clears bit `k` and no other. -/
@[simp] theorem getLsbD_clearBit {w : Nat} (v : BitVec w) (k j : Nat) :
    (clearBit v k).getLsbD j = (v.getLsbD j && !decide (j = k)) := by
  unfold clearBit
  rw [getLsbD_bitModify, getLsbD_bitMask]
  by_cases hj : j < w
  · by_cases hk : j = k
    · subst hk; simp [hj]
    · simp [hj, hk]
  · simp [BitVec.getLsbD_of_ge _ _ (Nat.le_of_not_lt hj)]

/-- `2^n - 1` has exactly bits `0 .. n-1`. -/
@[simp] theorem getLsbD_lowMask (n k : Nat) : (lowMask n).getLsbD k = (decide (k < 8) && decide (k < n)) := by
  unfold lowMask
  simp only [BitVec.getLsbD_ofNat, Nat.testBit_two_pow_sub_one]

/-- The word of a list of bits has exactly those below 32. -/
theorem getLsbD_foldl_setBit (ks : List Nat) (v : Word) (j : Nat) :
    (ks.foldl setBit v).getLsbD j = (v.getLsbD j || (decide (j < 32) && ks.contains j)) := by
  induction ks generalizing v with
  | nil => simp
  | cons k rest ih =>
    rw [List.foldl_cons, ih, getLsbD_setBit]
    by_cases hj : j < 32
    · by_cases hk : j = k
      · subst hk; simp [hj]
      · simp [hj, hk]
    · simp [hj]

@[simp] theorem getLsbD_bitsWord (ks : List Nat) (j : Nat) :
    (bitsWord ks).getLsbD j = (decide (j < 32) && ks.contains j) := by
  unfold bitsWord
  rw [getLsbD_foldl_setBit]
  simp

/-! ### Sequencing -/

@[simp] theorem andThen_next (s : State) (f : State → Out) : andThen (.next s) f = f s := rfl
@[simp] theorem andThen_fault (r : Fault) (f : State → Out) : andThen (.fault r) f = .fault r := rfl
@[simp] theorem andThen_refused (r : Refusal) (f : State → Out) : andThen (.refused r) f = .refused r := rfl

/-- A sequence answers a next state exactly if its first part does and the rest does from there. -/
theorem andThen_eq_next {o : Out} {f : State → Out} {t : State} :
    andThen o f = .next t ↔ ∃ s, o = .next s ∧ f s = .next t := by
  cases o <;> simp [andThen]

theorem andThen_assoc (o : Out) (f g : State → Out) :
    andThen (andThen o f) g = andThen o fun s => andThen (f s) g := by
  cases o <;> rfl

end Sys2Proof.Machine
end

