-- ==== Sys2Proof/Laws/Memory.lean ====
section
/-! SUPPORT. The laws of the slot memory: a read after a write, the canonical form, and which accesses are admitted. -/

namespace Sys2Proof.Machine

/-! ### One byte -/

theorem Memory.get_set_same (m : List Host.Cell) (k : Nat) (b : Byte) : Memory.get (Memory.set m k b) k = some b := by
  induction m with
  | nil => simp [Memory.set, Memory.get]
  | cons c cs ih =>
    unfold Memory.set
    split
    · simp [Memory.get]
    · split
      · simp [Memory.get]
      · rename_i h1 h2
        rw [Memory.get, if_neg (by omega)]
        exact ih

theorem Memory.get_set_other (m : List Host.Cell) {k j : Nat} (b : Byte) (h : j ≠ k) :
    Memory.get (Memory.set m k b) j = Memory.get m j := by
  induction m with
  | nil => simp [Memory.set, Memory.get]; omega
  | cons c cs ih =>
    unfold Memory.set
    split
    · rw [Memory.get, if_neg (by simpa using h.symm)]
    · split
      · rename_i h1 h2
        rw [Memory.get, if_neg (by simpa using h.symm), Memory.get, if_neg (by omega)]
      · rw [Memory.get, Memory.get, ih]

/-- What a place holds after a write of one byte. -/
theorem Memory.get_set (m : List Host.Cell) (k j : Nat) (b : Byte) :
    Memory.get (Memory.set m k b) j = if j = k then some b else Memory.get m j := by
  split
  · rename_i h; subst h; exact Memory.get_set_same m j b
  · rename_i h; exact Memory.get_set_other m b h

/-! ### A run of bytes -/

/-- What a place holds after a write of a run of bytes at `k`. -/
theorem Memory.get_setList (m : List Host.Cell) (k j : Nat) (bs : List Byte) :
    Memory.get (Memory.setList m k bs) j =
      if k ≤ j ∧ j < k + bs.length then bs[j - k]? else Memory.get m j := by
  induction bs generalizing m k with
  | nil => simp [Memory.setList]
  | cons b rest ih =>
    rw [Memory.setList, ih, Memory.get_set]
    simp only [List.length_cons]
    by_cases h1 : k + 1 ≤ j ∧ j < k + 1 + rest.length
    · rw [if_pos h1, if_pos (by omega)]
      obtain ⟨d, hd⟩ : ∃ d, j - k = d + 1 := ⟨j - k - 1, by omega⟩
      rw [hd, List.getElem?_cons_succ, show j - (k + 1) = d by omega]
    · rw [if_neg h1]
      by_cases h2 : j = k
      · subst h2; simp
      · rw [if_neg h2, if_neg (by omega)]

/-! ### The canonical form -/

theorem Memory.wf_cons (c : Host.Cell) (cs : List Host.Cell) :
    Memory.wf (c :: cs) = true ↔ (∀ d ∈ cs, c.1 < d.1) ∧ Memory.wf cs = true := by
  simp [Memory.wf]

/-- Every cell after a write is an old one or the written one. -/
theorem Memory.mem_set {m : List Host.Cell} {k : Nat} {b : Byte} {c : Host.Cell} (h : c ∈ Memory.set m k b) :
    c ∈ m ∨ c = (k, b) := by
  induction m with
  | nil => simp [Memory.set] at h; exact .inr h
  | cons d ds ih =>
    unfold Memory.set at h
    split at h
    · simp only [List.mem_cons] at h ⊢; tauto
    · split at h
      · simp only [List.mem_cons] at h ⊢; tauto
      · simp only [List.mem_cons] at h ⊢
        rcases h with h | h
        · exact .inl (.inl h)
        · rcases ih h with h | h <;> tauto

theorem Memory.wf_set {m : List Host.Cell} (k : Nat) (b : Byte) (h : Memory.wf m = true) :
    Memory.wf (Memory.set m k b) = true := by
  induction m with
  | nil => rfl
  | cons c cs ih =>
    obtain ⟨hlt, hcs⟩ := (Memory.wf_cons c cs).1 h
    unfold Memory.set
    split
    · rename_i hk
      refine (Memory.wf_cons _ _).2 ⟨?_, h⟩
      intro d hd
      rcases List.mem_cons.1 hd with rfl | hd
      · exact hk
      · exact Nat.lt_trans hk (hlt d hd)
    · split
      · rename_i h1 h2
        exact (Memory.wf_cons _ _).2 ⟨fun d hd => by simpa [h2] using hlt d hd, hcs⟩
      · rename_i h1 h2
        refine (Memory.wf_cons _ _).2 ⟨?_, ih hcs⟩
        intro d hd
        rcases Memory.mem_set hd with hd | rfl
        · exact hlt d hd
        · show c.1 < k; omega

/-- Every memory operation keeps the canonical form. -/
theorem Memory.wf_setList {m : List Host.Cell} (k : Nat) (bs : List Byte) (h : Memory.wf m = true) :
    Memory.wf (Memory.setList m k bs) = true := by
  induction bs generalizing m k with
  | nil => exact h
  | cons b rest ih => exact ih (k + 1) (Memory.wf_set k b h)

/-- Every cell after a write of a run is an old one or has a key in the run. -/
theorem Memory.mem_setList {m : List Host.Cell} {k : Nat} {bs : List Byte} {c : Host.Cell}
    (h : c ∈ Memory.setList m k bs) : c ∈ m ∨ (k ≤ c.1 ∧ c.1 < k + bs.length) := by
  induction bs generalizing m k with
  | nil => exact .inl h
  | cons b rest ih =>
    rcases ih h with h | h
    · rcases Memory.mem_set h with h | rfl
      · exact .inl h
      · exact .inr (by simp)
    · exact .inr (by simp only [List.length_cons]; omega)

/-! ### Slots -/

/-- Places of different slots differ. -/
theorem SlotAddr.key_inj {a b : SlotAddr} (ha : a.slot < 8) (hb : b.slot < 8) (hao : a.offset < 16)
    (hbo : b.offset < 16) (h : a.key = b.key) : a = b := by
  obtain ⟨sa, na, oa⟩ := a
  obtain ⟨sb, nb, ob⟩ := b
  cases sa <;> cases sb <;> simp [SlotAddr.key] at * <;> omega

/-- A run that R67 admits lies in existing places. -/
theorem keyExists_of_admitted {l : Layout} {a : SlotAddr} {n d : Nat} (h : admitted l a n = true) (hd : d < n) :
    keyExists l (a.key + d) = true := by
  obtain ⟨sp, n', o⟩ := a
  cases l <;> cases sp <;>
    simp only [admitted, keyExists, imgBytes, SlotAddr.key, Bool.and_eq_true, decide_eq_true_eq] at * <;>
    exact ⟨decide_eq_true (by omega), decide_eq_true (by omega)⟩

/-- What `memWrite` can do: it stores the bytes where the access is admitted, and changes nothing else. -/
theorem memWrite_eq_next {a : SlotAddr} {v : List Byte} {s t : State} (h : memWrite a v s = .next t) :
    admitted s.cfg.layout a v.length = true ∧ t = { s with mem := Memory.setList s.mem a.key v } := by
  unfold memWrite at h
  split at h
  · rename_i ha
    cases h
    exact ⟨ha, rfl⟩
  · cases h

/-- What `memRead` answers where the access is admitted. -/
theorem memRead_of_admitted {s : State} {a : SlotAddr} {n : Nat} (h : admitted s.cfg.layout a n = true) :
    memRead s a n = .ok ((List.range n).map fun d => readByte s (a.key + d)) := by
  simp [memRead, h]

/-- What `memRead` answers elsewhere (R67, U23). -/
theorem memRead_of_not_admitted {s : State} {a : SlotAddr} {n : Nat} (h : admitted s.cfg.layout a n = false) :
    memRead s a n = .error .slotAccessNotAdmitted := by
  simp [memRead, h]

theorem memWrite_of_admitted {s : State} {a : SlotAddr} {v : List Byte} (h : admitted s.cfg.layout a v.length = true) :
    memWrite a v s = .next { s with mem := Memory.setList s.mem a.key v } := by
  simp [memWrite, h]

theorem memWrite_of_not_admitted {s : State} {a : SlotAddr} {v : List Byte}
    (h : admitted s.cfg.layout a v.length = false) : memWrite a v s = .refused .slotAccessNotAdmitted := by
  simp [memWrite, h]

/-- An admitted access from offset 0 stays inside the slot. -/
theorem length_le_of_admitted {l : Layout} {sp : Space} {i n : Nat} (h : admitted l ⟨sp, i, 0⟩ n = true) :
    n ≤ imgBytes l := by
  cases l <;> simp only [admitted, imgBytes, Bool.and_eq_true, decide_eq_true_eq] at * <;> omega

theorem wordBytes_length (w : Word) : (wordBytes w).length = 4 := rfl

/-- The bytes of a carrier fill the slot. -/
theorem imageBytes_length (l : Layout) (r : ImageReg) : (imageBytes l r).length = imgBytes l := by
  cases l
  · simp [imageBytes, imgBytes]
  · simp [imageBytes, imgBytes, wordBytes_length, List.length_flatMap]

end Sys2Proof.Machine
end

