-- ==== Sys2Proof/Laws/Backend.lean ====
section
/-! SUPPORT. What one move of the backend agent can do (R236 to R241): the parts of the state it never touches, and its
effect on each part it may touch. -/

namespace Sys2Proof.Machine

/-- One inversion of every backend move: the state is unchanged, or one of the moves of R236 to R241 with its
precondition. -/
theorem backendMove_cases (m : BackendMove) (s : State) :
    backendMove m s = s ∨
    (∃ i : Fin 8, m = .complete i ∧ s.ctl.txReq.getLsbD i = true ∧
      backendMove m s = raiseBit (txBit s i) { s with ctl := { s.ctl with txReq := clearBit s.ctl.txReq i } }) ∨
    (∃ (j : Fin 8) (raw : ImageReg), m = .deliver j raw ∧ j.val < s.ctl.rxn.val ∧ s.ctl.rxArmed.getLsbD j = true ∧
      (s.ctl.mode = .normal ∨ s.ctl.mode = .listenOnly) ∧
      backendMove m s = raiseBit (rxBit s j)
        (storeSlot .RXS j raw { s with ctl := { s.ctl with rxArmed := clearBit s.ctl.rxArmed j } })) ∨
    (m = .busError ∧ backendMove m s = raiseBit s.irqBits.err s) ∨
    (m = .overflow ∧ s.ctl.rxArmed &&& lowMask s.ctl.rxn.val = 0 ∧ backendMove m s = raiseBit s.irqBits.ovf s) ∨
    (∃ a b : Byte, m = .counters a b ∧ backendMove m s = { s with ctl := { s.ctl with tec := a, recv := b } }) ∨
    (m = .wake ∧ s.ctl.mode = .sleep ∧ backendMove m s = raiseBit s.irqBits.wake (setMode .listenOnly s)) ∨
    (∃ (rb : BitVec 4) (ac : Bool), m = .verdicts rb ac ∧ backendMove m s = { s with inp := ⟨rb, ac⟩ }) ∨
    (∃ bits : Word, m = .raiseStatus bits ∧
      backendMove m s = { s with ctl := { s.ctl with status := s.ctl.status ||| bits } }) ∨
    (∃ (sp : Space) (n : Fin 8) (raw : ImageReg), m = .fillSlot sp n raw ∧ backendMove m s = storeSlot sp n raw s) := by
  cases m with
  | complete i =>
    by_cases h : s.ctl.txReq.getLsbD i = true
    · exact .inr (.inl ⟨i, rfl, h, by simp only [backendMove, backendComplete, h, if_true]⟩)
    · exact .inl (by simp only [backendMove, backendComplete, h]; rfl)
  | deliver j raw =>
    by_cases h : canDeliver j s = true
    · refine .inr (.inr (.inl ⟨j, raw, rfl, ?_⟩))
      have hm : backendMove (.deliver j raw) s = raiseBit (rxBit s j)
          (storeSlot .RXS j raw { s with ctl := { s.ctl with rxArmed := clearBit s.ctl.rxArmed j } }) := by
        simp only [backendMove, backendDeliver, h, if_true]
      simp only [canDeliver, Bool.and_eq_true, decide_eq_true_eq, Bool.or_eq_true, beq_iff_eq] at h
      exact ⟨h.1.1, h.1.2, h.2, hm⟩
    · exact .inl (by simp only [backendMove, backendDeliver, h]; rfl)
  | busError => exact .inr (.inr (.inr (.inl ⟨rfl, rfl⟩)))
  | overflow =>
    by_cases h : s.ctl.rxArmed &&& lowMask s.ctl.rxn.val = 0
    · exact .inr (.inr (.inr (.inr (.inl ⟨rfl, h, by simp only [backendMove, backendOverflow, h, if_true]⟩))))
    · exact .inl (by simp only [backendMove, backendOverflow, h, if_false])
  | counters a b => exact .inr (.inr (.inr (.inr (.inr (.inl ⟨a, b, rfl, rfl⟩)))))
  | wake =>
    by_cases h : s.ctl.mode = .sleep
    · exact .inr (.inr (.inr (.inr (.inr (.inr (.inl
        ⟨rfl, h, by simp only [backendMove, backendWake, h, if_true]⟩))))))
    · exact .inl (by simp only [backendMove, backendWake, h, if_false])
  | verdicts rb ac => exact .inr (.inr (.inr (.inr (.inr (.inr (.inr (.inl ⟨rb, ac, rfl, rfl⟩)))))))
  | raiseStatus bits => exact .inr (.inr (.inr (.inr (.inr (.inr (.inr (.inr (.inl ⟨bits, rfl, rfl⟩))))))))
  | fillSlot sp n raw => exact .inr (.inr (.inr (.inr (.inr (.inr (.inr (.inr (.inr ⟨sp, n, raw, rfl, rfl⟩))))))))

variable (m : BackendMove) (s : State)

/-! ### What no backend move touches -/

@[simp] theorem backendMove_cmd : (backendMove m s).cmd = s.cmd := by
  rcases backendMove_cases m s with h | ⟨_, _, _, h⟩ | ⟨_, _, _, _, _, _, h⟩ | ⟨_, h⟩ | ⟨_, _, h⟩ | ⟨_, _, _, h⟩ |
    ⟨_, _, h⟩ | ⟨_, _, _, h⟩ | ⟨_, _, h⟩ | ⟨_, _, _, _, h⟩ <;> rw [h] <;> rfl

@[simp] theorem backendMove_ops : (backendMove m s).ops = s.ops := by
  rcases backendMove_cases m s with h | ⟨_, _, _, h⟩ | ⟨_, _, _, _, _, _, h⟩ | ⟨_, h⟩ | ⟨_, _, h⟩ | ⟨_, _, _, h⟩ |
    ⟨_, _, h⟩ | ⟨_, _, _, h⟩ | ⟨_, _, h⟩ | ⟨_, _, _, _, h⟩ <;> rw [h] <;> rfl

@[simp] theorem backendMove_res : (backendMove m s).res = s.res := by
  rcases backendMove_cases m s with h | ⟨_, _, _, h⟩ | ⟨_, _, _, _, _, _, h⟩ | ⟨_, h⟩ | ⟨_, _, h⟩ | ⟨_, _, _, h⟩ |
    ⟨_, _, h⟩ | ⟨_, _, _, h⟩ | ⟨_, _, h⟩ | ⟨_, _, _, _, h⟩ <;> rw [h] <;> rfl

@[simp] theorem backendMove_hid : (backendMove m s).hid = s.hid := by
  rcases backendMove_cases m s with h | ⟨_, _, _, h⟩ | ⟨_, _, _, _, _, _, h⟩ | ⟨_, h⟩ | ⟨_, _, h⟩ | ⟨_, _, _, h⟩ |
    ⟨_, _, h⟩ | ⟨_, _, _, h⟩ | ⟨_, _, h⟩ | ⟨_, _, _, _, h⟩ <;> rw [h] <;> rfl

@[simp] theorem backendMove_msg : (backendMove m s).msg = s.msg := by
  rcases backendMove_cases m s with h | ⟨_, _, _, h⟩ | ⟨_, _, _, _, _, _, h⟩ | ⟨_, h⟩ | ⟨_, _, h⟩ | ⟨_, _, _, h⟩ |
    ⟨_, _, h⟩ | ⟨_, _, _, h⟩ | ⟨_, _, h⟩ | ⟨_, _, _, _, h⟩ <;> rw [h] <;> rfl

@[simp] theorem backendMove_trace : (backendMove m s).trace = s.trace := by
  rcases backendMove_cases m s with h | ⟨_, _, _, h⟩ | ⟨_, _, _, _, _, _, h⟩ | ⟨_, h⟩ | ⟨_, _, h⟩ | ⟨_, _, _, h⟩ |
    ⟨_, _, h⟩ | ⟨_, _, _, h⟩ | ⟨_, _, h⟩ | ⟨_, _, _, _, h⟩ <;> rw [h] <;> rfl

@[simp] theorem backendMove_cfg : (backendMove m s).cfg = s.cfg := by
  rcases backendMove_cases m s with h | ⟨_, _, _, h⟩ | ⟨_, _, _, _, _, _, h⟩ | ⟨_, h⟩ | ⟨_, _, h⟩ | ⟨_, _, _, h⟩ |
    ⟨_, _, h⟩ | ⟨_, _, _, h⟩ | ⟨_, _, h⟩ | ⟨_, _, _, _, h⟩ <;> rw [h] <;> rfl

@[simp] theorem backendMove_agenda : (backendMove m s).agenda = s.agenda := by
  rcases backendMove_cases m s with h | ⟨_, _, _, h⟩ | ⟨_, _, _, _, _, _, h⟩ | ⟨_, h⟩ | ⟨_, _, h⟩ | ⟨_, _, _, h⟩ |
    ⟨_, _, h⟩ | ⟨_, _, _, h⟩ | ⟨_, _, h⟩ | ⟨_, _, _, _, h⟩ <;> rw [h] <;> rfl

@[simp] theorem backendMove_gaps : (backendMove m s).gaps = s.gaps := by
  rcases backendMove_cases m s with h | ⟨_, _, _, h⟩ | ⟨_, _, _, _, _, _, h⟩ | ⟨_, h⟩ | ⟨_, _, h⟩ | ⟨_, _, _, h⟩ |
    ⟨_, _, h⟩ | ⟨_, _, _, h⟩ | ⟨_, _, h⟩ | ⟨_, _, _, _, h⟩ <;> rw [h] <;> rfl

@[simp] theorem backendMove_epoch : (backendMove m s).epoch = s.epoch := by
  rcases backendMove_cases m s with h | ⟨_, _, _, h⟩ | ⟨_, _, _, _, _, _, h⟩ | ⟨_, h⟩ | ⟨_, _, h⟩ | ⟨_, _, _, h⟩ |
    ⟨_, _, h⟩ | ⟨_, _, _, h⟩ | ⟨_, _, h⟩ | ⟨_, _, _, _, h⟩ <;> rw [h] <;> rfl

/-- The control registers that no backend move touches. -/
theorem backendMove_ctl_frame :
    (backendMove m s).ctl.txn = s.ctl.txn ∧ (backendMove m s).ctl.rxn = s.ctl.rxn ∧
    (backendMove m s).ctl.hnd = s.ctl.hnd ∧ (backendMove m s).ctl.freeMask = s.ctl.freeMask ∧
    (backendMove m s).ctl.btr = s.ctl.btr ∧ (backendMove m s).ctl.ie = s.ctl.ie ∧
    (backendMove m s).ctl.errCnt = s.ctl.errCnt ∧ (backendMove m s).ctl.ovfCnt = s.ctl.ovfCnt ∧
    (backendMove m s).ctl.wakeCnt = s.ctl.wakeCnt ∧ (backendMove m s).ctl.xcvrEn = s.ctl.xcvrEn := by
  rcases backendMove_cases m s with h | ⟨_, _, _, h⟩ | ⟨_, _, _, _, _, _, h⟩ | ⟨_, h⟩ | ⟨_, _, h⟩ | ⟨_, _, _, h⟩ |
    ⟨_, _, h⟩ | ⟨_, _, _, h⟩ | ⟨_, _, h⟩ | ⟨_, _, _, _, h⟩ <;> rw [h] <;>
    exact ⟨rfl, rfl, rfl, rfl, rfl, rfl, rfl, rfl, rfl, rfl⟩

@[simp] theorem backendMove_ctl_txn : (backendMove m s).ctl.txn = s.ctl.txn := (backendMove_ctl_frame m s).1
@[simp] theorem backendMove_ctl_rxn : (backendMove m s).ctl.rxn = s.ctl.rxn := (backendMove_ctl_frame m s).2.1
@[simp] theorem backendMove_ctl_freeMask : (backendMove m s).ctl.freeMask = s.ctl.freeMask :=
  (backendMove_ctl_frame m s).2.2.2.1
@[simp] theorem backendMove_ctl_btr : (backendMove m s).ctl.btr = s.ctl.btr :=
  (backendMove_ctl_frame m s).2.2.2.2.1

/-- `TXREQ` loses at most the bit of a completed buffer. -/
theorem backendMove_txReq (k : Nat) (hk : ∀ i : Fin 8, m = .complete i → i.val ≠ k) :
    (backendMove m s).ctl.txReq.getLsbD k = s.ctl.txReq.getLsbD k := by
  rcases backendMove_cases m s with h | ⟨i, hm, _, h⟩ | ⟨_, _, _, _, _, _, h⟩ | ⟨_, h⟩ | ⟨_, _, h⟩ | ⟨_, _, _, h⟩ |
    ⟨_, _, h⟩ | ⟨_, _, _, h⟩ | ⟨_, _, h⟩ | ⟨_, _, _, _, h⟩ <;> rw [h] <;> try rfl
  have hne : k ≠ i.val := fun e => hk i hm e.symm
  simp [hne]

/-- No backend move sets a bit of `TXREQ`. -/
theorem backendMove_txReq_le (k : Nat) (hk : s.ctl.txReq.getLsbD k = false) :
    (backendMove m s).ctl.txReq.getLsbD k = false := by
  rcases backendMove_cases m s with h | ⟨i, hm, _, h⟩ | ⟨_, _, _, _, _, _, h⟩ | ⟨_, h⟩ | ⟨_, _, h⟩ | ⟨_, _, _, h⟩ |
    ⟨_, _, h⟩ | ⟨_, _, _, h⟩ | ⟨_, _, h⟩ | ⟨_, _, _, _, h⟩ <;> rw [h] <;> try exact hk
  simp [hk]

/-- No backend move sets a bit of `RX_ARMED`. -/
theorem backendMove_rxArmed_le (k : Nat) (hk : s.ctl.rxArmed.getLsbD k = false) :
    (backendMove m s).ctl.rxArmed.getLsbD k = false := by
  rcases backendMove_cases m s with h | ⟨i, hm, _, h⟩ | ⟨_, _, _, _, _, _, h⟩ | ⟨_, h⟩ | ⟨_, _, h⟩ | ⟨_, _, _, h⟩ |
    ⟨_, _, h⟩ | ⟨_, _, _, h⟩ | ⟨_, _, h⟩ | ⟨_, _, _, _, h⟩ <;> rw [h] <;> try exact hk
  simp [hk]

/-- The mode changes by the wake move only (R240). -/
theorem backendMove_mode :
    (backendMove m s).ctl.mode = s.ctl.mode ∨ (s.ctl.mode = .sleep ∧ (backendMove m s).ctl.mode = .listenOnly) := by
  rcases backendMove_cases m s with h | ⟨i, hm, _, h⟩ | ⟨_, _, _, _, _, _, h⟩ | ⟨_, h⟩ | ⟨_, _, h⟩ | ⟨_, _, _, h⟩ |
    ⟨_, hs, h⟩ | ⟨_, _, _, h⟩ | ⟨_, _, h⟩ | ⟨_, _, _, _, h⟩ <;> rw [h] <;> try exact .inl rfl
  exact .inr ⟨hs, rfl⟩

/-- The slot memory changes by the store of one whole slot at most. -/
theorem backendMove_mem :
    (backendMove m s).mem = s.mem ∨
    ∃ (sp : Space) (n : Fin 8) (raw : ImageReg),
      (backendMove m s).mem = Memory.setList s.mem (SlotAddr.key ⟨sp, n, 0⟩) (imageBytes s.cfg.layout raw) ∧
      (sp = .RXS ∨ m.constrained = false) := by
  rcases backendMove_cases m s with h | ⟨i, hm, _, h⟩ | ⟨j, raw, hm, _, _, _, h⟩ | ⟨_, h⟩ | ⟨_, _, h⟩ | ⟨_, _, _, h⟩ |
    ⟨_, hs, h⟩ | ⟨_, _, _, h⟩ | ⟨_, _, h⟩ | ⟨sp, n, raw, hm, h⟩ <;> rw [h] <;> try exact .inl rfl
  · exact .inr ⟨.RXS, j, raw, rfl, .inl rfl⟩
  · exact .inr ⟨sp, n, raw, rfl, .inr (by rw [hm]; rfl)⟩

/-- The constrained backend agent stores nothing to a transmit slot (R79). -/
theorem backendMove_txSlot (hm : m.constrained = true) {i d : Nat} (hi : i < 8) (hd : d < 16) :
    Memory.get (backendMove m s).mem (SlotAddr.key ⟨.TXS, i, 0⟩ + d) =
      Memory.get s.mem (SlotAddr.key ⟨.TXS, i, 0⟩ + d) := by
  rcases backendMove_mem m s with e | ⟨sp, n, raw, e, rfl | hc⟩
  · rw [e]
  · rw [e, Memory.get_setList, if_neg]
    simp only [SlotAddr.key]
    omega
  · rw [hm] at hc
    cases hc

end Sys2Proof.Machine
end

