-- ==== Sys2Proof/Laws/Interrupt.lean ====
section
/-! SUPPORT. What the boundaries inside a command and a whole dispatch can do (R73, R245): a predicate that the moves and
the dispatcher's steps keep holds afterwards, and a dispatch whose handlers keep the discipline of R287 runs to its end. -/

namespace Sys2Proof.Machine

/-- Every backend move scheduled at a boundary is one of `A`. -/
def AllowedGaps (A : BackendMove → Prop) (s : State) : Prop :=
  ∀ g ∈ s.gaps, ∀ b, GapMove.backend b ∈ g → A b

theorem allowedGaps_true (s : State) : AllowedGaps (fun _ => True) s := fun _ _ _ _ => trivial

theorem nextGap_allowed {A : BackendMove → Prop} {s : State} (h : AllowedGaps A s) :
    ∀ b, GapMove.backend b ∈ nextGap s → A b := by
  intro b hb
  unfold nextGap at hb
  cases hg : s.gaps with
  | nil => simp [hg] at hb
  | cons g gs =>
    rw [hg] at hb
    exact h g (by simp [hg]) b hb

theorem dropGap_allowed {A : BackendMove → Prop} {s : State} (h : AllowedGaps A s) : AllowedGaps A (dropGap s) :=
  fun g hg b hb => h g (List.mem_of_mem_tail hg) b hb

theorem allowed_of_gaps_eq {A : BackendMove → Prop} {s t : State} (h : AllowedGaps A s) (e : t.gaps = s.gaps) :
    AllowedGaps A t := by
  unfold AllowedGaps
  rw [e]
  exact h

/-- Constrained boundaries schedule constrained moves, and no handler breaks the discipline of R287 there. -/
theorem constrainedGaps_allowed {s : State} (h : constrainedGaps s = true) :
    AllowedGaps (fun b => b.constrained = true) s :=
  fun g hg _ hb => List.all_eq_true.1 (List.all_eq_true.1 h g hg) _ hb

theorem constrainedGaps_disciplined {s : State} (h : constrainedGaps s = true) : disciplinedGaps s = true := by
  refine List.all_eq_true.2 fun g hg => List.all_eq_true.2 fun m hm => ?_
  have := List.all_eq_true.1 (List.all_eq_true.1 h g hg) m hm
  cases m with
  | backend b => rfl
  | takeIrq => rfl
  | handlerCommand w => cases this
  | handlerOperand o => cases this

/-! ### Boundaries inside a dispatch -/

theorem interruptMoves_keeps {A : BackendMove → Prop} {Q : State → Prop}
    (hback : ∀ m s, A m → Q s → Q (backendMove m s)) {ms : List GapMove} {s t : State}
    (hms : ∀ b, GapMove.backend b ∈ ms → A b) (hs : Q s) (h : interruptMoves ms s = .next t) :
    Q t ∧ t.gaps = s.gaps := by
  induction ms generalizing s with
  | nil => cases h; exact ⟨hs, rfl⟩
  | cons m rest ih =>
    have hrest : ∀ b, GapMove.backend b ∈ rest → A b := fun b hb => hms b (List.mem_cons_of_mem _ hb)
    cases m with
    | backend b =>
      have := ih hrest (hback b s (hms b (by simp)) hs) h
      simpa using this
    | takeIrq => exact ih hrest hs h
    | handlerCommand w => cases h
    | handlerOperand o => cases h

theorem interruptGap_keeps {A : BackendMove → Prop} {Q : State → Prop} (hdrop : ∀ s, Q s → Q (dropGap s))
    (hback : ∀ m s, A m → Q s → Q (backendMove m s)) {s t : State} (hA : AllowedGaps A s) (hs : Q s)
    (h : interruptGap s = .next t) : Q t ∧ AllowedGaps A t := by
  have := interruptMoves_keeps hback (nextGap_allowed hA) (hdrop s hs) h
  exact ⟨this.1, allowed_of_gaps_eq (dropGap_allowed hA) this.2⟩

@[simp] theorem txEvent_gaps (i : Nat) (s : State) : (txEvent i s).gaps = s.gaps := by
  unfold txEvent
  simp only
  split <;> rfl

@[simp] theorem txEvent_txn (i : Nat) (s : State) : (txEvent i s).ctl.txn = s.ctl.txn := by
  unfold txEvent
  simp only
  split <;> rfl

@[simp] theorem txEvent_rxn (i : Nat) (s : State) : (txEvent i s).ctl.rxn = s.ctl.rxn := by
  unfold txEvent
  simp only
  split <;> rfl

/-- What one iteration of D2 can do: nothing but move the scan position, or decode, latch, hand over, re-arm (R248). -/
theorem rxEvent_cases {j : Nat} {s t : State} (h : rxEvent j s = .next t) :
    (s.hid.snap.getLsbD (rxBit s j) = false ∧ t = setScan (.rx j) s) ∨
    (s.hid.snap.getLsbD (rxBit s j) = true ∧ ∃ m, slotMessage j (setScan (.rx j) s) = .ok m ∧
      t = rearm j (emit (.rxHandler j m) (latchMessage m (setScan (.rx j) s)))) := by
  have hb : rxBit (setScan (.rx j) s) j = rxBit s j := rfl
  have hsn : (setScan (.rx j) s).hid.snap = s.hid.snap := rfl
  unfold rxEvent at h
  simp only [hb, hsn] at h
  split at h
  · rename_i hc
    split at h
    · rename_i m hm
      cases h
      exact .inr ⟨hc, m, hm, rfl⟩
    · cases h
  · rename_i hc
    cases h
    exact .inl ⟨by simpa using hc, rfl⟩

theorem rxEvent_frame {j : Nat} {s t : State} (h : rxEvent j s = .next t) :
    t.gaps = s.gaps ∧ t.ctl.txn = s.ctl.txn ∧ t.ctl.rxn = s.ctl.rxn := by
  rcases rxEvent_cases h with ⟨_, rfl⟩ | ⟨_, m, _, rfl⟩ <;> exact ⟨rfl, rfl, rfl⟩

/-- The counts are the same after a boundary. -/
theorem interruptGap_counts {s t : State} (h : interruptGap s = .next t) :
    t.ctl.txn = s.ctl.txn ∧ t.ctl.rxn = s.ctl.rxn :=
  (interruptGap_keeps (A := fun _ => True) (Q := fun u => u.ctl.txn = s.ctl.txn ∧ u.ctl.rxn = s.ctl.rxn)
    (fun _ hq => hq) (fun m u _ hq => by simpa using hq) (allowedGaps_true s) ⟨rfl, rfl⟩ h).1

theorem scanTx_keeps {A : BackendMove → Prop} {Q : State → Prop} (hdrop : ∀ s, Q s → Q (dropGap s))
    (hback : ∀ m s, A m → Q s → Q (backendMove m s)) (htx : ∀ i s, i < s.ctl.txn.val → Q s → Q (txEvent i s))
    {is : List Nat} {s t : State} (his : ∀ i ∈ is, i < s.ctl.txn.val) (hA : AllowedGaps A s) (hs : Q s)
    (h : scanTx is s = .next t) :
    Q t ∧ AllowedGaps A t ∧ t.ctl.txn = s.ctl.txn ∧ t.ctl.rxn = s.ctl.rxn := by
  induction is generalizing s with
  | nil => cases h; exact ⟨hs, hA, rfl, rfl⟩
  | cons i rest ih =>
    rw [scanTx, andThen_eq_next] at h
    obtain ⟨u, hu, h⟩ := h
    have hi : i < s.ctl.txn.val := his i (by simp)
    have hk := interruptGap_keeps hdrop hback (allowed_of_gaps_eq hA (txEvent_gaps i s)) (htx i s hi hs) hu
    have hc := interruptGap_counts hu
    rw [txEvent_txn, txEvent_rxn] at hc
    have := ih (fun k hk => by rw [hc.1]; exact his k (by simp [hk])) hk.2 hk.1 h
    rw [hc.1, hc.2] at this
    exact this

theorem scanRx_keeps {A : BackendMove → Prop} {Q : State → Prop} (hdrop : ∀ s, Q s → Q (dropGap s))
    (hback : ∀ m s, A m → Q s → Q (backendMove m s))
    (hrx : ∀ j s t, j < s.ctl.rxn.val → Q s → rxEvent j s = .next t → Q t)
    {js : List Nat} {s t : State} (hjs : ∀ j ∈ js, j < s.ctl.rxn.val) (hA : AllowedGaps A s) (hs : Q s)
    (h : scanRx js s = .next t) :
    Q t ∧ AllowedGaps A t ∧ t.ctl.txn = s.ctl.txn ∧ t.ctl.rxn = s.ctl.rxn := by
  induction js generalizing s with
  | nil => cases h; exact ⟨hs, hA, rfl, rfl⟩
  | cons j rest ih =>
    rw [scanRx, andThen_eq_next] at h
    obtain ⟨v, hv, h⟩ := h
    obtain ⟨u, hu, hv⟩ := andThen_eq_next.1 hv
    have hj : j < s.ctl.rxn.val := hjs j (by simp)
    have hf := rxEvent_frame hu
    have hk := interruptGap_keeps hdrop hback (allowed_of_gaps_eq hA hf.1) (hrx j s u hj hs hu) hv
    have hc := interruptGap_counts hv
    rw [hf.2.1, hf.2.2] at hc
    have := ih (fun k hk => by rw [hc.2]; exact hjs k (by simp [hk])) hk.2 hk.1 h
    rw [hc.1, hc.2] at this
    exact this

/-- What a dispatch keeps. `P` is what holds outside a dispatch, `Q` what holds inside it; every step and every allowed
move keeps `Q`, the entry leads from `P` to `Q` and the return back. -/
theorem dispatch_keeps {A : BackendMove → Prop} {P Q : State → Prop}
    (hdrop : ∀ s, Q s → Q (dropGap s)) (hback : ∀ m s, A m → Q s → Q (backendMove m s))
    (henter : ∀ s, P s → Q (enterInterrupt s)) (htx : ∀ i s, i < s.ctl.txn.val → Q s → Q (txEvent i s))
    (hrx : ∀ j s t, j < s.ctl.rxn.val → Q s → rxEvent j s = .next t → Q t)
    (hcount : ∀ s, Q s → Q (countEvents s)) (hret : ∀ s, Q s → P (finish .ok (returnInterrupt s)))
    {s t : State} (hA : AllowedGaps A s) (hs : P s) (h : dispatch s = .next t) : P t ∧ AllowedGaps A t := by
  unfold dispatch at h
  obtain ⟨s1, h1, h⟩ := andThen_eq_next.1 h
  obtain ⟨s2, h2, h⟩ := andThen_eq_next.1 h
  obtain ⟨s3, h3, h⟩ := andThen_eq_next.1 h
  obtain ⟨s4, h4, h⟩ := andThen_eq_next.1 h
  cases h
  have k1 := interruptGap_keeps hdrop hback (allowed_of_gaps_eq (t := enterInterrupt s) hA rfl) (henter s hs) h1
  have k2 := scanTx_keeps hdrop hback htx (by simp) k1.2 k1.1 h2
  have k3 := scanRx_keeps hdrop hback hrx (by simp) k2.2.1 k2.1 h3
  have k4 := interruptGap_keeps hdrop hback (allowed_of_gaps_eq (t := countEvents s3) k3.2.1 rfl)
    (hcount s3 k3.1) h4
  exact ⟨hret s4 k4.1, allowed_of_gaps_eq k4.2 rfl⟩

/-! ### Boundaries inside an application command -/

theorem applicationMoves_keeps {A : BackendMove → Prop} {P : State → Prop}
    (hback : ∀ m s, A m → P s → P (backendMove m s))
    (hdisp : ∀ s t, AllowedGaps A s → P s → dispatch s = .next t → P t ∧ AllowedGaps A t)
    {ms : List GapMove} {s t : State} (hms : ∀ b, GapMove.backend b ∈ ms → A b) (hA : AllowedGaps A s) (hs : P s)
    (h : applicationMoves ms s = .next t) : P t ∧ AllowedGaps A t := by
  induction ms generalizing s with
  | nil => cases h; exact ⟨hs, hA⟩
  | cons m rest ih =>
    have hrest : ∀ b, GapMove.backend b ∈ rest → A b := fun b hb => hms b (List.mem_cons_of_mem _ hb)
    cases m with
    | backend b =>
      exact ih hrest (allowed_of_gaps_eq hA (backendMove_gaps b s)) (hback b s (hms b (by simp)) hs) h
    | takeIrq =>
      rw [applicationMoves] at h
      split at h
      · obtain ⟨u, hu, h⟩ := andThen_eq_next.1 h
        have := hdisp s u hA hs hu
        exact ih hrest this.2 this.1 h
      · exact ih hrest hA hs h
    | handlerCommand w => exact ih hrest hA hs h
    | handlerOperand o => exact ih hrest hA hs h

/-- What a boundary of `TX.SEND` or `TX.SENDR` keeps. -/
theorem applicationGap_keeps {A : BackendMove → Prop} {P : State → Prop} (hdrop : ∀ s, P s → P (dropGap s))
    (hback : ∀ m s, A m → P s → P (backendMove m s))
    (hdisp : ∀ s t, AllowedGaps A s → P s → dispatch s = .next t → P t ∧ AllowedGaps A t)
    {s t : State} (hA : AllowedGaps A s) (hs : P s) (h : applicationGap s = .next t) : P t ∧ AllowedGaps A t :=
  applicationMoves_keeps hback hdisp (nextGap_allowed hA) (dropGap_allowed hA) (hdrop s hs) h

/-! ### A dispatch runs to its end -/

theorem dataBytes_le {h : Header} (hl : h.len ≤ 8) : h.dataBytes ≤ 8 := by
  unfold Header.dataBytes
  split <;> omega

/-- A decoded length is at most 8 (R108). -/
theorem headerB_len (a b c d e : Byte) : (headerB a b c d e).len ≤ 8 := by
  unfold headerB
  split <;> exact Nat.min_le_right _ _

theorem headerW_len (a b : Word) : (headerW a b).len ≤ 8 := Nat.min_le_right _ _

/-- Decoding a receive slot never fails (R154): there are eight slots. -/
theorem slotMessage_total (j : Nat) (s : State) (hj : j < 8) : ∃ m, slotMessage j s = .ok m := by
  unfold slotMessage
  cases hl : s.cfg.layout with
  | B =>
    have h5 : admitted s.cfg.layout ⟨.RXS, j, 0⟩ 5 = true := by simp [admitted, hl, hj]
    simp only [slotMessageB, memRead_of_admitted h5, List.range_succ, List.range_zero, List.nil_append,
      List.map_cons, List.map_nil, List.cons_append]
    split
    · exact ⟨_, rfl⟩
    · rename_i hd
      rw [memRead_of_admitted (by
        simp only [admitted, hl, Bool.and_eq_true, decide_eq_true_eq]
        exact ⟨hj, Nat.one_le_iff_ne_zero.2 hd, Nat.add_le_add_left (dataBytes_le (headerB_len ..)) 5⟩)]
      exact ⟨_, rfl⟩
  | W =>
    have h8 : admitted s.cfg.layout ⟨.RXS, j, 0⟩ 8 = true := by simp [admitted, hl, hj]
    simp only [slotMessageW, memRead_of_admitted h8, List.range_succ, List.range_zero, List.nil_append,
      List.map_cons, List.map_nil, List.cons_append]
    split
    · exact ⟨_, rfl⟩
    · rw [memRead_of_admitted (by
        simp only [admitted, hl, Bool.and_eq_true, decide_eq_true_eq]
        refine ⟨hj, ?_⟩
        split <;> simp)]
      exact ⟨_, rfl⟩

theorem rxEvent_total (j : Nat) (s : State) (hj : j < 8) : ∃ t, rxEvent j s = .next t := by
  unfold rxEvent
  simp only
  split
  · obtain ⟨m, hm⟩ := slotMessage_total j (setScan (.rx j) s) hj
    rw [hm]
    exact ⟨_, rfl⟩
  · exact ⟨_, rfl⟩

theorem interruptMoves_total (ms : List GapMove) (s : State) (h : ms.all GapMove.disciplined = true) :
    ∃ t, interruptMoves ms s = .next t := by
  induction ms generalizing s with
  | nil => exact ⟨s, rfl⟩
  | cons m rest ih =>
    simp only [List.all_cons, Bool.and_eq_true] at h
    cases m with
    | backend b => exact ih _ h.2
    | takeIrq => exact ih _ h.2
    | handlerCommand w => cases h.1
    | handlerOperand o => cases h.1

theorem nextGap_disciplined {s : State} (h : disciplinedGaps s = true) :
    (nextGap s).all GapMove.disciplined = true ∧ disciplinedGaps (dropGap s) = true := by
  unfold disciplinedGaps nextGap dropGap at *
  cases hg : s.gaps with
  | nil => simp
  | cons g gs =>
    rw [hg] at h
    simpa using h

theorem interruptGap_total (s : State) (h : disciplinedGaps s = true) :
    ∃ t, interruptGap s = .next t ∧ disciplinedGaps t = true ∧ t.ctl.txn = s.ctl.txn ∧ t.ctl.rxn = s.ctl.rxn := by
  obtain ⟨h1, h2⟩ := nextGap_disciplined h
  obtain ⟨t, ht⟩ := interruptMoves_total (nextGap s) (dropGap s) h1
  have hg := (interruptMoves_keeps (A := fun _ => True) (Q := fun _ => True) (fun _ _ _ _ => trivial)
    (fun _ _ => trivial) trivial ht).2
  have hd : disciplinedGaps t = true := by unfold disciplinedGaps; rw [hg]; exact h2
  exact ⟨t, ht, hd, interruptGap_counts ht⟩

theorem disciplined_of_gaps_eq {s t : State} (h : disciplinedGaps s = true) (e : t.gaps = s.gaps) :
    disciplinedGaps t = true := by
  unfold disciplinedGaps
  rw [e]
  exact h

theorem scanTx_total (is : List Nat) (s : State) (h : disciplinedGaps s = true) :
    ∃ t, scanTx is s = .next t ∧ disciplinedGaps t = true ∧ t.ctl.txn = s.ctl.txn ∧ t.ctl.rxn = s.ctl.rxn := by
  induction is generalizing s with
  | nil => exact ⟨s, rfl, h, rfl, rfl⟩
  | cons i rest ih =>
    obtain ⟨u, hu, hd, h1, h2⟩ := interruptGap_total (txEvent i s) (disciplined_of_gaps_eq h (txEvent_gaps i s))
    obtain ⟨t, ht, htd, h3, h4⟩ := ih u hd
    refine ⟨t, ?_, htd, ?_, ?_⟩
    · rw [scanTx, hu, andThen_next, ht]
    · rw [h3, h1, txEvent_txn]
    · rw [h4, h2, txEvent_rxn]

theorem scanRx_total (js : List Nat) (s : State) (hjs : ∀ j ∈ js, j < 8) (h : disciplinedGaps s = true) :
    ∃ t, scanRx js s = .next t ∧ disciplinedGaps t = true ∧ t.ctl.txn = s.ctl.txn ∧ t.ctl.rxn = s.ctl.rxn := by
  induction js generalizing s with
  | nil => exact ⟨s, rfl, h, rfl, rfl⟩
  | cons j rest ih =>
    obtain ⟨v, hv⟩ := rxEvent_total j s (hjs j (by simp))
    obtain ⟨g1, g2, g3⟩ := rxEvent_frame hv
    obtain ⟨u, hu, hd, h1, h2⟩ := interruptGap_total v (disciplined_of_gaps_eq h g1)
    obtain ⟨t, ht, htd, h3, h4⟩ := ih u (fun k hk => hjs k (by simp [hk])) hd
    refine ⟨t, ?_, htd, ?_, ?_⟩
    · rw [scanRx, hv, andThen_next, hu, andThen_next, ht]
    · rw [h3, h1, g2]
    · rw [h4, h2, g3]

/-- A dispatch whose scheduled boundaries keep the handler discipline answers a next state (R224: it has no failing
path). -/
theorem dispatch_total (s : State) (h : disciplinedGaps s = true) :
    ∃ t, dispatch s = .next t ∧ disciplinedGaps t = true := by
  obtain ⟨s1, h1, d1, _, _⟩ := interruptGap_total (enterInterrupt s) (disciplined_of_gaps_eq h rfl)
  obtain ⟨s2, h2, d2, _, _⟩ := scanTx_total (List.range s1.ctl.txn.val) s1 d1
  obtain ⟨s3, h3, d3, _, _⟩ := scanRx_total (List.range s2.ctl.rxn.val) s2
    (fun j hj => by have := s2.ctl.rxn.isLt; simp at hj; omega) d2
  obtain ⟨s4, h4, d4, _, _⟩ := interruptGap_total (countEvents s3) (disciplined_of_gaps_eq d3 rfl)
  refine ⟨finish .ok (returnInterrupt s4), ?_, disciplined_of_gaps_eq d4 rfl⟩
  unfold dispatch
  rw [h1, andThen_next, h2, andThen_next, h3, andThen_next, h4, andThen_next]

theorem applicationMoves_total (ms : List GapMove) (s : State) (h : ms.all GapMove.disciplined = true)
    (hs : disciplinedGaps s = true) : ∃ t, applicationMoves ms s = .next t ∧ disciplinedGaps t = true := by
  induction ms generalizing s with
  | nil => exact ⟨s, rfl, hs⟩
  | cons m rest ih =>
    simp only [List.all_cons, Bool.and_eq_true] at h
    cases m with
    | backend b => exact ih _ h.2 (disciplined_of_gaps_eq hs (backendMove_gaps b s))
    | takeIrq =>
      rw [applicationMoves]
      split
      · obtain ⟨u, hu, hd⟩ := dispatch_total s hs
        rw [hu, andThen_next]
        exact ih u h.2 hd
      · exact ih s h.2 hs
    | handlerCommand w => cases h.1
    | handlerOperand o => cases h.1

/-- A boundary of `TX.SEND` or `TX.SENDR` that keeps the handler discipline is passed. -/
theorem applicationGap_total (s : State) (h : disciplinedGaps s = true) :
    ∃ t, applicationGap s = .next t ∧ disciplinedGaps t = true :=
  applicationMoves_total (nextGap s) (dropGap s) (nextGap_disciplined h).1 (nextGap_disciplined h).2

/-- With nothing scheduled a boundary changes nothing. -/
theorem interruptGap_empty (s : State) (h : s.gaps = []) : interruptGap s = .next s := by
  cases s
  subst h
  rfl

theorem applicationGap_empty (s : State) (h : s.gaps = []) : applicationGap s = .next s := by
  cases s
  subst h
  rfl

end Sys2Proof.Machine
end

