-- ==== Sys2Proof/Laws/Codec.lean ====
section
/-! SUPPORT. Small facts about the frame codec: overlays, bytes of words, lengths of images. -/

namespace Sys2Proof.Machine

/-- An overlay takes the new element where there is one. -/
theorem getElem_overlay {α : Type} {n : Nat} (old : Vector α n) (new : List α) (k : Nat) (hk : k < n) :
    (overlay old new)[k] = (new[k]?).getD old[k] := by
  unfold overlay
  rw [Vector.getElem_ofFn]
  rfl

/-- The bytes of a word of four bytes (R66). -/
theorem wordBytes_wordOfBytes (a b c d : Byte) : wordBytes (wordOfBytes a b c d) = [a, b, c, d] := by
  unfold wordBytes wordOfBytes
  have h0 : (d ++ c ++ b ++ a).extractLsb' 0 8 = a := by
    ext k hk
    rw [BitVec.getElem_extractLsb', BitVec.getLsbD_append, if_pos (by omega)]
    simp [hk]
  have h1 : (d ++ c ++ b ++ a).extractLsb' 8 8 = b := by
    ext k hk
    rw [BitVec.getElem_extractLsb', BitVec.getLsbD_append, if_neg (by omega), BitVec.getLsbD_append,
      if_pos (by omega)]
    simp [hk]
  have h2 : (d ++ c ++ b ++ a).extractLsb' 16 8 = c := by
    ext k hk
    rw [BitVec.getElem_extractLsb', BitVec.getLsbD_append, if_neg (by omega), BitVec.getLsbD_append,
      if_neg (by omega), BitVec.getLsbD_append, if_pos (by omega), show 16 + k - 8 - 8 = k by omega]
    simp [hk]
  have h3 : (d ++ c ++ b ++ a).extractLsb' 24 8 = d := by
    ext k hk
    rw [BitVec.getElem_extractLsb', BitVec.getLsbD_append, if_neg (by omega), BitVec.getLsbD_append,
      if_neg (by omega), BitVec.getLsbD_append, if_neg (by omega), show 24 + k - 8 - 8 - 8 = k by omega]
    simp [hk]
  rw [h0, h1, h2, h3]

/-- A layout B image has five header bytes and its data (R95). -/
theorem encB_length (v : Word) (ext rtr : Bool) (dlc : Nat) (data : List Byte) :
    (encB v ext rtr dlc data).length = 5 + data.length := by
  simp [encB]
  omega

/-- A layout W image fills the slot (R102). -/
theorem encBytes_W_length (v : Word) (ext rtr : Bool) (dlc : Nat) (data : List Byte) :
    (encBytes .W v ext rtr dlc data).length = 16 := by
  simp [encBytes, encW, wordBytes_length]

/-- The flag positions of the two images are read where they were written (R100, R103, R104). -/
theorem encDLCB_fields (ext rtr : Bool) (d : Fin 9) :
    min ((encDLCB ext rtr d.val).extractLsb' 0 4).toNat 8 = d.val ∧
      (encDLCB ext rtr d.val).getLsbD 6 = (rtr && ext) := by
  revert ext rtr d
  decide

theorem encMSR_fields (rtr : Bool) (d : Fin 9) :
    min ((encMSR rtr d.val).extractLsb' 16 4).toNat 8 = d.val ∧ (encMSR rtr d.val).getLsbD 20 = rtr := by
  revert rtr d
  decide

end Sys2Proof.Machine
end

