-- ==== Sys2Proof/Laws/Commands.lean ====
section
/-! SUPPORT. What each command, and what one step, can do: one inversion lemma for each, and the rule that a predicate kept
by every part is kept by the step. -/

namespace Sys2Proof.Machine

/-! ### CM.INIT, CM.SLEEP, CM.WAKE -/

/-- The state a `CM.INIT` leaves whose hardware steps fail (R185): the reset values, `HardwareFault`. -/
def initFailed (s : State) : State :=
  { s with
    ctl := ControlRegs.reset
    hid := { s.hid with dstate := .idle }
    trace := traceXcvrOff s
    res := { s.res with code := .hardwareFault } }

/-- The state a `CM.INIT` leaves whose hardware steps are all confirmed (R186). -/
def initSucceeded (f : TimingFields) (s : State) : State :=
  { s with
    ctl := { ControlRegs.reset with
      mode := .normal
      txn := Fin.ofNat 9 s.ops.txn.toNat
      rxn := Fin.ofNat 9 s.ops.rxn.toNat
      hnd := 3
      freeMask := lowMask (Fin.ofNat 9 s.ops.txn.toNat).val
      rxArmed := lowMask (Fin.ofNat 9 s.ops.rxn.toNat).val
      ie := enableWord s.cfg (Fin.ofNat 9 s.ops.txn.toNat).val (Fin.ofNat 9 s.ops.rxn.toNat).val
      btr := packTiming f
      xcvrEn := true }
    hid := { s.hid with dstate := .idle }
    trace := traceXcvrOff s ++ [.xcvr true]
    res := { s.res with code := .ok } }

/-- The verdicts are read at different steps and no step changes them. -/
theorem initHardware_eq (f : TimingFields) (s : State) :
    initHardware f s =
      if !rbReset s then .next (initFailed s) else if !rbTiming s then .next (initFailed s)
      else if !rbIe s then .next (initFailed s) else if !rbMode s then .next (initFailed s)
      else .next (initSucceeded f s) := by
  rfl

/-- Everything `CM.INIT` can do: an argument error that writes the code only, the reset state, or bring-up. -/
theorem execCmInit_cases (s : State) :
    (∃ c, initChecks s = .error c ∧ execCmInit s = .next (finish c s)) ∨
    (∃ f, initChecks s = .ok f ∧ (rbReset s && rbTiming s && rbIe s && rbMode s) = false ∧
      execCmInit s = .next (initFailed s)) ∨
    (∃ f, initChecks s = .ok f ∧ (rbReset s && rbTiming s && rbIe s && rbMode s) = true ∧
      execCmInit s = .next (initSucceeded f s)) := by
  cases hc : initChecks s with
  | error c => exact .inl ⟨c, rfl, by simp only [execCmInit, hc]⟩
  | ok f =>
    simp only [execCmInit, hc, initHardware_eq]
    cases rbReset s <;> cases rbTiming s <;> cases rbIe s <;> cases rbMode s <;> simp

/-- What the argument checks of `CM.INIT` let through (R183). -/
theorem initChecks_ok {s : State} {f : TimingFields} (h : initChecks s = .ok f) :
    s.ops.txh = true ∧ s.ops.rxh = true ∧ s.ops.txn.toNat ≤ 8 ∧ s.ops.rxn.toNat ≤ 8 ∧
      s.ops.txn.toNat + s.ops.rxn.toNat ≤ s.cfg.bufCap ∧ computeTiming s.cfg (timingSpec s.ops) = some f := by
  unfold initChecks at h
  split at h
  · cases h
  · rename_i hh
    split at h
    · cases h
    · rename_i hn
      split at h
      · rename_i g hg
        cases h
        simp only [Bool.or_eq_true, Bool.not_eq_true', not_or, Bool.not_eq_false] at hh
        exact ⟨hh.1, hh.2, by omega, by omega, by omega, hg⟩
      · cases h

/-- Everything `CM.SLEEP` can do when it has a meaning. -/
theorem execCmSleep_cases {s t : State} (h : execCmSleep s = .next t) :
    s.ctl.mode = .normal ∧ ((rbMode s = false ∧ t = finish .hardwareFault s) ∨
      (rbMode s = true ∧ t = finish .ok (driveXcvr false (setMode .sleep s)))) := by
  unfold execCmSleep at h
  split at h
  · cases h
  · rename_i hm
    refine ⟨by simpa using hm, ?_⟩
    cases hr : rbMode s <;> rw [hr] at h <;> cases h
    · exact .inl ⟨rfl, rfl⟩
    · exact .inr ⟨rfl, rfl⟩

/-- Everything `CM.WAKE` can do when it has a meaning. -/
theorem execCmWake_cases {s t : State} (h : execCmWake s = .next t) :
    (s.ctl.mode = .sleep ∨ s.ctl.mode = .listenOnly) ∧
      ((rbMode s = false ∧ t = finish .hardwareFault (setMode .listenOnly s)) ∨
      (rbMode s = true ∧ t = finish .ok (driveXcvr true (setMode .normal (setMode .listenOnly s))))) := by
  unfold execCmWake at h
  split at h
  · cases h
  · rename_i hm
    refine ⟨by by_cases hs : s.ctl.mode = .sleep <;> simp_all, ?_⟩
    cases hr : rbMode s <;> rw [hr] at h <;> cases h
    · exact .inl ⟨rfl, rfl⟩
    · exact .inr ⟨rfl, rfl⟩

/-! ### The allocator -/

/-- Everything `BA.ALLOC` can do. -/
theorem execBaAlloc_cases (i : Nat) (s : State) :
    (s.ctl.freeMask.getLsbD i = true ∧ execBaAlloc i s = .next (finish .ok (answerSome i (takeBuffer i s)))) ∨
    (s.ctl.freeMask.getLsbD i = false ∧ execBaAlloc i s = .next (finish .ok (answerNone s))) := by
  unfold execBaAlloc
  cases s.ctl.freeMask.getLsbD i
  · exact .inr ⟨rfl, rfl⟩
  · exact .inl ⟨rfl, rfl⟩

/-- Everything `BA.FREE` can do when it has a meaning. -/
theorem execBaFree_cases {i : Nat} {s t : State} (h : execBaFree i s = .next t) :
    i < s.ctl.txn.val ∧ s.ctl.txReq.getLsbD i = false ∧ t = finish .ok (freeBuffer i s) := by
  unfold execBaFree at h
  split at h
  · cases h
  · rename_i hi
    split at h
    · cases h
    · rename_i hr
      cases h
      exact ⟨by omega, by simpa using hr, rfl⟩

/-! ### The send path -/

/-- What step S1 lets through. -/
theorem sendError_none {i : Nat} {lenOk : Bool} {s : State} (h : sendError i lenOk s = none) :
    i < s.ctl.txn.val ∧ lenOk = true ∧ identifierInRange s.ops = true ∧
      (s.ops.ext = true → s.cfg.extSupported = true) ∧ s.ctl.freeMask.getLsbD i = true := by
  unfold sendError at h
  split at h
  · cases h
  · rename_i h1
    split at h
    · cases h
    · rename_i h2
      split at h
      · cases h
      · rename_i h3
        split at h
        · cases h
        · rename_i h4
          split at h
          · cases h
          · rename_i h5
            refine ⟨by omega, by simpa using h2, by simpa using h3, ?_, by simpa using h5⟩
            intro he
            rw [he] at h4
            simpa using h4

/-- The errors of step S1 are `InvalidArgument`, `NotSupported`, `Busy`. -/
theorem sendError_some {i : Nat} {lenOk : Bool} {s : State} {c : ResCode} (h : sendError i lenOk s = some c) :
    c = .invalidArgument ∨ c = .notSupported ∨ c = .busy := by
  unfold sendError at h
  split at h
  · cases h; simp
  · split at h
    · cases h; simp
    · split at h
      · cases h; simp
      · split at h
        · cases h; simp
        · split at h
          · cases h; simp
          · cases h

/-- The slot image of at most eight data bytes fits the slot (R203). -/
theorem encBytes_admitted {l : Layout} {v : Word} {ext rtr : Bool} {dlc : Nat} {data : List Byte} {i : Nat} (hi : i < 8)
    (hd : data.length ≤ 8) : admitted l ⟨.TXS, i, 0⟩ (encBytes l v ext rtr dlc data).length = true := by
  cases l
  · simp [admitted, encBytes, encB, hi]
    omega
  · simp [admitted, encBytes, encW, hi, wordBytes_length]

/-- Step S2 writes the slot. -/
theorem sendWrite_next {i : Nat} {rtr : Bool} {dlc : Nat} {data : List Byte} {s : State} (hi : i < 8)
    (hd : data.length ≤ 8) :
    sendWrite i rtr dlc data s = .next { s with
      hid := { s.hid with
        sending := some ⟨i, some (encBytes s.cfg.layout s.ops.id s.ops.ext rtr dlc data)⟩ }
      mem := Memory.setList s.mem (SlotAddr.key ⟨.TXS, i, 0⟩)
        (encBytes s.cfg.layout s.ops.id s.ops.ext rtr dlc data) } := by
  unfold sendWrite memWrite
  simp only [setSending_cfg, encBytes_admitted hi hd, if_true]
  rfl

/-- What step S2 can do: it stores an image that fits the slot, from offset 0, and keeps the send in progress. -/
theorem sendWrite_eq_next {i : Nat} {rtr : Bool} {dlc : Nat} {data : List Byte} {s t : State}
    (h : sendWrite i rtr dlc data s = .next t) :
    ∃ img : List Byte, admitted s.cfg.layout ⟨.TXS, i, 0⟩ img.length = true ∧
      t = { s with
        hid := { s.hid with sending := some ⟨i, some img⟩ }
        mem := Memory.setList s.mem (SlotAddr.key ⟨.TXS, i, 0⟩) img } := by
  unfold sendWrite at h
  obtain ⟨ha, e⟩ := memWrite_eq_next h
  exact ⟨_, ha, e⟩

theorem payload_length (o : OperandRegs) : (payload o).length ≤ 8 := by simp [payload]

/-- Step S3 as its two arms (R200, R204). -/
theorem sendRequest_cases (i : Nat) (s : State) :
    (s.inp.accept = true ∧ sendRequest i s = finish .ok (requestSend i (setSending none s))) ∨
    (s.inp.accept = false ∧ sendRequest i s = finish .busy (freeBuffer i (setSending none s))) := by
  unfold sendRequest
  cases h : s.inp.accept
  · exact .inr ⟨rfl, by simp [h]⟩
  · exact .inl ⟨rfl, by simp [h]⟩

/-- The steps S2 and S3 of a send, apart. -/
theorem sendSteps_cases {i : Nat} {rtr : Bool} {dlc : OperandRegs → Nat} {data : OperandRegs → List Byte}
    {s t : State} (h : sendSteps i rtr dlc data s = .next t) :
    ∃ s1 s2 s3, applicationGap s = .next s1 ∧ sendWrite i rtr (dlc s1.ops) (data s1.ops) s1 = .next s2 ∧
      applicationGap s2 = .next s3 ∧ t = sendRequest i s3 := by
  unfold sendSteps at h
  obtain ⟨s1, h1, h⟩ := andThen_eq_next.1 h
  obtain ⟨s2, h2, h⟩ := andThen_eq_next.1 h
  obtain ⟨s3, h3, h⟩ := andThen_eq_next.1 h
  cases h
  exact ⟨s1, s2, s3, h1, h2, h3, rfl⟩

/-- Everything `TX.SEND` can do when it has a meaning. -/
theorem execTxSend_cases {i : Nat} {s t : State} (h : execTxSend i s = .next t) :
    s.ctl.mode = .normal ∧
      ((∃ c, sendError i (decide (s.ops.len.toNat ≤ 8)) s = some c ∧ t = finish c s) ∨
      (sendError i (decide (s.ops.len.toNat ≤ 8)) s = none ∧
        sendSteps i false (fun o => o.len.toNat) payload (sendAllocate i s) = .next t)) := by
  unfold execTxSend at h
  split at h
  · cases h
  · rename_i hm
    refine ⟨by simpa using hm, ?_⟩
    split at h
    · rename_i c hc
      cases h
      exact .inl ⟨c, hc, rfl⟩
    · rename_i hn
      exact .inr ⟨hn, h⟩

/-- Everything `TX.SENDR` can do when it has a meaning. -/
theorem execTxSendr_cases {i : Nat} {s t : State} (h : execTxSendr i s = .next t) :
    s.ctl.mode = .normal ∧
      ((∃ c, sendError i true s = some c ∧ t = finish c s) ∨
      (sendError i true s = none ∧ sendSteps i true (fun _ => 0) (fun _ => []) (sendAllocate i s) = .next t)) := by
  unfold execTxSendr at h
  split at h
  · cases h
  · rename_i hm
    refine ⟨by simpa using hm, ?_⟩
    split at h
    · rename_i c hc
      cases h
      exact .inl ⟨c, hc, rfl⟩
    · rename_i hn
      exact .inr ⟨hn, h⟩

/-- What the steps S2 and S3 keep. `R` is what holds while the send runs, `P` what holds after it; every allowed move and
every dispatch between the steps keeps `R`. -/
theorem sendSteps_keeps {A : BackendMove → Prop} {P R : State → Prop} (hdrop : ∀ s, R s → R (dropGap s))
    (hback : ∀ m s, A m → R s → R (backendMove m s))
    (hdisp : ∀ s t, AllowedGaps A s → R s → dispatch s = .next t → R t ∧ AllowedGaps A t)
    {i : Nat} {rtr : Bool} {dlc : OperandRegs → Nat} {data : OperandRegs → List Byte}
    (hi : i < 8) (hd : ∀ o, (data o).length ≤ 8)
    (hwrite : ∀ s (img : List Byte), admitted s.cfg.layout ⟨.TXS, i, 0⟩ img.length = true → R s →
      R { s with
        hid := { s.hid with sending := some ⟨i, some img⟩ }
        mem := Memory.setList s.mem (SlotAddr.key ⟨.TXS, i, 0⟩) img })
    (hreq : ∀ s, R s → P (sendRequest i s))
    {s t : State} (hA : AllowedGaps A s) (hs : R s) (h : sendSteps i rtr dlc data s = .next t) : P t := by
  obtain ⟨s1, s2, s3, h1, h2, h3, rfl⟩ := sendSteps_cases h
  have k1 := applicationGap_keeps hdrop hback hdisp hA hs h1
  rw [sendWrite_next hi (hd _)] at h2
  cases h2
  have hR := hwrite s1 _ (encBytes_admitted (l := s1.cfg.layout) (v := s1.ops.id) (ext := s1.ops.ext) (rtr := rtr)
    (dlc := dlc s1.ops) hi (hd s1.ops)) k1.1
  have k3 := fun hA => applicationGap_keeps hdrop hback hdisp hA hR h3
  exact hreq s3 (k3 (allowed_of_gaps_eq k1.2 rfl)).1

/-! ### One step -/

/-- Everything one step can do (R9, R73). -/
theorem step_cases {s t : State} (h : step s = .next t) :
    cfgWf s.cfg = true ∧
    ((∃ w i rest, s.agenda = .command w :: rest ∧ decode w = .command i ∧
        exec i { s with agenda := rest, cmd := w } = .next t) ∨
      (∃ w why rest, s.agenda = .command w :: rest ∧ decode w = .reserved why ∧
        t = finish .invalidArgument { s with agenda := rest, cmd := w }) ∨
      (∃ o rest, s.agenda = .operand o :: rest ∧ t = { s with agenda := rest, ops := writeOperand o s.ops }) ∨
      (∃ b rest, s.agenda = .backend b :: rest ∧ t = backendMove b { s with agenda := rest }) ∨
      (∃ rest, s.agenda = .hardwareReset :: rest ∧ t = hardwareReset { s with agenda := rest }) ∨
      (∃ rest, (s.agenda = .takeIrq :: rest ∨ (s.agenda = [] ∧ rest = [])) ∧
        ((irq s = true ∧ dispatch { s with agenda := rest } = .next t) ∨
          (irq s = false ∧ t = { s with agenda := rest })))) := by
  unfold step guardedNext at h
  split at h
  · rename_i hc
    refine ⟨hc, ?_⟩
    unfold runNext at h
    split at h
    · rename_i ha
      refine .inr (.inr (.inr (.inr (.inr ⟨[], .inr ⟨ha, rfl⟩, ?_⟩))))
      have e : { s with agenda := ([] : List Move) } = s := by rw [← ha]
      rw [e]
      unfold takeInterrupt at h
      split at h
      · rename_i hi
        exact .inl ⟨hi, h⟩
      · rename_i hi
        cases h
        exact .inr ⟨by simpa using hi, rfl⟩
    · rename_i m rest ha
      cases m with
      | command w =>
        simp only [runMove, runCommand] at h
        split at h
        · rename_i i hd
          exact .inl ⟨w, i, rest, ha, hd, h⟩
        · rename_i why hd
          cases h
          exact .inr (.inl ⟨w, why, rest, ha, hd, rfl⟩)
      | operand o =>
        cases h
        exact .inr (.inr (.inl ⟨o, rest, ha, rfl⟩))
      | backend b =>
        cases h
        exact .inr (.inr (.inr (.inl ⟨b, rest, ha, rfl⟩)))
      | hardwareReset =>
        cases h
        exact .inr (.inr (.inr (.inr (.inl ⟨rest, ha, rfl⟩))))
      | takeIrq =>
        refine .inr (.inr (.inr (.inr (.inr ⟨rest, .inl ha, ?_⟩))))
        simp only [runMove, takeInterrupt] at h
        have hi : irq { s with agenda := rest } = irq s := rfl
        rw [hi] at h
        split at h
        · rename_i hq
          exact .inl ⟨hq, h⟩
        · rename_i hq
          cases h
          exact .inr ⟨by simpa using hq, rfl⟩
  · cases h

end Sys2Proof.Machine
end

