-- ==== Sys2Proof/Laws/Config.lean ====
section
/-! SUPPORT. What a well-formed configuration gives for the bits of the status register (R7). -/

namespace Sys2Proof.Machine

theorem distinct_iff_nodup (ks : List Nat) : distinct ks = true ↔ ks.Nodup := by
  induction ks with
  | nil => simp [distinct]
  | cons k rest ih => simp [distinct, ih]

/-- Under accepted counts every configured buffer has its own bit below 32, and so have the other sources. -/
theorem irqBits_of_wf {c : Cfg} (h : cfgWf c = true) {T R : Nat} (hT : T ≤ 8) (hR : R ≤ 8) (hs : T + R ≤ c.bufCap) :
    irqBitsWf T R (irqBits c T R) = true := by
  simp only [cfgWf, Bool.and_eq_true, List.all_eq_true] at h
  refine h.2 (T, R) ?_
  simp only [acceptedCounts, List.mem_filter, List.mem_flatMap, List.mem_map, List.mem_range, decide_eq_true_eq]
  exact ⟨⟨T, by omega, R, by omega, rfl⟩, hs⟩

/-- With no buffer configured no interrupt is enabled (R33, R271). -/
theorem enableWord_none {c : Cfg} (h : cfgWf c = true) : enableWord c 0 0 = 0 := by
  have hw := irqBits_of_wf h (T := 0) (R := 0) (by omega) (by omega) (by omega)
  simp only [irqBitsWf, Bool.and_eq_true, beq_iff_eq] at hw
  unfold enableWord
  rw [List.length_eq_zero_iff.1 hw.1.1.1, List.length_eq_zero_iff.1 hw.1.1.2]
  rfl

end Sys2Proof.Machine
end

