-- ==== Sys2Proof/Laws/Keeps.lean ====
section
/-! SUPPORT. The rule of preservation, packaged once: a predicate that every part of a dispatch, of a send and of a step keeps
is kept by the whole, whatever the interleaving. -/

namespace Sys2Proof.Machine

/-- `Q` holds inside a dispatch and `P` outside, and every part of a dispatch keeps them. -/
structure Keep (P Q : State → Prop) : Prop where
  drop   : ∀ s, Q s → Q (dropGap s)
  back   : ∀ m s, Q s → Q (backendMove m s)
  enter  : ∀ s, P s → Q (enterInterrupt s)
  tx     : ∀ i s, i < s.ctl.txn.val → Q s → Q (txEvent i s)
  rx     : ∀ j s m, j < s.ctl.rxn.val → Q s → Q (rearm j (emit (.rxHandler j m) (latchMessage m (setScan (.rx j) s))))
  scan   : ∀ j s, j < s.ctl.rxn.val → Q s → Q (setScan (.rx j) s)
  count  : ∀ s, Q s → Q (countEvents s)
  leave  : ∀ s, Q s → P (finish .ok (returnInterrupt s))

/-- A dispatch keeps what its parts keep. -/
theorem Keep.dispatch {P Q : State → Prop} (k : Keep P Q) {s t : State} (hs : P s)
    (h : Machine.dispatch s = .next t) : P t :=
  (dispatch_keeps (A := fun _ => True) k.drop (fun m s _ h => k.back m s h) k.enter k.tx
    (fun j s t hj hq h => by
      rcases rxEvent_cases h with ⟨_, rfl⟩ | ⟨_, m, _, rfl⟩
      · exact k.scan j s hj hq
      · exact k.rx j s m hj hq)
    k.count k.leave (allowedGaps_true s) hs h).1

/-- A value that no part of a dispatch changes. -/
theorem Keep.of_proj {α : Type} (f : State → α) (a : α) (h1 : ∀ s, f (dropGap s) = f s)
    (h2 : ∀ m s, f (backendMove m s) = f s) (h3 : ∀ s, f (enterInterrupt s) = f s) (h4 : ∀ i s, f (txEvent i s) = f s)
    (h5 : ∀ j s m, f (rearm j (emit (.rxHandler j m) (latchMessage m (setScan (.rx j) s)))) = f s)
    (h6 : ∀ j s, f (setScan (.rx j) s) = f s) (h7 : ∀ s, f (countEvents s) = f s)
    (h8 : ∀ s, f (finish .ok (returnInterrupt s)) = f s) : Keep (fun s => f s = a) (fun s => f s = a) where
  drop s h := by rw [h1, h]
  back m s h := by rw [h2, h]
  enter s h := by rw [h3, h]
  tx i s _ h := by rw [h4, h]
  rx j s m _ h := by rw [h5, h]
  scan j s _ h := by rw [h6, h]
  count s h := by rw [h7, h]
  leave s h := by rw [h8, h]

/-- The counts do not change in a dispatch. -/
theorem dispatch_txn {s t : State} (h : dispatch s = .next t) : t.ctl.txn = s.ctl.txn :=
  (Keep.of_proj (fun s => s.ctl.txn) s.ctl.txn (fun _ => rfl) (fun _ _ => by simp) (fun _ => rfl) (fun _ _ => by simp)
    (fun _ _ _ => rfl) (fun _ _ => rfl) (fun _ => rfl) (fun _ => rfl)).dispatch rfl h

/-- What the parts of an application command keep. -/
structure KeepCommand (P : State → Prop) : Prop where
  dispatch : Keep P P
  result   : ∀ r s, P s → P { s with res := r }
  sending  : ∀ p s, P s → P (setSending p s)
  take     : ∀ i s, P s → P (takeBuffer i s)
  request  : ∀ i s, i < s.ctl.txn.val → P s → P (requestSend i s)
  free     : ∀ i s, i < s.ctl.txn.val → P s → P (freeBuffer i s)
  store    : ∀ s i (img : List Byte), i < 8 → admitted s.cfg.layout ⟨.TXS, i, 0⟩ img.length = true → P s →
    P { s with mem := Memory.setList s.mem (SlotAddr.key ⟨.TXS, i, 0⟩) img }
  mode     : ∀ m s, P s → P (setMode m s)
  xcvr     : ∀ b s, P s → P (driveXcvr b s)

/-- The steps S2 and S3 keep what their parts keep. -/
theorem KeepCommand.send {P : State → Prop} (k : KeepCommand P) {i : Nat} {rtr : Bool} {dlc : OperandRegs → Nat}
    {data : OperandRegs → List Byte} {s t : State} (hi : i < s.ctl.txn.val) (hd : ∀ o, (data o).length ≤ 8) (hs : P s)
    (h : sendSteps i rtr dlc data (sendAllocate i s) = .next t) : P t := by
  have h8 : i < 8 := by have := s.ctl.txn.isLt; omega
  refine sendSteps_keeps (A := fun _ => True) (P := P) (R := fun s => P s ∧ i < s.ctl.txn.val)
    (fun s h => ⟨k.dispatch.drop s h.1, h.2⟩) (fun m s _ h => ⟨k.dispatch.back m s h.1, by simpa using h.2⟩)
    (fun s t _ hp h => ⟨⟨k.dispatch.dispatch hp.1 h, by rw [dispatch_txn h]; exact hp.2⟩, allowedGaps_true _⟩) h8 hd ?_ ?_
    (allowedGaps_true _) ⟨k.sending _ _ (k.take i s hs), hi⟩ h
  · intro s img ha hp
    exact ⟨k.store (setSending (some ⟨i, some img⟩) s) i img h8 ha (k.sending (some ⟨i, some img⟩) s hp.1), hp.2⟩
  · intro s hp
    rcases sendRequest_cases i s with ⟨_, e⟩ | ⟨_, e⟩ <;> rw [e]
    · exact k.result _ _ (k.request i _ hp.2 (k.sending none s hp.1))
    · exact k.result _ _ (k.free i _ hp.2 (k.sending none s hp.1))

/-- A command keeps what its parts keep; `CM.INIT` is looked at apart. -/
theorem KeepCommand.exec {P : State → Prop} (k : KeepCommand P) {i : Instr} {s t : State}
    (hinit : i = .cmInit → execCmInit s = .next t → P t) (hs : P s) (h : Machine.exec i s = .next t) : P t := by
  cases i with
  | btCompute =>
    cases h
    split
    · exact k.result _ _ (k.result _ _ hs)
    · exact k.result _ _ hs
  | fcEncd =>
    cases h
    split
    · exact k.result _ _ hs
    · exact k.result _ _ (k.result _ _ hs)
  | fcEncr =>
    cases h
    split
    · exact k.result _ _ hs
    · exact k.result _ _ (k.result _ _ hs)
  | fcDec => cases h; exact k.result _ _ (k.result _ _ hs)
  | baAlloc i =>
    rcases execBaAlloc_cases i s with ⟨_, e⟩ | ⟨_, e⟩ <;> rw [Machine.exec, e] at h <;> cases h
    · exact k.result _ _ (k.result _ _ (k.take _ _ hs))
    · exact k.result _ _ (k.result _ _ hs)
  | baFree i =>
    obtain ⟨h1, _, rfl⟩ := execBaFree_cases h
    exact k.result _ _ (k.free _ _ h1 hs)
  | cmInit => exact hinit rfl h
  | cmSleep =>
    obtain ⟨_, ⟨_, rfl⟩ | ⟨_, rfl⟩⟩ := execCmSleep_cases h
    · exact k.result _ _ hs
    · exact k.result _ _ (k.xcvr _ _ (k.mode _ _ hs))
  | cmWake =>
    obtain ⟨_, ⟨_, rfl⟩ | ⟨_, rfl⟩⟩ := execCmWake_cases h
    · exact k.result _ _ (k.mode _ _ hs)
    · exact k.result _ _ (k.xcvr _ _ (k.mode _ _ (k.mode _ _ hs)))
  | cmErrcnt => cases h; exact k.result _ _ (k.result _ _ hs)
  | txSend i =>
    obtain ⟨_, ⟨c, _, rfl⟩ | ⟨hn, h⟩⟩ := execTxSend_cases h
    · exact k.result _ _ hs
    · exact k.send (sendError_none hn).1 payload_length hs h
  | txSendr i =>
    obtain ⟨_, ⟨c, _, rfl⟩ | ⟨hn, h⟩⟩ := execTxSendr_cases h
    · exact k.result _ _ hs
    · exact k.send (sendError_none hn).1 (by simp) hs h
  | isDispatch => exact k.dispatch.dispatch hs h

/-- A step keeps what its parts keep. -/
theorem step_keeps {P : State → Prop} (hagenda : ∀ s a, P s → P { s with agenda := a })
    (hcmd : ∀ s w, P s → P { s with cmd := w }) (hops : ∀ s o, P s → P { s with ops := o })
    (hfin : ∀ c s, P s → P (finish c s)) (hback : ∀ m s, P s → P (backendMove m s))
    (hexec : ∀ i s t, P s → exec i s = .next t → P t) (hreset : ∀ s, P s → P (hardwareReset s)) {s t : State} (hs : P s)
    (h : step s = .next t) : P t := by
  obtain ⟨_, ⟨w, i, rest, _, _, h⟩ | ⟨w, _, rest, _, _, rfl⟩ | ⟨o, rest, _, rfl⟩ | ⟨b, rest, _, rfl⟩ | ⟨rest, _, rfl⟩ |
    ⟨rest, _, ⟨_, h⟩ | ⟨_, rfl⟩⟩⟩ := step_cases h
  · exact hexec i _ _ (hcmd _ w (hagenda _ rest hs)) h
  · exact hfin _ _ (hcmd _ w (hagenda _ rest hs))
  · exact hops _ _ (hagenda _ rest hs)
  · exact hback _ _ (hagenda _ rest hs)
  · exact hreset _ (hagenda _ rest hs)
  · exact hexec .isDispatch _ _ (hagenda _ rest hs) h
  · exact hagenda _ rest hs

end Sys2Proof.Machine
end

