-- ==== Sys2Proof/Laws/PerInstr.lean ====
section
/-! SUPPORT. Facts stated command by command: the word of a well-formed command is never a reserved word. -/

namespace Sys2Proof.Laws.EncodedOp

/-- The operation number of the encoded word is none of the reserved ones, and the index field is the operand of format I
and 0 in format N (R86 to R89). -/
def Statement (i : Instr) : Prop :=
  i.wellFormed = true →
    opField (encode i) ≠ 0x0 ∧ opField (encode i) ≠ 0x2 ∧ opField (encode i) ≠ 0xF ∧
    idxField (encode i) = match i with
      | .btCompute | .fcEncd | .fcEncr | .fcDec | .cmInit | .cmSleep | .cmWake | .cmErrcnt | .isDispatch => 0
      | .baAlloc idx | .baFree idx | .txSend idx | .txSendr idx => idx

theorem btCompute : Statement .btCompute := by unfold Statement; decide

theorem fcEncd : Statement .fcEncd := by unfold Statement; decide

theorem fcEncr : Statement .fcEncr := by unfold Statement; decide

theorem fcDec : Statement .fcDec := by unfold Statement; decide

theorem baAlloc (idx : Nat) : Statement (.baAlloc idx) := by
  intro h
  have hi : idx < 16 := of_decide_eq_true h
  interval_cases idx <;> decide

theorem baFree (idx : Nat) : Statement (.baFree idx) := by
  intro h
  have hi : idx < 16 := of_decide_eq_true h
  interval_cases idx <;> decide

theorem cmInit : Statement .cmInit := by unfold Statement; decide

theorem cmSleep : Statement .cmSleep := by unfold Statement; decide

theorem cmWake : Statement .cmWake := by unfold Statement; decide

theorem cmErrcnt : Statement .cmErrcnt := by unfold Statement; decide

theorem txSend (idx : Nat) : Statement (.txSend idx) := by
  intro h
  have hi : idx < 16 := of_decide_eq_true h
  interval_cases idx <;> decide

theorem txSendr (idx : Nat) : Statement (.txSendr idx) := by
  intro h
  have hi : idx < 16 := of_decide_eq_true h
  interval_cases idx <;> decide

theorem isDispatch : Statement .isDispatch := by unfold Statement; decide

end Sys2Proof.Laws.EncodedOp
end

