-- ==== Sys2Proof/Laws/Quiet.lean ====
section
/-! SUPPORT. A dispatch during which no other agent moves, as a composition of its steps (R245), and what its two scans leave
in each part of the state. -/

namespace Sys2Proof.Machine

/-- All iterations of D1. -/
def txAll (is : List Nat) (s : State) : State := is.foldl (fun u i => txEvent i u) s

/-- One iteration of D2 with the decoded message given. -/
def rxStep (m : Nat → Message) (j : Nat) (s : State) : State :=
  if s.hid.snap.getLsbD (rxBit s j) then
    rearm j (emit (.rxHandler j (m j)) (latchMessage (m j) (setScan (.rx j) s)))
  else setScan (.rx j) s

/-- All iterations of D2 with the decoded messages given. -/
def rxAll (m : Nat → Message) (js : List Nat) (s : State) : State := js.foldl (fun u j => rxStep m j u) s

theorem scanTx_quiet (is : List Nat) (s : State) (h : s.gaps = []) : scanTx is s = .next (txAll is s) := by
  induction is generalizing s with
  | nil => rfl
  | cons i rest ih =>
    have hg : (txEvent i s).gaps = [] := by rw [txEvent_gaps, h]
    rw [scanTx, interruptGap_empty _ hg, andThen_next, ih _ hg]
    rfl

/-- A decoded slot depends on the layout, the slot memory and the epoch only. -/
theorem slotMessage_congr {s t : State} (j : Nat) (hc : t.cfg = s.cfg) (hm : t.mem = s.mem) (he : t.epoch = s.epoch) :
    slotMessage j t = slotMessage j s := by
  simp only [slotMessage, slotMessageB, slotMessageW, memRead, readByte, hc, hm, he]

theorem rxEvent_eq_rxStep {m : Nat → Message} {j : Nat} {s : State} (h : slotMessage j s = .ok (m j)) :
    rxEvent j s = .next (rxStep m j s) := by
  have hs : slotMessage j (setScan (.rx j) s) = .ok (m j) :=
    (slotMessage_congr (s := s) j rfl rfl rfl).trans h
  have hb : rxBit (setScan (.rx j) s) j = rxBit s j := rfl
  unfold rxEvent rxStep
  simp only [hb, setScan_hid, hs]
  split <;> rfl

theorem rxStep_frame (m : Nat → Message) (j : Nat) (s : State) :
    (rxStep m j s).gaps = s.gaps ∧ (rxStep m j s).cfg = s.cfg ∧ (rxStep m j s).mem = s.mem ∧
      (rxStep m j s).epoch = s.epoch := by
  unfold rxStep
  split <;> exact ⟨rfl, rfl, rfl, rfl⟩

theorem scanRx_quiet {m : Nat → Message} (js : List Nat) (s : State) (h : s.gaps = [])
    (hm : ∀ j ∈ js, slotMessage j s = .ok (m j)) : scanRx js s = .next (rxAll m js s) := by
  induction js generalizing s with
  | nil => rfl
  | cons j rest ih =>
    obtain ⟨f1, f2, f3, f4⟩ := rxStep_frame m j s
    have hg : (rxStep m j s).gaps = [] := by rw [f1, h]
    rw [scanRx, rxEvent_eq_rxStep (hm j (by simp)), andThen_next, interruptGap_empty _ hg, andThen_next,
      ih _ hg (fun k hk => by rw [slotMessage_congr k f2 f3 f4]; exact hm k (by simp [hk]))]
    rfl

/-! ### What the scans leave -/

/-- The scan of D1 moves the scan position, frees buffers, and emits; nothing else. -/
theorem txAll_eq (is : List Nat) (s : State) :
    txAll is s = { s with
      ctl := { s.ctl with freeMask := (txAll is s).ctl.freeMask }
      hid := { s.hid with scan := (txAll is s).hid.scan }
      trace := s.trace ++ (is.filter fun i => s.hid.snap.getLsbD (txBit s i)).map Event.txHandler } := by
  induction is generalizing s with
  | nil => simp [txAll]
  | cons i rest ih =>
    have e : txAll (i :: rest) s = txAll rest (txEvent i s) := rfl
    rw [e]
    have hb : txBit (setScan (.tx i) s) i = txBit s i := rfl
    cases hc : s.hid.snap.getLsbD (txBit s i)
    · have h1 : txEvent i s = setScan (.tx i) s := by
        unfold txEvent
        simp only [hb, setScan_hid, hc]
        rfl
      rw [h1]
      conv => lhs; rw [ih]
      have hq : ∀ k, txBit (setScan (.tx i) s) k = txBit s k := fun _ => rfl
      simp [hc, hq]
    · have h1 : txEvent i s = emit (.txHandler i) (freeBuffer i (setScan (.tx i) s)) := by
        unfold txEvent
        simp only [hb, setScan_hid, hc]
        rfl
      rw [h1]
      conv => lhs; rw [ih]
      have hq : ∀ k, txBit (emit (.txHandler i) (freeBuffer i (setScan (.tx i) s))) k = txBit s k := fun _ => rfl
      simp [hc, hq]

/-- The buffers the scan of D1 frees (R246). -/
theorem txAll_freeMask (is : List Nat) (s : State) (k : Nat) (hk : k < 8) :
    (txAll is s).ctl.freeMask.getLsbD k =
      (s.ctl.freeMask.getLsbD k || decide (k ∈ is.filter fun i => s.hid.snap.getLsbD (txBit s i))) := by
  induction is generalizing s with
  | nil => simp [txAll]
  | cons i rest ih =>
    have e : txAll (i :: rest) s = txAll rest (txEvent i s) := rfl
    rw [e, ih]
    have hb : txBit (setScan (.tx i) s) i = txBit s i := rfl
    cases hc : s.hid.snap.getLsbD (txBit s i)
    · have h1 : txEvent i s = setScan (.tx i) s := by
        unfold txEvent
        simp only [hb, setScan_hid, hc]
        rfl
      have hq : ∀ k, txBit (setScan (.tx i) s) k = txBit s k := fun _ => rfl
      simp [h1, hc, hq]
    · have h1 : txEvent i s = emit (.txHandler i) (freeBuffer i (setScan (.tx i) s)) := by
        unfold txEvent
        simp only [hb, setScan_hid, hc]
        rfl
      have hq : ∀ k, txBit (emit (.txHandler i) (freeBuffer i (setScan (.tx i) s))) k = txBit s k := fun _ => rfl
      simp only [h1, hq, emit_hid, emit_ctl, freeBuffer_hid, freeBuffer_ctl, setScan_hid, setScan_ctl, getLsbD_setBit,
        List.filter_cons, hc, if_true, List.mem_cons, hk, decide_true, Bool.true_and, Bool.or_assoc]
      by_cases hki : k = i <;> simp [hki]

/-- The scan of D2 moves the scan position, latches, re-arms and emits; nothing else. -/
theorem rxAll_eq (m : Nat → Message) (js : List Nat) (s : State) :
    rxAll m js s = { s with
      ctl := { s.ctl with rxArmed := (rxAll m js s).ctl.rxArmed }
      hid := { s.hid with scan := (rxAll m js s).hid.scan }
      msg := (rxAll m js s).msg
      trace := s.trace ++ (js.filter fun j => s.hid.snap.getLsbD (rxBit s j)).flatMap fun j =>
        [.rxHandler j (m j), .rearm j] } := by
  induction js generalizing s with
  | nil => simp [rxAll]
  | cons j rest ih =>
    have e : rxAll m (j :: rest) s = rxAll m rest (rxStep m j s) := rfl
    rw [e]
    cases hc : s.hid.snap.getLsbD (rxBit s j)
    · have h1 : rxStep m j s = setScan (.rx j) s := by
        unfold rxStep
        simp only [hc]
        rfl
      rw [h1]
      conv => lhs; rw [ih]
      have hq : ∀ k, rxBit (setScan (.rx j) s) k = rxBit s k := fun _ => rfl
      simp [hc, hq]
    · have h1 : rxStep m j s = rearm j (emit (.rxHandler j (m j)) (latchMessage (m j) (setScan (.rx j) s))) := by
        unfold rxStep
        simp only [hc]
        rfl
      rw [h1]
      conv => lhs; rw [ih]
      have hq : ∀ k, rxBit (rearm j (emit (.rxHandler j (m j)) (latchMessage (m j) (setScan (.rx j) s)))) k = rxBit s k :=
        fun _ => rfl
      simp [hc, hq]

/-- The slots the scan of D2 re-arms (R248). -/
theorem rxAll_rxArmed (m : Nat → Message) (js : List Nat) (s : State) (k : Nat) (hk : k < 8) :
    (rxAll m js s).ctl.rxArmed.getLsbD k =
      (s.ctl.rxArmed.getLsbD k || decide (k ∈ js.filter fun j => s.hid.snap.getLsbD (rxBit s j))) := by
  induction js generalizing s with
  | nil => simp [rxAll]
  | cons j rest ih =>
    have e : rxAll m (j :: rest) s = rxAll m rest (rxStep m j s) := rfl
    rw [e, ih]
    cases hc : s.hid.snap.getLsbD (rxBit s j)
    · have h1 : rxStep m j s = setScan (.rx j) s := by
        unfold rxStep
        simp only [hc]
        rfl
      have hq : ∀ k, rxBit (setScan (.rx j) s) k = rxBit s k := fun _ => rfl
      simp [h1, hc, hq]
    · have h1 : rxStep m j s = rearm j (emit (.rxHandler j (m j)) (latchMessage (m j) (setScan (.rx j) s))) := by
        unfold rxStep
        simp only [hc]
        rfl
      have hq : ∀ k, rxBit (rearm j (emit (.rxHandler j (m j)) (latchMessage (m j) (setScan (.rx j) s)))) k = rxBit s k :=
        fun _ => rfl
      simp only [h1, hq, rearm_hid, rearm_ctl, emit_hid, emit_ctl, latchMessage_hid, latchMessage_ctl, setScan_hid,
        setScan_ctl, getLsbD_setBit, List.filter_cons, hc, if_true, List.mem_cons, hk, decide_true, Bool.true_and,
        Bool.or_assoc]
      by_cases hki : k = j <;> simp [hki]

/-- A dispatch during which no other agent moves. -/
theorem dispatch_quiet {m : Nat → Message} {s : State} (h : s.gaps = [])
    (hm : ∀ j, j < s.ctl.rxn.val → slotMessage j s = .ok (m j)) :
    dispatch s = .next (finish .ok (returnInterrupt (countEvents
      (rxAll m (List.range s.ctl.rxn.val) (txAll (List.range s.ctl.txn.val) (enterInterrupt s)))))) := by
  have he : (enterInterrupt s).gaps = [] := h
  have e2 := txAll_eq (List.range s.ctl.txn.val) (enterInterrupt s)
  have g2 : (txAll (List.range s.ctl.txn.val) (enterInterrupt s)).gaps = [] := by rw [e2]; exact h
  have n2 : (txAll (List.range s.ctl.txn.val) (enterInterrupt s)).ctl.rxn = s.ctl.rxn := by rw [e2]; rfl
  have q2 := scanTx_quiet (List.range s.ctl.txn.val) (enterInterrupt s) he
  have q3 := scanRx_quiet (m := m) (List.range s.ctl.rxn.val) _ g2 (fun j hj => by
    refine (slotMessage_congr (s := s) j ?_ ?_ ?_).trans (hm j (by simpa using hj)) <;> rw [e2] <;> rfl)
  have g3 : (countEvents (rxAll m (List.range s.ctl.rxn.val)
      (txAll (List.range s.ctl.txn.val) (enterInterrupt s)))).gaps = [] := by
    rw [countEvents_gaps, rxAll_eq]
    exact g2
  unfold dispatch
  rw [interruptGap_empty _ he, andThen_next, enterInterrupt_ctl, q2, andThen_next, n2, q3, andThen_next,
    interruptGap_empty _ g3, andThen_next]

end Sys2Proof.Machine
end

