-- ==== Sys2Proof/Laws/StatusBits.lean ====
section
/-! SUPPORT. The status bits of a block with a well-formed configuration and accepted counts are distinct and below 32
(R7, R38). -/

namespace Sys2Proof.Machine

/-- What R7 gives for the counts `T` and `R`. -/
structure StatusBits (c : Cfg) (T R : Nat) : Prop where
  txLength : (irqBits c T R).tx.length = T
  rxLength : (irqBits c T R).rx.length = R
  distinct : ((irqBits c T R).tx ++ (irqBits c T R).rx ++
    [(irqBits c T R).err, (irqBits c T R).ovf, (irqBits c T R).wake]).Nodup
  below : ∀ k ∈ (irqBits c T R).tx ++ (irqBits c T R).rx ++
    [(irqBits c T R).err, (irqBits c T R).ovf, (irqBits c T R).wake], k < 32

theorem statusBits_of_counts {s : State} (hc : cfgWf s.cfg = true) (h : CountsInv s) :
    StatusBits s.cfg s.ctl.txn.val s.ctl.rxn.val := by
  have hw := irqBits_of_wf hc (T := s.ctl.txn.val) (R := s.ctl.rxn.val) (by have := s.ctl.txn.isLt; omega)
    (by have := s.ctl.rxn.isLt; omega) h.1
  simp only [irqBitsWf, Bool.and_eq_true, beq_iff_eq, List.all_eq_true, decide_eq_true_eq, distinct_iff_nodup] at hw
  exact ⟨hw.1.1.1, hw.1.1.2, hw.2, hw.1.2⟩

variable {s : State} (b : StatusBits s.cfg s.ctl.txn.val s.ctl.rxn.val)
include b

theorem txBit_eq_getElem {i : Nat} (hi : i < s.ctl.txn.val) :
    ∃ h : i < s.irqBits.tx.length, txBit s i = s.irqBits.tx[i] := by
  have h : i < s.irqBits.tx.length := by
    have := b.txLength
    unfold State.irqBits
    omega
  exact ⟨h, by unfold txBit; rw [List.getElem?_eq_getElem h]; rfl⟩

theorem rxBit_eq_getElem {j : Nat} (hj : j < s.ctl.rxn.val) :
    ∃ h : j < s.irqBits.rx.length, rxBit s j = s.irqBits.rx[j] := by
  have h : j < s.irqBits.rx.length := by
    have := b.rxLength
    unfold State.irqBits
    omega
  exact ⟨h, by unfold rxBit; rw [List.getElem?_eq_getElem h]; rfl⟩

theorem txBit_lt {i : Nat} (hi : i < s.ctl.txn.val) : txBit s i < 32 := by
  obtain ⟨h, e⟩ := txBit_eq_getElem b hi
  rw [e]
  exact b.below _ (List.mem_append_left _ (List.mem_append_left _ (List.getElem_mem h)))

theorem rxBit_lt {j : Nat} (hj : j < s.ctl.rxn.val) : rxBit s j < 32 := by
  obtain ⟨h, e⟩ := rxBit_eq_getElem b hj
  rw [e]
  exact b.below _ (List.mem_append_left _ (List.mem_append_right _ (List.getElem_mem h)))

theorem txBit_ne_txBit {i j : Nat} (hi : i < s.ctl.txn.val) (hj : j < s.ctl.txn.val) (hne : i ≠ j) :
    txBit s i ≠ txBit s j := by
  obtain ⟨h, e⟩ := txBit_eq_getElem b hi
  obtain ⟨h', e'⟩ := txBit_eq_getElem b hj
  have nd := b.distinct
  rw [List.nodup_append, List.nodup_append] at nd
  rw [e, e']
  exact fun he => hne ((nd.1.1.getElem_inj_iff).1 he)

theorem txBit_ne_rxBit {i j : Nat} (hi : i < s.ctl.txn.val) (hj : j < s.ctl.rxn.val) : txBit s i ≠ rxBit s j := by
  obtain ⟨h, e⟩ := txBit_eq_getElem b hi
  obtain ⟨h', e'⟩ := rxBit_eq_getElem b hj
  have nd := b.distinct
  rw [List.nodup_append, List.nodup_append] at nd
  rw [e, e']
  exact nd.1.2.2 _ (List.getElem_mem h) _ (List.getElem_mem h')

theorem txBit_ne_other {i : Nat} (hi : i < s.ctl.txn.val) :
    txBit s i ≠ s.irqBits.err ∧ txBit s i ≠ s.irqBits.ovf ∧ txBit s i ≠ s.irqBits.wake := by
  obtain ⟨h, e⟩ := txBit_eq_getElem b hi
  have nd := b.distinct
  rw [List.nodup_append] at nd
  have hn := nd.2.2 _ (List.mem_append_left _ (List.getElem_mem h))
  rw [e]
  exact ⟨hn _ (by simp [State.irqBits]), hn _ (by simp [State.irqBits]), hn _ (by simp [State.irqBits])⟩

end Sys2Proof.Machine
end

