-- ==== Sys2Proof/Laws/Timing.lean ====
section
/-! SUPPORT. What the bit-timing calculator can answer, and its packed word as a sum of fields. -/

namespace Sys2Proof.Machine

/-- The fields of exact quotient `Q`. -/
def timingFields (c : Cfg) (t : TimingSpec) (Q : Nat) : TimingFields where
  brp := Q - 1
  sjw := t.sjw - c.segBias
  prop := t.prop - c.segBias
  ph1 := t.ph1 - c.segBias
  ph2 := t.ph2 - c.segBias

theorem quanta_pos (t : TimingSpec) : 0 < quanta t := by unfold quanta; omega

theorem divisor_pos {c : Cfg} {t : TimingSpec} (hc : 1 ≤ c.tqDiv) (hb : 0 < t.br) : 0 < divisor c t :=
  Nat.mul_pos (Nat.mul_pos hc hb) (quanta_pos t)

/-- The prescaler checks hold exactly when the division is exact with a quotient in range (R123, R124). -/
theorem prescalerOk_iff {c : Cfg} {t : TimingSpec} (hc : 1 ≤ c.tqDiv) :
    prescalerOk c t = true ↔ 0 < t.br ∧ ∃ Q, c.fClk = divisor c t * Q ∧ 1 ≤ Q ∧ Q ≤ c.brpMax + 1 := by
  unfold prescalerOk
  simp only [Bool.and_eq_true, decide_eq_true_eq]
  constructor
  · rintro ⟨⟨⟨hb, hm⟩, hq⟩, hx⟩
    refine ⟨by omega, c.fClk / divisor c t, ?_, Nat.pos_of_ne_zero hq, Nat.sub_le_iff_le_add.1 hx⟩
    exact (Nat.mul_div_cancel' (Nat.dvd_of_mod_eq_zero hm)).symm
  · rintro ⟨hb, Q, he, h1, h2⟩
    have hd := divisor_pos hc hb
    rw [he, Nat.mul_mod_right, Nat.mul_div_cancel_left _ hd]
    omega

/-- Everything `compute` can answer (R120). -/
theorem computeTiming_eq_some {c : Cfg} {t : TimingSpec} {f : TimingFields} (hc : 1 ≤ c.tqDiv) :
    computeTiming c t = some f ↔ segmentsOk c t = true ∧ 0 < t.br ∧
      ∃ Q, c.fClk = divisor c t * Q ∧ 1 ≤ Q ∧ Q ≤ c.brpMax + 1 ∧ f = timingFields c t Q := by
  unfold computeTiming
  constructor
  · intro h
    split at h
    · rename_i hs
      rw [Bool.and_eq_true, prescalerOk_iff hc] at hs
      obtain ⟨hs, hb, Q, he, h1, h2⟩ := hs
      refine ⟨hs, hb, Q, he, h1, h2, ?_⟩
      cases h
      rw [he, Nat.mul_div_cancel_left _ (divisor_pos hc hb)]
      rfl
    · cases h
  · rintro ⟨hs, hb, Q, he, h1, h2, rfl⟩
    have hp : prescalerOk c t = true := (prescalerOk_iff hc).2 ⟨hb, Q, he, h1, h2⟩
    rw [if_pos (by rw [hs, hp]; rfl), he, Nat.mul_div_cancel_left _ (divisor_pos hc hb)]
    rfl

theorem computeTiming_eq_none {c : Cfg} {t : TimingSpec} (hc : 1 ≤ c.tqDiv) :
    computeTiming c t = none ↔ ¬ (segmentsOk c t = true ∧ 0 < t.br ∧
      ∃ Q, c.fClk = divisor c t * Q ∧ 1 ≤ Q ∧ Q ≤ c.brpMax + 1) := by
  constructor
  · rintro h ⟨hs, hb, Q, he, h1, h2⟩
    rw [(computeTiming_eq_some hc).2 ⟨hs, hb, Q, he, h1, h2, rfl⟩] at h
    cases h
  · intro h
    cases hf : computeTiming c t with
    | none => rfl
    | some f =>
      obtain ⟨hs, hb, Q, he, h1, h2, _⟩ := (computeTiming_eq_some hc).1 hf
      exact absurd ⟨hs, hb, Q, he, h1, h2⟩ h

/-- A segment check as bounds on the field (R122). -/
theorem segOk_iff (bias n w : Nat) : segOk bias n w = true ↔ bias ≤ n ∧ n - bias < 2 ^ w := by
  have := Nat.two_pow_pos w
  simp only [segOk, Bool.and_eq_true, decide_eq_true_eq]
  omega

/-- The packed word is the sum of its fields at their places (R31), for fields of at most four bits. -/
theorem packTiming_eq_sum (f : TimingFields) (hs : f.sjw < 16) (hp : f.prop < 16) (h1 : f.ph1 < 16) (h2 : f.ph2 < 16) :
    packTiming f =
      BitVec.ofNat 32 (f.brp * 2 ^ 16 + f.sjw * 2 ^ 12 + f.prop * 2 ^ 8 + f.ph1 * 2 ^ 4 + f.ph2) := by
  have e4 : f.ph1 <<< 4 ||| f.ph2 = f.ph1 * 2 ^ 4 + f.ph2 := by
    rw [← Nat.shiftLeft_add_eq_or_of_lt (by omega), Nat.shiftLeft_eq]
  have e3 : f.prop <<< 8 ||| (f.ph1 * 2 ^ 4 + f.ph2) = f.prop * 2 ^ 8 + (f.ph1 * 2 ^ 4 + f.ph2) := by
    rw [← Nat.shiftLeft_add_eq_or_of_lt (by omega), Nat.shiftLeft_eq]
  have e2 : f.sjw <<< 12 ||| (f.prop * 2 ^ 8 + (f.ph1 * 2 ^ 4 + f.ph2)) =
      f.sjw * 2 ^ 12 + (f.prop * 2 ^ 8 + (f.ph1 * 2 ^ 4 + f.ph2)) := by
    rw [← Nat.shiftLeft_add_eq_or_of_lt (by omega), Nat.shiftLeft_eq]
  have e1 : f.brp <<< 16 ||| (f.sjw * 2 ^ 12 + (f.prop * 2 ^ 8 + (f.ph1 * 2 ^ 4 + f.ph2))) =
      f.brp * 2 ^ 16 + (f.sjw * 2 ^ 12 + (f.prop * 2 ^ 8 + (f.ph1 * 2 ^ 4 + f.ph2))) := by
    rw [← Nat.shiftLeft_add_eq_or_of_lt (by omega), Nat.shiftLeft_eq]
  unfold packTiming
  rw [Nat.or_assoc, Nat.or_assoc, Nat.or_assoc, e4, e3, e2, e1]
  simp only [Nat.add_assoc]

end Sys2Proof.Machine
end

