-- ==== Sys2Proof/Tests/Slice0.lean ====
section
/-! SUPPORT. Tests: expected values from spec/95_test_vectors.md and spec/30_encoding.md, ill-formed terms, and for each
statement with hypotheses a state and operands that meet them. -/

namespace Sys2Proof.Tests

open Sys2Proof.Machine

/-! ### Well-formedness (each check refuses an ill-formed term) -/

theorem test_wellFormed_baAlloc : (Instr.baAlloc 15).wellFormed = true ∧ (Instr.baAlloc 16).wellFormed = false := by decide
theorem test_wellFormed_baFree : (Instr.baFree 15).wellFormed = true ∧ (Instr.baFree 16).wellFormed = false := by decide
theorem test_wellFormed_txSend : (Instr.txSend 15).wellFormed = true ∧ (Instr.txSend 16).wellFormed = false := by decide
theorem test_wellFormed_txSendr : (Instr.txSendr 15).wellFormed = true ∧ (Instr.txSendr 16).wellFormed = false := by decide

/-- R7 accepts the three configurations of spec/95_test_vectors.md. -/
theorem test_cfgWf_named : cfgWf cfgB = true ∧ cfgWf cfgB16 = true ∧ cfgWf cfgW = true := by decide

/-- R7: each numeric condition, broken one at a time. -/
theorem test_cfgWf_numbers :
    cfgWf { cfgB with fClk := 0 } = false ∧ cfgWf { cfgB with tqDiv := 0 } = false ∧
    cfgWf { cfgB with bufCap := 17 } = false ∧ cfgWf { cfgB with segBias := 2 } = false ∧
    cfgWf { cfgB with sjwW := 3 } = false ∧ cfgWf { cfgB with propW := 4 } = false ∧
    cfgWf { cfgB with ph1W := 4 } = false ∧ cfgWf { cfgB with ph2W := 4 } = false ∧
    cfgWf { cfgB with brpMax := 128 } = false := by decide

/-- A configuration whose map for one transmit and one receive buffer is `b`. -/
def mapped (b : IrqBits) : Cfg := { cfgB with irqmap := [⟨1, 1, b⟩] }

/-- R7: a missing bit, a bit above 31, two equal bits. -/
theorem test_cfgWf_map :
    cfgWf (mapped ⟨[8], [0], 16, 17, 18⟩) = true ∧ cfgWf (mapped ⟨[], [0], 16, 17, 18⟩) = false ∧
    cfgWf (mapped ⟨[8], [], 16, 17, 18⟩) = false ∧ cfgWf (mapped ⟨[8], [0], 16, 17, 32⟩) = false ∧
    cfgWf (mapped ⟨[8], [8], 16, 17, 18⟩) = false ∧ cfgWf (mapped ⟨[8], [0], 16, 16, 18⟩) = false := by decide

/-! ### Decoding: one word of every row of the operation map (R88), bit by bit -/

theorem test_decode_btCompute : decode 0b00010000 = .command .btCompute := by decide
theorem test_decode_fcEncd : decode 0b00110000 = .command .fcEncd := by decide
theorem test_decode_fcEncr : decode 0b01000000 = .command .fcEncr := by decide
theorem test_decode_fcDec : decode 0b01010000 = .command .fcDec := by decide
theorem test_decode_baAlloc : decode 0b01100010 = .command (.baAlloc 2) := by decide
theorem test_decode_baFree : decode 0b01111111 = .command (.baFree 15) := by decide
theorem test_decode_cmInit : decode 0b10000000 = .command .cmInit := by decide
theorem test_decode_cmSleep : decode 0b10010000 = .command .cmSleep := by decide
theorem test_decode_cmWake : decode 0b10100000 = .command .cmWake := by decide
theorem test_decode_cmErrcnt : decode 0b10110000 = .command .cmErrcnt := by decide
theorem test_decode_txSend : decode 0b11000001 = .command (.txSend 1) := by decide
theorem test_decode_txSendr : decode 0b11011000 = .command (.txSendr 8) := by decide
theorem test_decode_isDispatch : decode 0b11100000 = .command .isDispatch := by decide

/-- 2.8 of spec/95_test_vectors.md: reserved operation numbers. -/
theorem test_decode_reservedOp :
    [0x00, 0x0F, 0x20, 0x2A, 0xF0, 0xFF].all (fun w => decide (decode w = .reserved .reservedOp)) = true := by decide

/-- 2.8: format N with a non-zero index. -/
theorem test_decode_nonzeroIdx :
    [0x11, 0x31, 0x81, 0x9F, 0xE1].all (fun w => decide (decode w = .reserved .nonzeroIdx)) = true := by decide

/-- The words of R88, written by the encoder. -/
theorem test_encode_words :
    [Instr.btCompute, .fcEncd, .fcEncr, .fcDec, .baAlloc 2, .baFree 1, .cmInit, .cmSleep, .cmWake, .cmErrcnt,
      .txSend 0, .txSendr 0, .isDispatch].map encode =
      [0x10, 0x30, 0x40, 0x50, 0x62, 0x71, 0x80, 0x90, 0xA0, 0xB0, 0xC0, 0xD0, 0xE0] := by decide

theorem test_decodeTableWord :
    decodeTableWord 8 0x62 = some (.baAlloc 2) ∧ decodeTableWord 8 0x00 = none ∧ decodeTableWord 8 0x11 = none := by decide

/-! ### Small states -/

/-- The state of an answer; `State.reset` where it stops. -/
def stateOf (o : Out) : State :=
  match o with
  | .next s => s
  | .fault _ => State.reset
  | .refused _ => State.reset

/-- The refusal of an answer, if it is one. -/
def refusalOf (o : Out) : Option Refusal :=
  match o with
  | .next _ => none
  | .fault _ => none
  | .refused r => some r

/-- The operands of R187: two receive buffers, one transmit buffer, 2 Mbit/s. -/
def initOps : OperandRegs :=
  { OperandRegs.reset with txn := 1, rxn := 2, br := 2000000, sjw := 1, prop := 2, ph1 := 7, ph2 := 6 }

/-- The block before bring-up under `c`, with the operands of R187 and all verdicts 1. -/
def fresh (c : Cfg) : State := { State.resetWith c with ops := initOps, inp := ⟨0xF, true⟩ }

/-- The end state of V-CM1: in `Normal`, one transmit and two receive buffers. -/
def ready : State := stateOf (exec .cmInit (fresh cfgB))

/-- `s` with the identifier, flag, length and first two data bytes of a frame in the operand registers. -/
def withFrame (v : Word) (ext : Bool) (len : Byte) (s : State) : State :=
  { s with ops := { s.ops with id := v, ext := ext, len := len, data := #v[0xAA, 0xBB, 3, 4, 5, 6, 7, 8] } }

/-- `s` with the byte image `bs`, padded with `0xFF`, in `OP_RAW`. -/
def withRaw (bs : List Byte) (s : State) : State :=
  { s with ops := { s.ops with raw := { s.ops.raw with bytes := overlay (Vector.replicate 13 0xFF) bs } } }

/-- A raw carrier with the byte image `bs`. -/
def rawB (bs : List Byte) : ImageReg := { ImageReg.ones with bytes := overlay (Vector.replicate 13 0xFF) bs }

/-- `s` with `STATUS` as given. -/
def withStatus (v : Word) (s : State) : State := { s with ctl := { s.ctl with status := v } }

/-! ### Reset -/

theorem test_reset_memory : Memory.wf State.reset.mem = true := by decide
theorem test_reset_irq : irq State.reset = false := by decide

/-! ### BT.COMPUTE -/

/-- V-BT1 under `cfgB16`: (3, 0, 1, 6, 5), `0x00030165`. -/
theorem test_btCompute_vbt1 :
    (stateOf (exec .btCompute { State.resetWith cfgB16 with ops := { initOps with br := 125000 } })).res =
      { ResultRegs.reset with code := .ok, brp := 3, sjw := 0, prop := 1, ph1 := 6, ph2 := 5, btr := 0x00030165 } := by decide

/-- V-BT6, V-BT7: the clock below the divisor, and a bit rate of 0. -/
theorem test_btCompute_invalid :
    (stateOf (exec .btCompute { State.resetWith cfgB16 with ops := initOps })).res.code = .invalidTiming ∧
    (stateOf (exec .btCompute { State.resetWith cfgB16 with ops := { initOps with br := 0 } })).res.code =
      .invalidTiming := by decide

/-! ### FC.ENCD, FC.ENCR, FC.DEC -/

/-- V-FC1, layout B: `24 60 00 00 02 AA BB`, 7 bytes, and the rest of `RES_IMG` unchanged. -/
theorem test_fcEncd_vfc1 :
    (stateOf (exec .fcEncd (withFrame 0x123 false 2 (fresh cfgB)))).res.img.bytes =
      #v[0x24, 0x60, 0, 0, 2, 0xAA, 0xBB, 0xFF, 0xFF, 0xFF, 0xFF, 0xFF, 0xFF] ∧
    (stateOf (exec .fcEncd (withFrame 0x123 false 2 (fresh cfgB)))).res.imgLen = 7 := by decide

/-- V-FC1, layout W. -/
theorem test_fcEncd_word :
    (stateOf (exec .fcEncd (withFrame 0x123 false 2 (fresh cfgW)))).res.img.words =
      #v[0x048C0000, 0x00020000, 0x0000BBAA, 0] := by decide

/-- V-FC10, both layouts: the moving remote flag of layout B. -/
theorem test_fcEncr_vfc10 :
    (stateOf (exec .fcEncr (withFrame 0x12345678 true 5 (fresh cfgB)))).res.img.bytes.toList.take 5 =
      [0x91, 0xA8, 0x56, 0x78, 0x45] ∧
    (stateOf (exec .fcEncr (withFrame 0x12345678 true 5 (fresh cfgW)))).res.img.words =
      #v[0x32345678, 0x00150000, 0, 0] := by decide

/-- V-FC6 and V-FC19. -/
theorem test_fcEncr_vfc6 :
    (stateOf (exec .fcEncr (withFrame 0x555 false 3 (fresh cfgB)))).res.img.bytes.toList.take 5 =
      [0xAA, 0xB0, 0, 0, 3] ∧
    (stateOf (exec .fcEncr (withFrame 0x123 false 255 (fresh cfgB)))).res.code = .invalidArgument := by decide

/-- V-FC7 decoded: `(Data, 0x1ABCDEF5, 1, 3, [DE, AD, BE])`. -/
theorem test_fcDec_vfc7 :
    decImage .B (withRaw [0xD5, 0xE8, 0xDE, 0xF5, 3, 0xDE, 0xAD, 0xBE] State.reset).ops.raw =
      ⟨.data, 0x1ABCDEF5, true, 3, [0xDE, 0xAD, 0xBE]⟩ := by decide

/-- V-FD1, all bytes `0xFF`: `(Remote, 0x1FFFFFFF, 1, 8, [])`, and `RES_DATA` as it was. -/
theorem test_fcDec_vfd1 :
    (stateOf (exec .fcDec (withRaw [] State.reset))).res =
      { ResultRegs.reset with code := .ok, kind := .remote, id := 0x1FFFFFFF, ext := true, len := 8 } := by decide

/-! ### BA.ALLOC, BA.FREE -/

/-- The worked example of R170. -/
theorem test_baAlloc_example :
    (stateOf (exec (.baAlloc 2) { ready with ctl := { ready.ctl with freeMask := 0b101 } })).ctl.freeMask = 0b001 ∧
    (stateOf (exec (.baAlloc 2) { ready with ctl := { ready.ctl with freeMask := 0b101 } })).res.idx = 2 := by decide

theorem test_baAlloc_none :
    (stateOf (exec (.baAlloc 3) ready)).res.some = false ∧ (stateOf (exec (.baAlloc 3) ready)).ctl = ready.ctl := by decide

/-- The worked example of R173. -/
theorem test_baFree_example :
    (stateOf (exec (.baFree 2) { ready with ctl := { ready.ctl with txn := 3, freeMask := 0b001 } })).ctl.freeMask =
      0b101 := by decide

/-- U3 and U4. -/
theorem test_baFree_refused :
    refusalOf (exec (.baFree 1) ready) = some .freeOfMissingBuffer ∧
    refusalOf (exec (.baFree 0) { ready with ctl := { ready.ctl with txReq := 1 } }) = some .freeOfOwnedBuffer := by decide

/-! ### CM.INIT, CM.SLEEP, CM.WAKE, CM.ERRCNT -/

/-- V-CM1 (R187). -/
theorem test_cmInit_vcm1 :
    ready.ctl = { ControlRegs.reset with
      mode := .normal, txn := 1, rxn := 2, hnd := 3, freeMask := 1, rxArmed := 3, ie := 7, btr := 0x165, xcvrEn := true } ∧
    ready.trace = [.xcvr true] := by decide

/-- P5 step 10: a mode read-back mismatch leaves every control register at its reset value. -/
theorem test_cmInit_mismatch :
    (stateOf (exec .cmInit { ready with inp := ⟨0b0111, true⟩ })).ctl = ControlRegs.reset ∧
    (stateOf (exec .cmInit { ready with inp := ⟨0b0111, true⟩ })).trace = [.xcvr true, .xcvr false] ∧
    (stateOf (exec .cmInit { ready with inp := ⟨0b0111, true⟩ })).res.code = .hardwareFault := by decide

/-- P3 steps 1 and 2. -/
theorem test_cmSleep_p3 :
    (stateOf (exec .cmSleep { ready with inp := ⟨0, true⟩ })).ctl = ready.ctl ∧
    (stateOf (exec .cmSleep { ready with inp := ⟨8, true⟩ })).ctl =
      { ready.ctl with mode := .sleep, xcvrEn := false } := by decide

/-- P3 steps 3 and 4. -/
theorem test_cmWake_p3 :
    (stateOf (exec .cmWake { ready with
      inp := ⟨0, true⟩, ctl := { ready.ctl with mode := .sleep, xcvrEn := false } })).ctl =
      { ready.ctl with mode := .listenOnly, xcvrEn := false } ∧
    (stateOf (exec .cmWake { ready with
      inp := ⟨8, true⟩, ctl := { ready.ctl with mode := .listenOnly, xcvrEn := false } })).ctl = ready.ctl := by decide

theorem test_cmErrcnt :
    (stateOf (exec .cmErrcnt (backendMove (.counters 96 7) ready))).res.tec = 96 ∧
    (stateOf (exec .cmErrcnt (backendMove (.counters 96 7) ready))).res.recv = 7 := by decide

/-! ### TX.SEND, TX.SENDR -/

/-- The end state of V-TX1. -/
def sent : State := stateOf (exec (.txSend 0) (withFrame 0x123 false 2 ready))

/-- V-TX1. -/
theorem test_txSend_vtx1 :
    sent.mem = [(0, 0x24), (1, 0x60), (2, 0), (3, 0), (4, 2), (5, 0xAA), (6, 0xBB)] ∧
    sent.ctl = { ready.ctl with freeMask := 0, txReq := 1 } ∧ sent.res.code = .ok ∧
    sent.trace = [.xcvr true, .requestSend 0] := by decide

/-- V-TX3: not accepted; the slot keeps the image, the buffer is free again. -/
theorem test_txSend_vtx3 :
    (stateOf (exec (.txSend 0) (withFrame 0x123 false 2 { ready with inp := ⟨0xF, false⟩ }))).ctl = ready.ctl ∧
    (stateOf (exec (.txSend 0) (withFrame 0x123 false 2 { ready with inp := ⟨0xF, false⟩ }))).mem = sent.mem ∧
    (stateOf (exec (.txSend 0) (withFrame 0x123 false 2 { ready with inp := ⟨0xF, false⟩ }))).res.code = .busy := by decide

/-- V-TX12: `OP_LEN` is not read. -/
theorem test_txSendr_vtx12 :
    (stateOf (exec (.txSendr 0) (withFrame 0x555 false 200 ready))).mem =
      [(0, 0xAA), (1, 0xB0), (2, 0), (3, 0), (4, 0)] := by decide

/-- V-TX14: refused outside `Normal`. -/
theorem test_txSendr_refused :
    refusalOf (exec (.txSendr 0) { ready with ctl := { ready.ctl with mode := .sleep } }) =
      some (.commandOutsideItsMode .sleep) := by decide

/-! ### IS.DISPATCH -/

/-- V-IS2 with a transmit completion beside it: transmit before receive, header and one data byte. -/
theorem test_isDispatch_vis2 :
    (stateOf (exec .isDispatch
      (backendMove (.complete 0) (backendMove (.deliver 1 (rawB [0, 0xE0, 0, 0, 1, 1])) sent)))).trace =
      [.xcvr true, .requestSend 0, .txHandler 0, .rxHandler 1 ⟨.data, 0x7, false, 1, [1]⟩, .rearm 1] := by decide

/-- P6: a completion of buffer 1 after the snapshot, before its turn, is lost. -/
theorem test_isDispatch_p6 :
    (stateOf (exec .isDispatch { ready with
      ctl := { ready.ctl with txn := 2, rxn := 1, freeMask := 0, txReq := 0b10, status := 1 }
      gaps := [[], [.backend (.complete 1)]] })).ctl =
      { ready.ctl with txn := 2, rxn := 1, freeMask := 0b01, txReq := 0, status := 0 } := by decide

/-! ### The step -/

theorem test_step_runs_command :
    stateOf (step (State.reset.withFetchWord 8 0x30)) = stateOf (exec .fcEncd { State.reset with cmd := 0x30 }) ∧
    (stateOf (step (State.reset.withFetchWord 8 0x30))).cmd = 0x30 := by decide

/-- P5 step 1: a reserved word writes the code only. -/
theorem test_step_reserved :
    stateOf (step (State.reset.withFetchWord 8 0x00)) =
      { State.reset with res := { ResultRegs.reset with code := .invalidArgument } } := by decide

/-! ### Witnesses: for each statement with hypotheses a state and operands that meet them -/

def isNext (o : Out) : Bool :=
  match o with
  | .next _ => true
  | .fault _ => false
  | .refused _ => false

theorem next_of_isNext {o : Out} (h : isNext o = true) : o = .next (stateOf o) := by
  cases o with
  | next s => rfl
  | fault r => cases h
  | refused r => cases h

/-- `s` with one move scheduled. -/
def withMove (m : Move) (s : State) : State := { s with agenda := [m] }

/-- `s` with other agents' moves at its first two boundaries, a dispatch between them. -/
def withGaps (s : State) : State :=
  { s with gaps := [[.backend (.deliver 0 (rawB [0xAA, 0xB0, 0, 0, 3])), .takeIrq], [], [.backend .busError], [], [],
    [.backend (.verdicts 0xF true)]] }

/-- Eight transmit buffers, all free. -/
def eight : State :=
  { ready with
    ops := { ready.ops with id := 0x7FF, ext := false, len := 8 }
    ctl := { ready.ctl with txn := 8, rxn := 0, freeMask := 0xFF, rxArmed := 0, ie := 0xFF } }

theorem masks_below {m : Mask} {n : Nat} (h : ∀ k : Fin 8, n ≤ k.val → m.getLsbD k.val = false) :
    ∀ k, n ≤ k → m.getLsbD k = false := by
  intro k hk
  by_cases h8 : k < 8
  · exact h ⟨k, h8⟩ hk
  · exact BitVec.getLsbD_of_ge _ _ (by omega)

theorem ready_buffers : BuffersInv ready := ⟨masks_below (by decide), masks_below (by decide), masks_below (by decide)⟩
theorem ready_counts : CountsInv ready := ⟨by decide, by decide⟩
theorem ready_mode : ModeInv ready := ⟨by decide, by decide, by decide, by decide, by decide, by decide⟩
theorem ready_timing : TimingInv ready := ⟨by decide⟩
theorem sent_buffers : BuffersInv sent := ⟨masks_below (by decide), masks_below (by decide), masks_below (by decide)⟩
theorem sent_counts : CountsInv sent := ⟨by decide, by decide⟩
theorem sent_memory : MemoryInv sent := by
  refine ⟨by decide, ?_⟩
  rw [test_txSend_vtx1.1]
  decide

theorem witness_DecodeAndEncodeAgree :
    (Instr.baAlloc 15).wellFormed = true ∧ decode 0x6F = .command (.baAlloc 15) := by decide

theorem witness_ReservedWordAnswersInvalidArgument :
    cfgWf (withMove (.command 0x11) ready).cfg = true ∧ (withMove (.command 0x11) ready).agenda = .command 0x11 :: [] ∧
    decode 0x11 = .reserved .nonzeroIdx := by decide

theorem witness_StepRunsDecodedCommand :
    cfgWf (withMove (.command 0x6F) ready).cfg = true ∧ (withMove (.command 0x6F) ready).agenda = .command 0x6F :: [] ∧
    decode 0x6F = .command (.baAlloc 15) := by decide

theorem witness_StepPerformsOtherMoves_moves :
    cfgWf ready.cfg = true ∧
    (withMove (.operand (.data 7 0xAB)) ready).agenda = .operand (.data 7 0xAB) :: [] ∧
    (withMove (.backend .busError) ready).agenda = .backend .busError :: [] ∧
    (withMove .hardwareReset ready).agenda = .hardwareReset :: [] := by decide

theorem witness_StepPerformsOtherMoves_irq :
    (withMove .takeIrq (withStatus 4 ready)).agenda = .takeIrq :: [] ∧ irq (withMove .takeIrq (withStatus 4 ready)) = true ∧
    irq (withMove .takeIrq (withStatus 0x10000 ready)) = false ∧
    ready.agenda = [] ∧ irq (withStatus 1 ready) = true ∧ irq ready = false := by decide

theorem witness_IllFormedConfigurationIsRefused :
    cfgWf { cfgB with bufCap := 16 } = true ∧ cfgWf { ready with cfg := { cfgB with bufCap := 17 } }.cfg = false := by
  decide

/-- V-BT4 (`Q = 1`) and V-BT16 (`Q = BRP_MAX + 1`). -/
theorem witness_BtComputeAnswersFieldsOrInvalidTiming_legal :
    cfgWf cfgB = true ∧ TimingLegal cfgB initOps 1 ∧ cfgWf cfgB16 = true ∧
    TimingLegal cfgB16 { initOps with br := 15625, ph1 := 3, ph2 := 2 } 64 := by
  unfold TimingLegal
  decide

/-- V-BT10: `ph2 > sjw` fails. -/
theorem witness_BtComputeAnswersFieldsOrInvalidTiming_illegal :
    ∀ Q, ¬ TimingLegal cfgB16 { initOps with sjw := 2, prop := 1, ph1 := 1, ph2 := 2 } Q := by
  rintro Q ⟨_, h, _⟩
  revert h
  decide

theorem witness_BtComputeInvertsExactly :
    cfgWf (fresh cfgB).cfg = true ∧ exec .btCompute (fresh cfgB) = .next (stateOf (exec .btCompute (fresh cfgB))) ∧
    (stateOf (exec .btCompute (fresh cfgB))).res.code = .ok :=
  ⟨by decide, next_of_isNext (by decide), by decide⟩

theorem witness_BtComputeIsPure :
    ready.cfg = (fresh cfgB).cfg ∧ ready.ops.br = (fresh cfgB).ops.br ∧ ready.ops.sjw = (fresh cfgB).ops.sjw ∧
    ready.ops.prop = (fresh cfgB).ops.prop ∧ ready.ops.ph1 = (fresh cfgB).ops.ph1 ∧
    ready.ops.ph2 = (fresh cfgB).ops.ph2 ∧ ready ≠ fresh cfgB := by decide

theorem witness_FcEncdAnswersDataImage :
    (withFrame 0x7FF false 8 ready).ops.len.toNat ≤ 8 ∧ 8 < (withFrame 0x7FF false 9 ready).ops.len.toNat := by decide

theorem witness_FcEncrAnswersRemoteImage :
    (withFrame 0x7FF false 0 ready).ops.len.toNat ≤ 8 ∧ 8 < (withFrame 0x7FF false 255 ready).ops.len.toNat := by decide

/-- V-FC7 and V-FC6 as raw images, layout B. -/
theorem witness_FcDecAnswersMessage_bytes :
    ByteImageSays (withRaw [0xD5, 0xE8, 0xDE, 0xF5, 3, 0xDE, 0xAD, 0xBE] ready).ops.raw.bytes true false 0x1ABCDEF5 3 ∧
    ByteImageSays (withRaw [0xAA, 0xB0, 0, 0, 3] ready).ops.raw.bytes false true 0x555 3 := by
  unfold ByteImageSays
  decide

/-- V-FC10 as a raw image, layout W, and a length code above 8. -/
theorem witness_FcDecAnswersMessage_words :
    WordImageSays #v[0x32345678, 0x00150000, 0, 0] true true 0x12345678 5 ∧
    WordImageSays #v[0x048C0000, 0x000F0000, 0, 0] false false 0x123 8 := by
  unfold WordImageSays
  decide

theorem witness_DataFrameRoundTrip :
    (withFrame 0x7FF false 8 ready).ops.len.toNat ≤ 8 ∧ IdentifierLegal (withFrame 0x7FF false 8 ready).ops ∧
    IdentifierLegal (withFrame 0x1FFFFFFF true 0 ready).ops := by
  unfold IdentifierLegal
  decide

theorem witness_RemoteFrameRoundTrip :
    (withFrame 0x1FFFFFFF true 8 ready).ops.len.toNat ≤ 8 ∧ IdentifierLegal (withFrame 0x1FFFFFFF true 8 ready).ops ∧
    IdentifierLegal (withFrame 0 false 0 ready).ops := by
  unfold IdentifierLegal
  decide

theorem witness_CodecReadsOnlyOperands :
    Instr.fcEncr ∈ [Instr.fcEncd, .fcEncr, .fcDec] ∧ (withStatus 7 ready).ops = ready.ops ∧
    (withStatus 7 ready).cfg = ready.cfg ∧ (withStatus 7 ready).res = ready.res := by decide

theorem witness_BaAllocTakesTheRequestedBuffer :
    eight.ctl.freeMask.getLsbD 7 = true ∧ ¬ (15 ≤ 7 ∧ eight.ctl.freeMask.getLsbD 15 = true) ∧
    ¬ (0 ≤ 7 ∧ sent.ctl.freeMask.getLsbD 0 = true) := by decide

theorem witness_BaFreeSetsTheBitOrIsRefused :
    (7 < eight.ctl.txn.val ∧ eight.ctl.txReq.getLsbD 7 = false) ∧ ready.ctl.txn.val ≤ 1 ∧
    (0 < sent.ctl.txn.val ∧ sent.ctl.txReq.getLsbD 0 = true) := by decide

theorem witness_AllocatorExhaustion :
    eight.ctl.freeMask = lowMask eight.ctl.txn.val ∧ 7 < eight.ctl.txn.val ∧
    ({ eight with ctl := { eight.ctl with freeMask := 0 } }.ctl.freeMask = 0 ∧ eight.ctl.txReq.getLsbD 7 = false) := by
  decide

theorem witness_CmInitRejectsBadArguments_counts :
    cfgWf (fresh cfgB).cfg = true ∧ { initOps with txh := false }.txh = false ∧
    (fresh cfgB).cfg.bufCap < { initOps with txn := 7 }.txn.toNat + initOps.rxn.toNat ∧
    8 < { initOps with rxn := 9 }.rxn.toNat := by decide

theorem witness_CmInitRejectsBadArguments_timing :
    initOps.txh = true ∧ initOps.rxh = true ∧ initOps.txn.toNat ≤ 8 ∧ initOps.rxn.toNat ≤ 8 ∧
    initOps.txn.toNat + initOps.rxn.toNat ≤ cfgB.bufCap ∧ ∀ Q, ¬ TimingLegal cfgB { initOps with br := 0 } Q := by
  refine ⟨by decide, by decide, by decide, by decide, by decide, ?_⟩
  rintro Q ⟨_, _, _, _, _, _, h, _⟩
  revert h
  decide

theorem witness_CmInitBringsUpTheBlock :
    cfgWf (fresh cfgB).cfg = true ∧ InitArgumentsLegal (fresh cfgB) 1 ∧ (fresh cfgB).inp.rb = 0xF ∧
    InitArgumentsLegal { fresh cfgB with ops := { initOps with txn := 8, rxn := 0 } } 1 := by
  unfold InitArgumentsLegal TimingLegal
  decide

theorem witness_CmInitMismatchLeavesResetState :
    cfgWf ready.cfg = true ∧ InitArgumentsLegal { ready with inp := ⟨0b1101, true⟩ } 1 ∧
    { ready with inp := ⟨0b1101, true⟩ }.inp.rb ≠ 0xF := by
  unfold InitArgumentsLegal TimingLegal
  decide

theorem witness_CmSleepEntersSleepOrStays :
    ready.ctl.mode = .normal ∧ ready.inp.rb.getLsbD 3 = true ∧ { ready with inp := ⟨0, true⟩ }.inp.rb.getLsbD 3 = false ∧
    State.reset.ctl.mode ≠ .normal := by decide

/-- The end state of P3 step 2, and of the backend's wake move from there. -/
def asleep : State := stateOf (exec .cmSleep ready)

theorem witness_CmWakeEntersNormalOrListens :
    asleep.ctl.mode = .sleep ∧ (backendMove .wake asleep).ctl.mode = .listenOnly ∧ asleep.inp.rb.getLsbD 3 = true ∧
    { asleep with inp := ⟨7, true⟩ }.inp.rb.getLsbD 3 = false ∧ ready.ctl.mode ≠ .sleep ∧
    ready.ctl.mode ≠ .listenOnly := by decide

theorem witness_SleepThenWakeRestoresEverything :
    ready.ctl.mode = .normal ∧ ready.ctl.xcvrEn = true ∧ ready.inp.rb.getLsbD 3 = true := by decide

theorem witness_CommandsOutsideTheirMode : State.reset.ctl.txn = 0 ∧ asleep.ctl.mode ≠ .normal := by decide

/-- One step along each kind of edge. -/
theorem witness_ModeFollowsTheStateMachine :
    (stateOf (step (withMove (.command 0x80) (fresh cfgB)))).ctl.mode = .normal ∧
    (stateOf (step (withMove (.command 0x90) ready))).ctl.mode = .sleep ∧
    (stateOf (step (withMove (.backend .wake) asleep))).ctl.mode = .listenOnly ∧
    (stateOf (step (withMove .hardwareReset ready))).ctl.mode = .uninitialized := by decide

theorem eight_admitted (rtr : Bool) : SendAdmitted eight 7 (!rtr) := by
  unfold SendAdmitted SendArgumentsLegal IdentifierLegal
  revert rtr
  decide

theorem witness_AcceptedSendRequestsTransmission :
    eight.gaps = [] ∧ eight.inp.accept = true ∧ SendAdmitted eight 7 true ∧ SendAdmitted eight 7 false :=
  ⟨by decide, by decide, eight_admitted false, eight_admitted true⟩

theorem witness_UnacceptedSendFreesTheBuffer :
    { eight with inp := ⟨0xF, false⟩ }.gaps = [] ∧ { eight with inp := ⟨0xF, false⟩ }.inp.accept = false ∧
    SendAdmitted { eight with inp := ⟨0xF, false⟩ } 7 true := ⟨by decide, by decide, eight_admitted false⟩

/-- V-TX4 (index), V-TX6 (identifier), V-TX9 (no extended frames), V-TX2 (busy). -/
theorem witness_SendErrorsHaveNoSideEffects :
    ready.ctl.mode = .normal ∧ ¬ SendArgumentsLegal ready 1 false ∧
    ¬ SendArgumentsLegal (withFrame 0x800 false 0 ready) 0 true ∧
    (SendArgumentsLegal (withFrame 1 true 0 ready) 0 true ∧
      { cfgB with extSupported := false }.extSupported = false) ∧
    (SendArgumentsLegal sent 0 true ∧ (sent.ops.ext = true → sent.cfg.extSupported = true) ∧
      sent.ctl.freeMask.getLsbD 0 = false) := by
  unfold SendArgumentsLegal IdentifierLegal
  decide

theorem witness_SendCompletesUnderInterleaving :
    (withGaps (withFrame 0x123 false 2 ready)).ctl.mode = .normal ∧
    disciplinedGaps (withGaps (withFrame 0x123 false 2 ready)) = true := by decide

theorem witness_SendIsAtomicUnderConstrainedBackend :
    cfgWf (withGaps (withFrame 0x123 false 2 ready)).cfg = true ∧
    BuffersInv (withGaps (withFrame 0x123 false 2 ready)) ∧ CountsInv (withGaps (withFrame 0x123 false 2 ready)) ∧
    constrainedGaps (withGaps (withFrame 0x123 false 2 ready)) = true ∧
    SendAdmitted (withGaps (withFrame 0x123 false 2 ready)) 0 true ∧
    (withGaps (withFrame 0x123 false 2 ready)).ctl.txReq.getLsbD 0 = false ∧
    (withGaps (withFrame 0x123 false 2 ready)).ctl.status.getLsbD
      (txBit (withGaps (withFrame 0x123 false 2 ready)) 0) = false := by
  refine ⟨by decide, ⟨ready_buffers.1, ready_buffers.2, ready_buffers.3⟩, ⟨ready_counts.1, ready_counts.2⟩, by decide, ?_,
    by decide, by decide⟩
  unfold SendAdmitted SendArgumentsLegal IdentifierLegal
  decide

theorem witness_SendCompletionCycle :
    cfgWf (withFrame 0x123 false 2 ready).cfg = true ∧ CountsInv (withFrame 0x123 false 2 ready) ∧
    (withFrame 0x123 false 2 ready).gaps = [] ∧ (withFrame 0x123 false 2 ready).inp.accept = true ∧
    SendAdmitted (withFrame 0x123 false 2 ready) 0 true ∧ (withFrame 0x123 false 2 ready).ctl.status = 0 := by
  refine ⟨by decide, ⟨ready_counts.1, ready_counts.2⟩, by decide, by decide, ?_, by decide⟩
  unfold SendAdmitted SendArgumentsLegal IdentifierLegal
  decide

theorem witness_OnlyTheOwnerWritesASlot :
    (BackendMove.deliver 1 (rawB [0, 0xE0])).constrained = true ∧
    Memory.get (backendMove (.deliver 1 (rawB [0, 0xE0])) ready).mem 144 ≠ Memory.get ready.mem 144 ∧
    ready.ctl.txReq.getLsbD 0 = false ∧ ready.inp.accept = true ∧
    { ready with inp := ⟨0xF, false⟩ }.inp.accept = false ∧ 1 < ready.ctl.rxn.val ∧
    ready.ctl.rxArmed.getLsbD 1 = true ∧ ready.ctl.mode = .normal ∧
    (backendMove (.deliver 1 (rawB [0, 0xE0])) ready).ctl.rxArmed.getLsbD 1 = false := by decide

/-- A send with a delivery and a dispatch at its first boundary, and its store of the last slot. -/
theorem witness_OnlyTheOwnerWritesASlot_send :
    (withGaps eight).ctl.txReq.getLsbD 7 = false ∧ isNext (applicationGap (sendAllocate 7 (withGaps eight))) = true ∧
    isNext (sendWrite 7 false 2 [0xAA, 0xBB] (stateOf (applicationGap (sendAllocate 7 (withGaps eight))))) = true ∧
    isNext (applicationGap (stateOf
      (sendWrite 7 false 2 [0xAA, 0xBB] (stateOf (applicationGap (sendAllocate 7 (withGaps eight))))))) = true := by
  decide

theorem witness_OnlyTheOwnerWritesASlot_others :
    (∀ g ∈ ([] : List (List GapMove)), (∀ j raw, GapMove.backend (.deliver j raw) ∉ g) ∧
      ∀ sp j raw, GapMove.backend (.fillSlot sp j raw) ∉ g) ∧
    ready.gaps = [] ∧ isNext (exec .isDispatch ready) = true ∧ isNext (exec .cmInit (fresh cfgB)) = true :=
  ⟨by simp, by decide, by decide, by decide⟩

/-- V-IS3: a dispatch with two transmit and two receive events. -/
theorem witness_DispatchServesEveryEventInOrder :
    (withStatus 0x13000F { ready with ctl := { ready.ctl with txn := 2 } }).gaps = [] ∧
    servedTx (withStatus 0x13000F { ready with ctl := { ready.ctl with txn := 2 } }) = [0, 1] ∧
    servedRx (withStatus 0x13000F { ready with ctl := { ready.ctl with txn := 2 } }) = [0, 1] := by decide

theorem witness_DispatchCompletesAndClearsStatus :
    disciplinedGaps (withGaps (withStatus 0xFFFFFFFF ready)) = true := by decide

theorem witness_DeliveredFrameIsDecoded :
    1 < ready.ctl.rxn.val ∧ ready.ctl.rxArmed.getLsbD 1 = true ∧ ready.ctl.mode = .normal := by decide

/-- The first and the last boundary of a dispatch with one transmit and two receive buffers, a receive bit pending. -/
theorem witness_CompletionDuringDispatchIsLost :
    0 ≤ sent.ctl.txn.val + sent.ctl.rxn.val + 1 ∧ 4 ≤ sent.ctl.txn.val + sent.ctl.rxn.val + 1 ∧
    { sent with gaps := [[.backend (.complete 0)]] }.gaps = List.replicate 0 [] ++ [[.backend (.complete 0)]] ∧
    { sent with gaps := [[], [], [], [], [.backend (.complete 0)]] }.gaps =
      List.replicate 4 [] ++ [[.backend (.complete 0)]] ∧
    (withStatus 4 sent).ctl.status.getLsbD (txBit (withStatus 4 sent) 0) = false ∧
    sent.ctl.txReq.getLsbD 0 = true ∧ sent.ctl.freeMask.getLsbD 0 = false := by decide

/-- V-IS5: bit 3 would be the third receive buffer's. -/
theorem witness_UnrecognisedStatusIsClearedWithoutAction :
    (withStatus 8 ready).gaps = [] ∧
    ∀ k ∈ recognisedBits (withStatus 8 ready), (withStatus 8 ready).ctl.status.getLsbD k = false := by decide

/-- The first and the last boundary of a dispatch with one transmit and two receive buffers. -/
theorem witness_HandlerIssuedCommandIsRefused :
    ([] : List (List GapMove)).length ≤ ready.ctl.txn.val + ready.ctl.rxn.val + 1 ∧
    [[], [], [GapMove.takeIrq], []].length ≤ ready.ctl.txn.val + ready.ctl.rxn.val + 1 ∧
    (∀ g ∈ [[], [], [GapMove.takeIrq], []], g.all GapMove.disciplined = true) ∧
    [GapMove.backend .busError].all GapMove.disciplined = true ∧
    { ready with gaps := [[.handlerCommand 0xC0]] }.gaps = [] ++ ([] ++ .handlerCommand 0xC0 :: []) :: [] ∧
    { ready with gaps := [[], [], [.takeIrq], [], [.backend .busError, .handlerOperand (.len 9)]] }.gaps =
      [[], [], [.takeIrq], []] ++ ([.backend .busError] ++ .handlerOperand (.len 9) :: []) :: [] := by decide

theorem witness_BackendCompletesAndDelivers :
    cfgWf sent.cfg = true ∧ BuffersInv sent ∧ CountsInv sent ∧ sent.ctl.txReq.getLsbD 0 = true ∧
    ready.ctl.txReq.getLsbD 0 = false ∧ 1 < sent.ctl.rxn.val ∧ sent.ctl.rxArmed.getLsbD 1 = true ∧
    sent.ctl.mode = .normal ∧ ¬ (2 < sent.ctl.rxn.val) :=
  ⟨by decide, sent_buffers, sent_counts, by decide, by decide, by decide, by decide, by decide, by decide⟩

theorem witness_BackendErrorsCountersAndWake :
    cfgWf eight.cfg = true ∧ CountsInv eight ∧ (∀ j, j < eight.ctl.rxn.val → eight.ctl.rxArmed.getLsbD j = false) ∧
    (1 < ready.ctl.rxn.val ∧ ready.ctl.rxArmed.getLsbD 1 = true) ∧ asleep.ctl.mode = .sleep ∧
    ready.ctl.mode ≠ .sleep :=
  ⟨by decide, ⟨by decide, by decide⟩, by decide, by decide, by decide, by decide⟩

theorem witness_HardwareResetRestoresControlRegisters :
    cfgWf (withMove .hardwareReset sent).cfg = true ∧
    (withMove .hardwareReset sent).agenda = .hardwareReset :: [] := by decide

/-- A send as the next step, from a state with each invariant. -/
theorem witness_EveryStepKeeps :
    BuffersInv (withMove (.command 0xC0) ready) ∧ CountsInv (withMove (.command 0xC0) ready) ∧
    ModeInv (withMove (.command 0xC0) ready) ∧ TimingInv (withMove (.command 0xC0) ready) ∧
    step (withMove (.command 0xC0) ready) = .next (stateOf (step (withMove (.command 0xC0) ready))) :=
  ⟨⟨ready_buffers.1, ready_buffers.2, ready_buffers.3⟩, ⟨ready_counts.1, ready_counts.2⟩,
    ⟨ready_mode.1, ready_mode.2, ready_mode.3, ready_mode.4, ready_mode.5, ready_mode.6⟩, ⟨ready_timing.1⟩,
    next_of_isNext (by decide)⟩

/-- A delivery as the next step, from a state with a frame in a slot. -/
theorem witness_EveryStepKeepsSlotMemory :
    MemoryInv (withMove (.backend (.deliver 1 (rawB [0, 0xE0]))) sent) ∧
    step (withMove (.backend (.deliver 1 (rawB [0, 0xE0]))) sent) =
      .next (stateOf (step (withMove (.backend (.deliver 1 (rawB [0, 0xE0]))) sent))) :=
  ⟨⟨sent_memory.1, sent_memory.2⟩, next_of_isNext (by decide)⟩

theorem witness_ResetIsSafe : cfgWf cfgW = true := by decide

theorem witness_CommandsWriteNoOperandRegister :
    exec .fcDec ready = .next (stateOf (exec .fcDec ready)) ∧
    step (withMove .takeIrq ready) = .next (stateOf (step (withMove .takeIrq ready))) :=
  ⟨next_of_isNext (by decide), next_of_isNext (by decide)⟩

theorem witness_OnlyInitAbortsARequest :
    Instr.isDispatch ≠ .cmInit ∧
    (∀ g ∈ { sent with gaps := [[GapMove.backend (.complete 1)]] }.gaps, GapMove.backend (.complete 0) ∉ g) ∧
    exec .isDispatch { sent with gaps := [[.backend (.complete 1)]] } =
      .next (stateOf (exec .isDispatch { sent with gaps := [[.backend (.complete 1)]] })) ∧
    sent.ctl.txReq.getLsbD 0 = true := ⟨by decide, by decide, next_of_isNext (by decide), by decide⟩

theorem witness_OnlyInitWritesConfigurationRegisters :
    Instr.cmSleep ≠ .cmInit ∧ exec .cmSleep ready = .next (stateOf (exec .cmSleep ready)) :=
  ⟨by decide, next_of_isNext (by decide)⟩

theorem witness_CommandsThatNeverReturnAnError :
    exec (.baAlloc 0) ready = .next (stateOf (exec (.baAlloc 0) ready)) ∧
    exec (.baFree 0) ready = .next (stateOf (exec (.baFree 0) ready)) ∧
    exec .isDispatch (withGaps ready) = .next (stateOf (exec .isDispatch (withGaps ready))) :=
  ⟨next_of_isNext (by decide), next_of_isNext (by decide), next_of_isNext (by decide)⟩

/-- The last element of each array operand, and a scalar. -/
theorem witness_OperandWriteChangesItsRegisterOnly :
    cfgWf ready.cfg = true ∧ (withMove (.operand (.id 0x7FF)) ready).agenda = .operand (.id 0x7FF) :: [] ∧
    (withMove (.operand (.data 7 1)) ready).agenda = .operand (.data 7 1) :: [] ∧
    (withMove (.operand (.rawByte 12 1)) ready).agenda = .operand (.rawByte 12 1) :: [] ∧
    (withMove (.operand (.rawWord 3 1)) ready).agenda = .operand (.rawWord 3 1) :: [] := by decide

/-- The edges of what R67 admits in both layouts. -/
theorem witness_SlotAccessReadsAndStoresOrIsRefused :
    AccessAdmitted .B ⟨.TXS, 7, 12⟩ 1 ∧ ¬ AccessAdmitted .B ⟨.TXS, 7, 13⟩ 1 ∧ ¬ AccessAdmitted .B ⟨.TXS, 0, 0⟩ 0 ∧
    ¬ AccessAdmitted .B ⟨.RXS, 8, 0⟩ 1 ∧ AccessAdmitted .W ⟨.RXS, 7, 12⟩ 4 ∧ ¬ AccessAdmitted .W ⟨.RXS, 0, 16⟩ 4 ∧
    ¬ AccessAdmitted .W ⟨.RXS, 0, 2⟩ 4 := by
  unfold AccessAdmitted
  decide

theorem witness_BackendTransmitsTheStoredImage :
    constrainedGaps (withGaps eight) = true ∧ SendAdmitted (withGaps eight) 7 true ∧
    (stateOf (exec (.txSend 7) (withGaps eight))).res.code = .ok ∧
    (∀ m ∈ [BackendMove.busError, .complete 7], m.constrained = true) :=
  ⟨by decide, eight_admitted false, by decide, by decide⟩

theorem witness_CmInitKeepsSnapshotAndScan :
    exec .cmInit (fresh cfgB) = .next (stateOf (exec .cmInit (fresh cfgB))) := next_of_isNext (by decide)

/-- R67, U23: an access past the slot is refused. -/
theorem test_slotAccess_refused :
    refusalOf (memWrite ⟨.TXS, 0, 9⟩ [1, 2, 3, 4, 5] ready) = some .slotAccessNotAdmitted := by decide

end Sys2Proof.Tests
end

section
/-! O6: the well-formedness conditions of R7, R31 and R6 as propositions, and the refusal of every other configuration (U7). -/

namespace Sys2Proof.Machine

/-- R183: the pairs of counts, each at most 8, that fit the capacity. -/
theorem mem_acceptedCounts {cap T R : Nat} : (T, R) ∈ acceptedCounts cap ↔ T ≤ 8 ∧ R ≤ 8 ∧ T + R ≤ cap := by
  simp [acceptedCounts, Nat.lt_succ_iff, and_assoc]

/-- R7 for one pair of counts: a bit for every configured buffer, all of them distinct and below 32. -/
theorem irqBitsWf_iff {T R : Nat} {b : IrqBits} :
    irqBitsWf T R b = true ↔
      b.tx.length = T ∧ b.rx.length = R ∧ (b.tx ++ b.rx ++ [b.err, b.ovf, b.wake]).Nodup ∧
        ∀ k ∈ b.tx ++ b.rx ++ [b.err, b.ovf, b.wake], k < 32 := by
  simp only [irqBitsWf, Bool.and_eq_true, beq_iff_eq, List.all_eq_true, decide_eq_true_eq, distinct_iff_nodup, and_assoc]
  rw [and_comm (a := ∀ k ∈ _, k < 32)]

/-- R7 over the whole map: every pair of accepted counts has a well-formed row. -/
theorem all_irqBitsWf_iff {c : Cfg} :
    ((acceptedCounts c.bufCap).all fun p => irqBitsWf p.1 p.2 (irqBits c p.1 p.2)) = true ↔
      ∀ T R : Nat, T ≤ 8 → R ≤ 8 → T + R ≤ c.bufCap → irqBitsWf T R (irqBits c T R) = true := by
  simp only [List.all_eq_true, Prod.forall, mem_acceptedCounts, and_imp]

/-- R7, U7: the guard of the step. -/
theorem step_of_not_cfgWf {s : State} (h : cfgWf s.cfg = false) : step s = .refused .configurationIllFormed := by
  simp [step, guardedNext, h]

/-- Settles O6: the conjuncts of `cfgWf` are read off as propositions, the one on the map pair of counts by pair of counts;
the refusal is the guard of the step. -/
theorem illFormedConfigurationIsRefused : Obligations.IllFormedConfigurationIsRefused := by
  unfold Obligations.IllFormedConfigurationIsRefused
  refine ⟨fun c => ?_, fun s => step_of_not_cfgWf⟩
  simp only [cfgWf, Bool.and_eq_true, decide_eq_true_eq, all_irqBitsWf_iff, irqBitsWf_iff, and_assoc]

end Sys2Proof.Machine
end

section
/-! The set-up of the block, that is the configuration, the timing register, the counts, the handler flags and the enables:
the rule of preservation for a value that no part of a command changes, and what a command and a step can do to the set-up
(R20, R26, R27, R31, R33). -/

namespace Sys2Proof.Machine

/-- Everything one iteration of D1 can do: nothing but move the scan position, or free and report the buffer (R246). -/
theorem txEvent_cases (i : Nat) (s : State) :
    txEvent i s = setScan (.tx i) s ∨ txEvent i s = emit (.txHandler i) (freeBuffer i (setScan (.tx i) s)) := by
  unfold txEvent
  simp only
  split
  · exact .inr rfl
  · exact .inl rfl

/-- A value that depends on nothing a command writes, and that no part of a dispatch changes, is kept by every command but
`CM.INIT`. -/
theorem KeepCommand.of_proj {α : Type} (f : State → α) (a : α) (k : Keep (fun s => f s = a) (fun s => f s = a))
    (result : ∀ r s, f { s with res := r } = f s) (sending : ∀ p s, f (setSending p s) = f s)
    (take : ∀ i s, f (takeBuffer i s) = f s) (request : ∀ i s, f (requestSend i s) = f s)
    (free : ∀ i s, f (freeBuffer i s) = f s) (store : ∀ m s, f { s with mem := m } = f s)
    (mode : ∀ m s, f (setMode m s) = f s) (xcvr : ∀ b s, f (driveXcvr b s) = f s) : KeepCommand (fun s => f s = a) where
  dispatch := k
  result r s h := by rw [result, h]
  sending p s h := by rw [sending, h]
  take i s h := by rw [take, h]
  request i s _ h := by rw [request, h]
  free i s _ h := by rw [free, h]
  store s i img _ _ h := by rw [store, h]
  mode m s h := by rw [mode, h]
  xcvr b s h := by rw [xcvr, h]

/-! ### The operand registers -/

@[simp] theorem txEvent_ops (i : Nat) (s : State) : (txEvent i s).ops = s.ops := by
  rcases txEvent_cases i s with e | e <;> rw [e] <;> rfl

theorem keepCommand_ops (o : OperandRegs) : KeepCommand (fun s => s.ops = o) :=
  .of_proj (fun s => s.ops) o
    (.of_proj (fun s => s.ops) o (fun _ => rfl) backendMove_ops (fun _ => rfl) txEvent_ops (fun _ _ _ => rfl)
      (fun _ _ => rfl) (fun _ => rfl) (fun _ => rfl))
    (fun _ _ => rfl) (fun _ _ => rfl) (fun _ _ => rfl) (fun _ _ => rfl) (fun _ _ => rfl) (fun _ _ => rfl)
    (fun _ _ => rfl) (fun _ _ => rfl)

/-- R21: no command writes an operand register. -/
theorem exec_ops {i : Instr} {s t : State} (h : exec i s = .next t) : t.ops = s.ops := by
  refine (keepCommand_ops s.ops).exec (fun _ h => ?_) rfl h
  rcases execCmInit_cases s with ⟨c, _, e⟩ | ⟨f, _, _, e⟩ | ⟨f, _, _, e⟩ <;> rw [e] at h <;> cases h <;> rfl

/-! ### The set-up -/

/-- The configuration and the control registers that R26, R27, R31 and R33 let `CM.INIT` alone write. -/
structure Setup where
  cfg : Cfg
  btr : Word
  txn : Fin 9
  rxn : Fin 9
  hnd : BitVec 2
  ie  : Word

/-- The set-up of a state. -/
def setup (s : State) : Setup where
  cfg := s.cfg
  btr := s.ctl.btr
  txn := s.ctl.txn
  rxn := s.ctl.rxn
  hnd := s.ctl.hnd
  ie := s.ctl.ie

/-- Equal set-ups are equal registers. -/
theorem setup_eq_iff {s t : State} :
    setup t = setup s ↔ t.cfg = s.cfg ∧ t.ctl.btr = s.ctl.btr ∧ t.ctl.txn = s.ctl.txn ∧ t.ctl.rxn = s.ctl.rxn ∧
      t.ctl.hnd = s.ctl.hnd ∧ t.ctl.ie = s.ctl.ie := by
  simp only [setup, Setup.mk.injEq]

@[simp] theorem setup_backendMove (m : BackendMove) (s : State) : setup (backendMove m s) = setup s := by
  obtain ⟨htxn, hrxn, hhnd, _, hbtr, hie, _⟩ := backendMove_ctl_frame m s
  exact setup_eq_iff.2 ⟨backendMove_cfg m s, hbtr, htxn, hrxn, hhnd, hie⟩

@[simp] theorem setup_txEvent (i : Nat) (s : State) : setup (txEvent i s) = setup s := by
  rcases txEvent_cases i s with e | e <;> rw [e] <;> rfl

theorem keepCommand_setup (a : Setup) : KeepCommand (fun s => setup s = a) :=
  .of_proj setup a
    (.of_proj setup a (fun _ => rfl) setup_backendMove (fun _ => rfl) setup_txEvent (fun _ _ _ => rfl)
      (fun _ _ => rfl) (fun _ => rfl) (fun _ => rfl))
    (fun _ _ => rfl) (fun _ _ => rfl) (fun _ _ => rfl) (fun _ _ => rfl) (fun _ _ => rfl) (fun _ _ => rfl)
    (fun _ _ => rfl) (fun _ _ => rfl)

/-- Every command but `CM.INIT` leaves the set-up alone. -/
theorem exec_setup {i : Instr} {s t : State} (hi : i ≠ .cmInit) (h : exec i s = .next t) : setup t = setup s :=
  (keepCommand_setup (setup s)).exec (fun e => absurd e hi) rfl h

/-- What a command or a step can make of the set-up: the same, that of the reset values, or that of a bring-up whose
arguments passed the checks of R183. -/
def SetupChange (s t : State) : Prop :=
  setup t = setup s ∨ (t.cfg = s.cfg ∧ t.ctl = ControlRegs.reset) ∨
    ∃ (u : State) (f : TimingFields), u.cfg = s.cfg ∧ initChecks u = .ok f ∧ t.cfg = s.cfg ∧
      t.ctl = (initSucceeded f u).ctl

theorem SetupChange.cfg_eq {s t : State} (h : SetupChange s t) : t.cfg = s.cfg := by
  obtain h | ⟨h, _⟩ | ⟨_, _, _, _, h, _⟩ := h
  · exact (setup_eq_iff.1 h).1
  · exact h
  · exact h

theorem exec_setupChange {i : Instr} {s t : State} (h : exec i s = .next t) : SetupChange s t := by
  by_cases hi : i = .cmInit
  · subst hi
    change execCmInit s = .next t at h
    rcases execCmInit_cases s with ⟨c, _, e⟩ | ⟨f, _, _, e⟩ | ⟨f, hf, _, e⟩ <;> rw [e] at h <;> cases h
    · exact .inl rfl
    · exact .inr (.inl ⟨rfl, rfl⟩)
    · exact .inr (.inr ⟨s, f, rfl, hf, rfl, rfl⟩)
  · exact .inl (exec_setup hi h)

/-- A step changes the set-up as a command does; a hardware reset gives the reset values. The agenda and `CMD` are no part of
the set-up. -/
theorem step_setupChange {s t : State} (h : step s = .next t) : SetupChange s t := by
  obtain ⟨_, ⟨w, i, rest, _, _, h⟩ | ⟨w, _, rest, _, _, rfl⟩ | ⟨o, rest, _, rfl⟩ | ⟨b, rest, _, rfl⟩ | ⟨rest, _, rfl⟩ |
    ⟨rest, _, ⟨_, h⟩ | ⟨_, rfl⟩⟩⟩ := step_cases h
  · have hu := exec_setupChange h
    exact hu
  · exact .inl rfl
  · exact .inl rfl
  · exact .inl (setup_backendMove b _)
  · exact .inr (.inl ⟨rfl, rfl⟩)
  · have hu := exec_setupChange (i := .isDispatch) h
    exact hu
  · exact .inl rfl

theorem step_cfgWf {s t : State} (h : step s = .next t) : cfgWf s.cfg = true := (step_cases h).1

/-- Settles O53: no part of a command writes an operand register, and no change of the set-up touches the configuration. -/
theorem commandsWriteNoOperandRegister : Obligations.CommandsWriteNoOperandRegister := by
  unfold Obligations.CommandsWriteNoOperandRegister
  exact ⟨fun _ _ _ h => ⟨exec_ops h, (exec_setupChange h).cfg_eq⟩, fun _ _ h => (step_setupChange h).cfg_eq⟩

/-- Settles O55: the five registers are part of the set-up. -/
theorem onlyInitWritesConfigurationRegisters : Obligations.OnlyInitWritesConfigurationRegisters := by
  unfold Obligations.OnlyInitWritesConfigurationRegisters
  intro i s t hi h
  exact (setup_eq_iff.1 (exec_setup hi h)).2

end Sys2Proof.Machine
end

section
/-! The invariants of the counts, the enables and the timing register: a step changes the set-up in three ways, and each of
them keeps these invariants (R26, R31, R33). -/

namespace Sys2Proof.Machine

/-! ### Counts and enables -/

theorem CountsInv.of_setup_eq {s t : State} (hs : CountsInv s) (h : setup t = setup s) : CountsInv t := by
  obtain ⟨hcfg, _, htxn, hrxn, _, hie⟩ := setup_eq_iff.1 h
  exact ⟨by rw [htxn, hrxn, hcfg]; exact hs.fits, by rw [hie, hcfg, htxn, hrxn]; exact hs.enabled⟩

/-- R33, R46: with the reset values no buffer is configured and no interrupt is enabled. -/
theorem countsInv_of_ctl_reset {s : State} (hc : cfgWf s.cfg = true) (h : s.ctl = ControlRegs.reset) : CountsInv s := by
  constructor
  · rw [h]; exact Nat.zero_le _
  · rw [h]; exact (enableWord_none hc).symm

/-- R183: the counts that `CM.INIT` accepts fit the capacity. -/
theorem countsInv_of_initSucceeded {u t : State} {f : TimingFields} (hu : initChecks u = .ok f) (hcfg : t.cfg = u.cfg)
    (h : t.ctl = (initSucceeded f u).ctl) : CountsInv t := by
  obtain ⟨_, _, htxn, hrxn, hcap, _⟩ := initChecks_ok hu
  constructor
  · have hT : t.ctl.txn.val = u.ops.txn.toNat % 9 := by rw [h]; rfl
    have hR : t.ctl.rxn.val = u.ops.rxn.toNat % 9 := by rw [h]; rfl
    rw [hT, hR, hcfg]
    omega
  · rw [h, hcfg]; rfl

/-- Settles O48: the set-up of a step is the old one, the reset values, or a bring-up with accepted counts. -/
theorem everyStepKeepsCountsAndEnables : Obligations.EveryStepKeepsCountsAndEnables := by
  unfold Obligations.EveryStepKeepsCountsAndEnables
  intro s t hs h
  obtain he | ⟨hcfg, hctl⟩ | ⟨u, f, hu, hf, hcfg, hctl⟩ := step_setupChange h
  · exact hs.of_setup_eq he
  · exact countsInv_of_ctl_reset (by rw [hcfg]; exact step_cfgWf h) hctl
  · exact countsInv_of_initSucceeded hf (hcfg.trans hu.symm) hctl

/-! ### The timing register -/

/-- R31: fields of 7, 2, 3, 3 and 3 bits leave the reserved bits of the packed word 0. -/
theorem packTiming_reserved {f : TimingFields} (hb : f.brp < 128) (hs : f.sjw < 4) (hp : f.prop < 8) (h1 : f.ph1 < 8)
    (h2 : f.ph2 < 8) : packTiming f &&& btrReserved = 0 := by
  have eb : ∀ n < 128, BitVec.ofNat 32 (n <<< 16) &&& btrReserved = 0 := by decide
  have es : ∀ n < 4, BitVec.ofNat 32 (n <<< 12) &&& btrReserved = 0 := by decide
  have ep : ∀ n < 8, BitVec.ofNat 32 (n <<< 8) &&& btrReserved = 0 := by decide
  have e1 : ∀ n < 8, BitVec.ofNat 32 (n <<< 4) &&& btrReserved = 0 := by decide
  have e2 : ∀ n < 8, BitVec.ofNat 32 n &&& btrReserved = 0 := by decide
  simp only [packTiming, BitVec.ofNat_or, BitVec.and_or_distrib_right, eb _ hb, es _ hs, ep _ hp, e1 _ h1, e2 _ h2]
  rfl

/-- A field that passes its check in at most `m` bits is below `2 ^ m`. -/
theorem lt_of_segOk {bias n w m : Nat} (h : segOk bias n w = true) (hw : w ≤ m) : n - bias < 2 ^ m :=
  ((segOk_iff bias n w).1 h).2.trans_le (Nat.pow_le_pow_right (by omega) hw)

/-- What the calculator answers under a well-formed configuration packs with the reserved bits 0. -/
theorem computeTiming_reserved {c : Cfg} {t : TimingSpec} {f : TimingFields} (hc : cfgWf c = true)
    (h : computeTiming c t = some f) : packTiming f &&& btrReserved = 0 := by
  simp only [cfgWf, Bool.and_eq_true, decide_eq_true_eq, and_assoc] at hc
  obtain ⟨_, htq, _, _, hsjw, hprop, hph1, hph2, hbrp, _⟩ := hc
  obtain ⟨hseg, _, Q, _, _, hQ, rfl⟩ := (computeTiming_eq_some htq).1 h
  simp only [segmentsOk, Bool.and_eq_true, and_assoc] at hseg
  obtain ⟨_, _, ksjw, kprop, kph1, kph2⟩ := hseg
  have hb : Q - 1 < 128 := by omega
  exact packTiming_reserved hb (lt_of_segOk ksjw hsjw) (lt_of_segOk kprop hprop) (lt_of_segOk kph1 hph1)
    (lt_of_segOk kph2 hph2)

theorem timingInv_of_ctl_reset {s : State} (h : s.ctl = ControlRegs.reset) : TimingInv s :=
  ⟨by rw [h]; decide⟩

/-- Settles O50: only a bring-up writes `BTR` with a value other than 0, and that value is one the calculator packed. -/
theorem everyStepKeepsTimingReservedBits : Obligations.EveryStepKeepsTimingReservedBits := by
  unfold Obligations.EveryStepKeepsTimingReservedBits
  intro s t hs h
  obtain he | ⟨_, hctl⟩ | ⟨u, f, hu, hf, _, hctl⟩ := step_setupChange h
  · obtain ⟨_, hbtr, _⟩ := setup_eq_iff.1 he
    exact ⟨by rw [hbtr]; exact hs.reserved⟩
  · exact timingInv_of_ctl_reset hctl
  · obtain ⟨_, _, _, _, _, hcompute⟩ := initChecks_ok hf
    have hwf : cfgWf u.cfg = true := by rw [hu]; exact step_cfgWf h
    exact ⟨by rw [hctl]; exact computeTiming_reserved hwf hcompute⟩

end Sys2Proof.Machine
end

section
/-! The invariant of the buffer masks: every part of a dispatch, of a send and of a step sets mask bits of configured buffers
only (R28, R29, R30). -/

namespace Sys2Proof.Machine

/-! ### Masks below a count -/

/-- The bits of `v` at and above `n` are 0. -/
def ClearFrom (n : Nat) (v : Mask) : Prop := ∀ k, n ≤ k → v.getLsbD k = false

theorem ClearFrom.setBit {n i : Nat} {v : Mask} (h : ClearFrom n v) (hi : i < n) : ClearFrom n (setBit v i) := by
  intro k hk
  have hne : k ≠ i := by omega
  simp [h k hk, hne]

theorem ClearFrom.clearBit {n : Nat} {v : Mask} (h : ClearFrom n v) (i : Nat) : ClearFrom n (clearBit v i) := by
  intro k hk
  simp [h k hk]

theorem clearFrom_lowMask (n : Nat) : ClearFrom n (lowMask n) := by
  intro k hk
  simp [hk]

/-! ### What keeps the masks -/

/-- The invariant speaks of five registers only. -/
theorem BuffersInv.congr {s t : State} (h : BuffersInv s) (htxn : t.ctl.txn = s.ctl.txn) (hrxn : t.ctl.rxn = s.ctl.rxn)
    (hfree : t.ctl.freeMask = s.ctl.freeMask) (hreq : t.ctl.txReq = s.ctl.txReq)
    (harmed : t.ctl.rxArmed = s.ctl.rxArmed) : BuffersInv t where
  free := by rw [htxn, hfree]; exact h.free
  req := by rw [htxn, hreq]; exact h.req
  armed := by rw [hrxn, harmed]; exact h.armed

theorem BuffersInv.of_ctl_eq {s t : State} (h : BuffersInv s) (e : t.ctl = s.ctl) : BuffersInv t :=
  h.congr (by rw [e]) (by rw [e]) (by rw [e]) (by rw [e]) (by rw [e])

theorem BuffersInv.freeBuffer {s : State} (h : BuffersInv s) {i : Nat} (hi : i < s.ctl.txn.val) :
    BuffersInv (freeBuffer i s) where
  free := ClearFrom.setBit h.free hi
  req := h.req
  armed := h.armed

theorem BuffersInv.takeBuffer {s : State} (h : BuffersInv s) (i : Nat) : BuffersInv (takeBuffer i s) where
  free := ClearFrom.clearBit h.free i
  req := h.req
  armed := h.armed

theorem BuffersInv.requestSend {s : State} (h : BuffersInv s) {i : Nat} (hi : i < s.ctl.txn.val) :
    BuffersInv (requestSend i s) where
  free := h.free
  req := ClearFrom.setBit h.req hi
  armed := h.armed

theorem BuffersInv.rearm {s : State} (h : BuffersInv s) {j : Nat} (hj : j < s.ctl.rxn.val) : BuffersInv (rearm j s) where
  free := h.free
  req := h.req
  armed := ClearFrom.setBit h.armed hj

/-- The backend agent takes bits away from `TXREQ` and `RX_ARMED`, the stronger environment of R241 included. -/
theorem BuffersInv.backendMove {s : State} (h : BuffersInv s) (m : BackendMove) : BuffersInv (backendMove m s) where
  free := by simpa using h.free
  req k hk := backendMove_txReq_le m s k (h.req k (by simpa using hk))
  armed k hk := backendMove_rxArmed_le m s k (h.armed k (by simpa using hk))

theorem BuffersInv.txEvent {s : State} (h : BuffersInv s) {i : Nat} (hi : i < s.ctl.txn.val) :
    BuffersInv (txEvent i s) := by
  have hscan : BuffersInv (setScan (.tx i) s) := h.of_ctl_eq rfl
  rcases txEvent_cases i s with e | e <;> rw [e]
  · exact hscan
  · exact (hscan.freeBuffer hi).of_ctl_eq rfl

theorem buffersInv_of_ctl_reset {s : State} (h : s.ctl = ControlRegs.reset) : BuffersInv s := by
  constructor <;> intro k _ <;> rw [h] <;> exact BitVec.getLsbD_zero

/-- R182: a bring-up frees and arms exactly the configured buffers and requests none. -/
theorem buffersInv_initSucceeded (f : TimingFields) (s : State) : BuffersInv (initSucceeded f s) where
  free := clearFrom_lowMask _
  req _ _ := BitVec.getLsbD_zero
  armed := clearFrom_lowMask _

theorem keep_buffersInv : Keep BuffersInv BuffersInv where
  drop _ h := h.of_ctl_eq rfl
  back m _ h := h.backendMove m
  enter _ h := h.of_ctl_eq rfl
  tx _ _ hi h := h.txEvent hi
  rx j s m hj h := by
    have hlatch : BuffersInv (emit (.rxHandler j m) (latchMessage m (setScan (.rx j) s))) := h.of_ctl_eq rfl
    exact hlatch.rearm hj
  scan _ _ _ h := h.of_ctl_eq rfl
  count _ h := h.congr rfl rfl rfl rfl rfl
  leave _ h := h.congr rfl rfl rfl rfl rfl

theorem keepCommand_buffersInv : KeepCommand BuffersInv where
  dispatch := keep_buffersInv
  result _ _ h := h.of_ctl_eq rfl
  sending _ _ h := h.of_ctl_eq rfl
  take i _ h := h.takeBuffer i
  request _ _ hi h := h.requestSend hi
  free _ _ hi h := h.freeBuffer hi
  store _ _ _ _ _ h := h.of_ctl_eq rfl
  mode _ _ h := h.congr rfl rfl rfl rfl rfl
  xcvr _ _ h := h.congr rfl rfl rfl rfl rfl

theorem execCmInit_buffersInv {s t : State} (hs : BuffersInv s) (h : execCmInit s = .next t) : BuffersInv t := by
  rcases execCmInit_cases s with ⟨c, _, e⟩ | ⟨f, _, _, e⟩ | ⟨f, _, _, e⟩ <;> rw [e] at h <;> cases h
  · exact hs.of_ctl_eq rfl
  · exact buffersInv_of_ctl_reset rfl
  · exact buffersInv_initSucceeded f s

theorem exec_buffersInv (i : Instr) (s t : State) (hs : BuffersInv s) (h : exec i s = .next t) : BuffersInv t :=
  keepCommand_buffersInv.exec (fun _ => execCmInit_buffersInv hs) hs h

/-- Settles O47: every part of a step sets mask bits below the configured counts only, and the counts change only together
with the masks. -/
theorem everyStepKeepsBufferMasks : Obligations.EveryStepKeepsBufferMasks := by
  unfold Obligations.EveryStepKeepsBufferMasks
  intro s t hs h
  exact step_keeps (fun _ _ h => h.of_ctl_eq rfl) (fun _ _ h => h.of_ctl_eq rfl) (fun _ _ h => h.of_ctl_eq rfl)
    (fun _ _ h => h.of_ctl_eq rfl) (fun m _ h => h.backendMove m) exec_buffersInv (fun _ _ => buffersInv_of_ctl_reset rfl)
    hs h

end Sys2Proof.Machine
end

section
/-! An outstanding request survives every command but `CM.INIT`, unless the backend completes it (R29, R209, R286). -/

namespace Sys2Proof.Machine

/-- `TXREQ[k]` is 1. -/
def Requested (k : Fin 8) (s : State) : Prop := s.ctl.txReq.getLsbD k.val = true

/-- A backend move that is not the completion of buffer `k`. -/
def NotCompleting (k : Fin 8) (m : BackendMove) : Prop := m ≠ .complete k

section

variable {k : Fin 8} {s t : State}

theorem Requested.of_txReq_eq (h : Requested k s) (e : t.ctl.txReq = s.ctl.txReq) : Requested k t := by
  unfold Requested
  rw [e]
  exact h

theorem Requested.backendMove (h : Requested k s) {m : BackendMove} (hm : NotCompleting k m) :
    Requested k (backendMove m s) := by
  have hne : ∀ i : Fin 8, m = .complete i → i.val ≠ k.val := by
    rintro i rfl hik
    exact hm (by rw [Fin.ext hik])
  exact (backendMove_txReq m s k.val hne).trans h

@[simp] theorem txEvent_txReq (i : Nat) (s : State) : (txEvent i s).ctl.txReq = s.ctl.txReq := by
  rcases txEvent_cases i s with e | e <;> rw [e] <;> rfl

theorem rxEvent_txReq {j : Nat} (h : rxEvent j s = .next t) : t.ctl.txReq = s.ctl.txReq := by
  rcases rxEvent_cases h with ⟨_, rfl⟩ | ⟨_, m, _, rfl⟩ <;> rfl

/-- No step of a dispatch touches `TXREQ`. -/
theorem dispatch_requested (hA : AllowedGaps (NotCompleting k) s) (hs : Requested k s) (h : dispatch s = .next t) :
    Requested k t ∧ AllowedGaps (NotCompleting k) t :=
  dispatch_keeps (P := Requested k) (Q := Requested k) (fun _ h => h.of_txReq_eq rfl) (fun _ _ hm h => h.backendMove hm)
    (fun _ h => h.of_txReq_eq rfl) (fun i s _ h => h.of_txReq_eq (txEvent_txReq i s))
    (fun _ _ _ _ h he => h.of_txReq_eq (rxEvent_txReq he)) (fun _ h => h.of_txReq_eq rfl)
    (fun _ h => h.of_txReq_eq rfl) hA hs h

/-- R204: the request step of a send sets the bit of its buffer or touches none. -/
theorem Requested.sendRequest (h : Requested k s) (i : Nat) : Requested k (sendRequest i s) := by
  rcases sendRequest_cases i s with ⟨_, e⟩ | ⟨_, e⟩ <;> rw [e]
  · have hset : (setBit s.ctl.txReq i).getLsbD k.val = true := by
      rw [getLsbD_setBit, show s.ctl.txReq.getLsbD k.val = true from h, Bool.true_or]
    exact hset
  · exact h.of_txReq_eq rfl

theorem sendSteps_requested {i : Nat} {rtr : Bool} {dlc : OperandRegs → Nat} {data : OperandRegs → List Byte}
    (hi : i < s.ctl.txn.val) (hd : ∀ o, (data o).length ≤ 8) (hA : AllowedGaps (NotCompleting k) s) (hs : Requested k s)
    (h : sendSteps i rtr dlc data (sendAllocate i s) = .next t) : Requested k t := by
  have h8 : i < 8 := by have := s.ctl.txn.isLt; omega
  exact sendSteps_keeps (s := sendAllocate i s) (A := NotCompleting k) (P := Requested k) (R := Requested k)
    (fun _ h => h.of_txReq_eq rfl) (fun _ _ hm h => h.backendMove hm) (fun _ _ hA h hd => dispatch_requested hA h hd) h8 hd
    (fun _ _ _ h => h.of_txReq_eq rfl) (fun _ h => h.sendRequest i) (allowed_of_gaps_eq hA rfl) (hs.of_txReq_eq rfl) h

/-- Every command but `CM.INIT`: those of one step leave `TXREQ` alone, the others let the backend in at their boundaries. -/
theorem exec_requested {i : Instr} (hi : i ≠ .cmInit) (hA : AllowedGaps (NotCompleting k) s) (hs : Requested k s)
    (h : exec i s = .next t) : Requested k t := by
  cases i with
  | btCompute => cases h; split <;> exact hs.of_txReq_eq rfl
  | fcEncd => cases h; split <;> exact hs.of_txReq_eq rfl
  | fcEncr => cases h; split <;> exact hs.of_txReq_eq rfl
  | fcDec => cases h; exact hs.of_txReq_eq rfl
  | baAlloc i =>
    rcases execBaAlloc_cases i s with ⟨_, e⟩ | ⟨_, e⟩ <;> rw [exec, e] at h <;> cases h <;> exact hs.of_txReq_eq rfl
  | baFree i =>
    obtain ⟨_, _, rfl⟩ := execBaFree_cases h
    exact hs.of_txReq_eq rfl
  | cmInit => exact absurd rfl hi
  | cmSleep => obtain ⟨_, ⟨_, rfl⟩ | ⟨_, rfl⟩⟩ := execCmSleep_cases h <;> exact hs.of_txReq_eq rfl
  | cmWake => obtain ⟨_, ⟨_, rfl⟩ | ⟨_, rfl⟩⟩ := execCmWake_cases h <;> exact hs.of_txReq_eq rfl
  | cmErrcnt => cases h; exact hs.of_txReq_eq rfl
  | txSend i =>
    obtain ⟨_, ⟨c, _, rfl⟩ | ⟨hn, h⟩⟩ := execTxSend_cases h
    · exact hs.of_txReq_eq rfl
    · exact sendSteps_requested (sendError_none hn).1 payload_length hA hs h
  | txSendr i =>
    obtain ⟨_, ⟨c, _, rfl⟩ | ⟨hn, h⟩⟩ := execTxSendr_cases h
    · exact hs.of_txReq_eq rfl
    · exact sendSteps_requested (sendError_none hn).1 (by simp) hA hs h
  | isDispatch => exact (dispatch_requested hA hs h).1

end

/-- Settles O54: the boundaries that do not complete buffer `k` allow only moves that keep its request. -/
theorem onlyInitAbortsARequest : Obligations.OnlyInitAbortsARequest := by
  unfold Obligations.OnlyInitAbortsARequest
  intro i s t k hi hgaps h hs
  have hA : AllowedGaps (NotCompleting k) s := by
    rintro g hg b hb rfl
    exact hgaps g hg hb
  exact exec_requested hi hA hs h

end Sys2Proof.Machine
end

section
/-! The interrupt request line, the state after hardware reset, and an operand write (R21, R34, R46, R271). -/

namespace Sys2Proof.Machine

/-! ### The interrupt request line -/

/-- R34: when the request line is 1. -/
theorem irq_eq_true_iff (s : State) : irq s = true ↔ s.ctl.status &&& s.ctl.ie ≠ 0 ∧ s.hid.dstate = .idle := by
  simp only [irq, Bool.and_eq_true, bne_iff_ne, beq_iff_eq]

/-- R34: inside a dispatch the request line is 0. -/
theorem irq_eq_false_of_active {s : State} (h : s.hid.dstate = .active) : irq s = false := by
  rw [Bool.eq_false_iff, ne_eq, irq_eq_true_iff, h]
  rintro ⟨_, hidle⟩
  cases hidle

/-- Settles O42: the line is the conjunction of R34; entry and return are the updates of R251 and R252. -/
theorem interruptLineEntryAndReturn : Obligations.InterruptLineEntryAndReturn := by
  unfold Obligations.InterruptLineEntryAndReturn
  exact fun s => ⟨irq_eq_true_iff s, rfl, irq_eq_false_of_active rfl, rfl, rfl, rfl⟩

/-! ### The state after hardware reset -/

/-- Settles O45: the values are those of the table of R46; with `STATUS` and `IE` 0 the line is 0. -/
theorem resetLeavesTheBlockUninitialized : Obligations.ResetLeavesTheBlockUninitialized := by
  unfold Obligations.ResetLeavesTheBlockUninitialized
  have hirq : irq State.reset = false := by decide
  exact ⟨rfl, rfl, hirq, rfl, rfl⟩

theorem modeInv_resetWith (c : Cfg) : ModeInv (State.resetWith c) where
  settled := nofun
  idle := rfl
  noSend := rfl
  xcvr := rfl
  hnd := rfl
  fresh _ := ⟨rfl, rfl, rfl, rfl⟩

theorem memoryInv_resetWith (c : Cfg) : MemoryInv (State.resetWith c) where
  canonical := rfl
  placed := nofun

/-- Settles O52: the control registers hold the reset values, no buffer is configured and no slot byte is written. -/
theorem resetIsSafe : Obligations.ResetIsSafe := by
  unfold Obligations.ResetIsSafe
  refine ⟨rfl, fun c hc => ?_⟩
  exact {
    buffers := buffersInv_of_ctl_reset rfl
    counts := countsInv_of_ctl_reset hc rfl
    mode := modeInv_resetWith c
    timing := timingInv_of_ctl_reset rfl
    memory := memoryInv_resetWith c }

/-! ### Operand writes -/

/-- R21: the step that takes an operand write. -/
theorem step_operand {s : State} {o : OperandWrite} {rest : List Move} (hc : cfgWf s.cfg = true)
    (ha : s.agenda = .operand o :: rest) : step s = .next { s with agenda := rest, ops := writeOperand o s.ops } := by
  simp only [step, guardedNext, hc, if_true, runNext, ha, runMove]

/-- A write of one element of an array changes that element only. -/
theorem vector_set_getElem {α : Type} {n : Nat} (d : Vector α n) (k : Fin n) (v : α) (j : Fin n) :
    (d.set k v)[j] = if j = k then v else d[j] := by
  simp only [Fin.getElem_fin, Vector.getElem_set, Fin.ext_iff, eq_comm]

/-- Settles O57: the write is `writeOperand`, register by register, and in an array element by element. -/
theorem operandWriteChangesItsRegisterOnly : Obligations.OperandWriteChangesItsRegisterOnly := by
  unfold Obligations.OperandWriteChangesItsRegisterOnly
  intro s rest hc
  refine ⟨?id, ?ext, ?len, ?data, ?rawByte, ?rawWord, ?br, ?sjw, ?prop, ?ph1, ?ph2, ?txn, ?rxn, ?txh, ?rxh⟩
  case data => exact fun k v ha => ⟨s.ops.data.set k v, vector_set_getElem _ k v, step_operand hc ha⟩
  case rawByte => exact fun k v ha => ⟨s.ops.raw.bytes.set k v, vector_set_getElem _ k v, step_operand hc ha⟩
  case rawWord => exact fun k v ha => ⟨s.ops.raw.words.set k v, vector_set_getElem _ k v, step_operand hc ha⟩
  all_goals exact fun v ha => step_operand hc ha

end Sys2Proof.Machine
end

section
/-! The slot memory: every step keeps it canonical and placed, and what `MemRead` and `MemWrite` do where the access is
admitted and elsewhere (R60 to R63, R67). -/

namespace Sys2Proof.Machine

/-! ### What keeps the slot memory -/

/-- The invariant speaks of the memory and the layout only. -/
theorem MemoryInv.congr {s t : State} (h : MemoryInv s) (hmem : t.mem = s.mem) (hcfg : t.cfg = s.cfg) : MemoryInv t where
  canonical := by rw [hmem]; exact h.canonical
  placed := by rw [hmem, hcfg]; exact h.placed

/-- R67: a store that is admitted keeps the invariant. -/
theorem MemoryInv.store {s t : State} (h : MemoryInv s) {a : SlotAddr} {bs : List Byte}
    (ha : admitted s.cfg.layout a bs.length = true) (hmem : t.mem = Memory.setList s.mem a.key bs)
    (hcfg : t.cfg = s.cfg) : MemoryInv t where
  canonical := by rw [hmem]; exact Memory.wf_setList a.key bs h.canonical
  placed c hc := by
    rw [hmem] at hc
    rw [hcfg]
    rcases Memory.mem_setList hc with hold | ⟨hle, hlt⟩
    · exact h.placed c hold
    · have hkey := keyExists_of_admitted ha (d := c.1 - a.key) (by omega)
      rwa [Nat.add_sub_cancel' hle] at hkey

/-- R61, R67: a whole slot may be stored from offset 0. -/
theorem admitted_wholeSlot (l : Layout) (sp : Space) (n : Fin 8) : admitted l ⟨sp, n.val, 0⟩ (imgBytes l) = true := by
  cases l <;> simp [admitted, imgBytes]

/-- A backend move stores a whole slot at most, the stronger environment of R241 included. -/
theorem MemoryInv.backendMove {s : State} (h : MemoryInv s) (m : BackendMove) : MemoryInv (backendMove m s) := by
  rcases backendMove_mem m s with e | ⟨sp, n, raw, e, _⟩
  · exact h.congr e (backendMove_cfg m s)
  · have ha := admitted_wholeSlot s.cfg.layout sp n
    rw [← imageBytes_length s.cfg.layout raw] at ha
    exact h.store ha e (backendMove_cfg m s)

@[simp] theorem txEvent_mem (i : Nat) (s : State) : (txEvent i s).mem = s.mem := by
  rcases txEvent_cases i s with e | e <;> rw [e] <;> rfl

@[simp] theorem txEvent_cfg (i : Nat) (s : State) : (txEvent i s).cfg = s.cfg := by
  rcases txEvent_cases i s with e | e <;> rw [e] <;> rfl

theorem keep_memoryInv : Keep MemoryInv MemoryInv where
  drop _ h := h.congr rfl rfl
  back m _ h := h.backendMove m
  enter _ h := h.congr rfl rfl
  tx i s _ h := h.congr (txEvent_mem i s) (txEvent_cfg i s)
  rx _ _ _ _ h := h.congr rfl rfl
  scan _ _ _ h := h.congr rfl rfl
  count _ h := h.congr rfl rfl
  leave _ h := h.congr rfl rfl

theorem keepCommand_memoryInv : KeepCommand MemoryInv where
  dispatch := keep_memoryInv
  result _ _ h := h.congr rfl rfl
  sending _ _ h := h.congr rfl rfl
  take _ _ h := h.congr rfl rfl
  request _ _ _ h := h.congr rfl rfl
  free _ _ _ h := h.congr rfl rfl
  store _ _ _ _ ha h := h.store ha rfl rfl
  mode _ _ h := h.congr rfl rfl
  xcvr _ _ h := h.congr rfl rfl

/-- R47: `CM.INIT` leaves the slots alone, whatever it answers. -/
theorem execCmInit_mem {s t : State} (h : execCmInit s = .next t) : t.mem = s.mem := by
  rcases execCmInit_cases s with ⟨c, _, e⟩ | ⟨f, _, _, e⟩ | ⟨f, _, _, e⟩ <;> rw [e] at h <;> cases h <;> rfl

theorem exec_memoryInv (i : Instr) (s t : State) (hs : MemoryInv s) (h : exec i s = .next t) : MemoryInv t :=
  keepCommand_memoryInv.exec (fun _ hinit => hs.congr (execCmInit_mem hinit) (exec_setupChange h).cfg_eq) hs h

/-- R46: after a hardware reset no slot byte is written. -/
theorem memoryInv_hardwareReset (s : State) : MemoryInv (hardwareReset s) :=
  (memoryInv_resetWith s.cfg).congr rfl rfl

/-- Settles O51: a step stores admitted runs only, those of the send and whole slots of the backend, or empties the memory. -/
theorem everyStepKeepsSlotMemory : Obligations.EveryStepKeepsSlotMemory := by
  unfold Obligations.EveryStepKeepsSlotMemory
  intro s t hs h
  exact step_keeps (fun _ _ h => h.congr rfl rfl) (fun _ _ h => h.congr rfl rfl) (fun _ _ h => h.congr rfl rfl)
    (fun _ _ h => h.congr rfl rfl) (fun m _ h => h.backendMove m) exec_memoryInv (fun s _ => memoryInv_hardwareReset s)
    hs h

/-! ### MemRead and MemWrite -/

/-- R67: the model's check is the condition of the rule. -/
theorem admitted_iff {l : Layout} {a : SlotAddr} {n : Nat} : admitted l a n = true ↔ AccessAdmitted l a n := by
  cases l <;> simp only [admitted, AccessAdmitted, Bool.and_eq_true, decide_eq_true_eq, and_assoc]

theorem admitted_eq_false_iff {l : Layout} {a : SlotAddr} {n : Nat} : admitted l a n = false ↔ ¬ AccessAdmitted l a n := by
  rw [← admitted_iff, Bool.not_eq_true]

/-- What a place inside a stored run reads as. -/
theorem readByte_of_stored {s : State} {m : List Host.Cell} {k d : Nat} {bs : List Byte}
    (hs : s.mem = Memory.setList m k bs) (hd : d < bs.length) : readByte s (k + d) = bs[d] := by
  have hget : Memory.get s.mem (k + d) = some bs[d] := by
    rw [hs, Memory.get_setList, if_pos (by omega), Nat.add_sub_cancel_left, List.getElem?_eq_getElem hd]
  rw [readByte, hget, Option.getD_some]

/-- R62, R63: a read of the places just stored gives the stored bytes back. -/
theorem memRead_of_stored {s : State} {m : List Host.Cell} {a : SlotAddr} {v : List Byte}
    (ha : admitted s.cfg.layout a v.length = true) (hs : s.mem = Memory.setList m a.key v) :
    memRead s a v.length = .ok v := by
  rw [memRead_of_admitted ha]
  congr 1
  refine List.ext_getElem (by simp) fun d _ hd => ?_
  rw [List.getElem_map, List.getElem_range, readByte_of_stored hs hd]

/-- Settles O58: an admitted write stores its run at the places of the access and a read gives it back; the check refuses every
other access. -/
theorem slotAccessReadsAndStoresOrIsRefused : Obligations.SlotAccessReadsAndStoresOrIsRefused := by
  unfold Obligations.SlotAccessReadsAndStoresOrIsRefused
  refine ⟨fun s a n => ⟨fun ha => ?read, fun ha => memRead_of_not_admitted (admitted_eq_false_iff.2 ha)⟩,
    fun s a v => ⟨fun ha => ?write, fun ha => memWrite_of_not_admitted (admitted_eq_false_iff.2 ha)⟩⟩
  case read =>
    exact ⟨_, memRead_of_admitted (admitted_iff.2 ha), by simp, fun d hd => by simp [hd]⟩
  case write =>
    have ha := admitted_iff.2 ha
    refine ⟨Memory.setList s.mem a.key v, memWrite_of_admitted ha, memRead_of_stored ha rfl, fun k hk => ?_⟩
    rw [Memory.get_setList, if_neg (by omega)]

end Sys2Proof.Machine
end

section
/-! The two sends as one: the run of an admitted send between its boundaries, and its end in `Normal` whatever falls between
its steps (R73, R201, R224, R287). -/

namespace Sys2Proof.Machine

/-! ### One meaning for both sends -/

/-- The length code a send encodes: that of the operand, or 0 in a remote frame (R200, R207). -/
def sendDlc (rtr : Bool) (o : OperandRegs) : Nat := if rtr then 0 else o.len.toNat

/-- The data bytes a send encodes: the payload, or none in a remote frame (R200, R206). -/
def sendData (rtr : Bool) (o : OperandRegs) : List Byte := if rtr then [] else payload o

/-- The length check of step S1, which `TX.SENDR` does not make (R200, R206). -/
def sendLenOk (rtr : Bool) (o : OperandRegs) : Bool := rtr || decide (o.len.toNat ≤ 8)

theorem sendData_length (rtr : Bool) (o : OperandRegs) : (sendData rtr o).length ≤ 8 := by
  cases rtr
  · exact payload_length o
  · exact Nat.zero_le 8

theorem sendImage_eq (s : State) (rtr : Bool) :
    sendImage s rtr = encBytes s.cfg.layout s.ops.id s.ops.ext rtr (sendDlc rtr s.ops) (sendData rtr s.ops) := by
  cases rtr <;> rfl

/-- R205: a send whose step S1 finds an error answers it. -/
theorem exec_sendCommand_of_error {s : State} {i : Nat} {rtr : Bool} {c : ResCode} (hm : s.ctl.mode = .normal)
    (he : sendError i (sendLenOk rtr s.ops) s = some c) : exec (sendCommand rtr i) s = .next (finish c s) := by
  cases rtr
  · have he : sendError i (decide (s.ops.len.toNat ≤ 8)) s = some c := he
    simp only [sendCommand, Bool.false_eq_true, if_false, exec, execTxSend, hm, ne_eq, not_true_eq_false, he]
  · have he : sendError i true s = some c := he
    simp only [sendCommand, if_true, exec, execTxSendr, hm, ne_eq, not_true_eq_false, if_false, he]

/-- R200, R206: a send whose step S1 finds no error allocates the buffer and goes on. -/
theorem exec_sendCommand_of_none {s : State} {i : Nat} {rtr : Bool} (hm : s.ctl.mode = .normal)
    (hn : sendError i (sendLenOk rtr s.ops) s = none) :
    exec (sendCommand rtr i) s = sendSteps i rtr (sendDlc rtr) (sendData rtr) (sendAllocate i s) := by
  cases rtr
  · have hn : sendError i (decide (s.ops.len.toNat ≤ 8)) s = none := hn
    simp only [sendCommand, Bool.false_eq_true, if_false, exec, execTxSend, hm, ne_eq, not_true_eq_false, hn]
    rfl
  · have hn : sendError i true s = none := hn
    simp only [sendCommand, if_true, exec, execTxSendr, hm, ne_eq, not_true_eq_false, if_false, hn]
    rfl

/-! ### The steps S2 and S3 run to their end -/

/-- R73, R224: as long as every boundary keeps the handler discipline, the steps S2 and S3 answer a next state. -/
theorem sendSteps_total {i : Nat} {rtr : Bool} {dlc : OperandRegs → Nat} {data : OperandRegs → List Byte} {s : State}
    (hi : i < 8) (hd : ∀ o, (data o).length ≤ 8) (hg : disciplinedGaps s = true) :
    ∃ t, sendSteps i rtr dlc data s = .next t := by
  obtain ⟨s1, h1, hg1⟩ := applicationGap_total s hg
  obtain ⟨s2, h2, hg2⟩ : ∃ s2, sendWrite i rtr (dlc s1.ops) (data s1.ops) s1 = .next s2 ∧ s2.gaps = s1.gaps :=
    ⟨_, sendWrite_next hi (hd s1.ops), rfl⟩
  obtain ⟨s3, h3, _⟩ := applicationGap_total s2 (disciplined_of_gaps_eq hg1 hg2)
  exact ⟨sendRequest i s3, by rw [sendSteps, h1, andThen_next, h2, andThen_next, h3, andThen_next]⟩

theorem sendRequest_code (i : Nat) (s : State) :
    (sendRequest i s).res.code = .ok ∨ (sendRequest i s).res.code = .busy := by
  rcases sendRequest_cases i s with ⟨_, e⟩ | ⟨_, e⟩ <;> rw [e]
  · exact .inl rfl
  · exact .inr rfl

/-- Settles O32: step S1 answers its error at once, or the steps S2 and S3 run to their end and answer `Ok` or `Busy`. -/
theorem sendCompletesUnderInterleaving : Obligations.SendCompletesUnderInterleaving := by
  unfold Obligations.SendCompletesUnderInterleaving
  intro s i rtr hm hg
  suffices hrun : ∃ t, exec (sendCommand rtr i) s = .next t ∧
      (t.res.code = .ok ∨ t.res.code = .invalidArgument ∨ t.res.code = .notSupported ∨ t.res.code = .busy) by
    obtain ⟨t, ht, hcode⟩ := hrun
    exact ⟨t, ht, exec_ops ht, (exec_setupChange ht).cfg_eq, hcode⟩
  cases hs : sendError i (sendLenOk rtr s.ops) s with
  | some c => exact ⟨finish c s, exec_sendCommand_of_error hm hs, .inr (sendError_some hs)⟩
  | none =>
    have hi : i < 8 := by have := (sendError_none hs).1; omega
    obtain ⟨t, ht⟩ := sendSteps_total hi (sendData_length rtr) (disciplined_of_gaps_eq hg (t := sendAllocate i s) rfl)
    refine ⟨t, (exec_sendCommand_of_none hm hs).trans ht, ?_⟩
    obtain ⟨_, _, s3, _, _, _, rfl⟩ := sendSteps_cases ht
    rcases sendRequest_code i s3 with hok | hbusy
    · exact .inl hok
    · exact .inr (.inr (.inr hbusy))

end Sys2Proof.Machine
end

section
/-! What a boundary and a dispatch leave in the slots, and the image the backend transmits for an accepted send (R75, R79,
R236). -/

namespace Sys2Proof.Machine

/-! ### What a dispatch and a boundary keep -/

/-- A boundary of a send keeps what the parts of a dispatch keep, whatever falls there. -/
theorem Keep.applicationGap {P : State → Prop} (k : Keep P P) {s t : State} (hs : P s)
    (h : Machine.applicationGap s = .next t) : P t :=
  (applicationGap_keeps (A := fun _ => True) k.drop (fun m s _ h => k.back m s h)
    (fun _ t _ hp h => ⟨k.dispatch hp h, allowedGaps_true t⟩) (allowedGaps_true s) hs h).1

theorem applicationGap_ops {s t : State} (h : applicationGap s = .next t) : t.ops = s.ops :=
  (keepCommand_ops s.ops).dispatch.applicationGap rfl h

theorem applicationGap_cfg {s t : State} (h : applicationGap s = .next t) : t.cfg = s.cfg :=
  (setup_eq_iff.1 ((keepCommand_setup (setup s)).dispatch.applicationGap rfl h)).1

theorem rxEvent_mem {j : Nat} {s t : State} (h : rxEvent j s = .next t) : t.mem = s.mem := by
  rcases rxEvent_cases h with ⟨_, rfl⟩ | ⟨_, m, _, rfl⟩ <;> rfl

section

variable {A : BackendMove → Prop} {M : List Host.Cell → Prop} {s t : State}

/-- R79: no step of a dispatch stores to a slot, so what the allowed backend moves keep of the slot memory, it keeps. -/
theorem dispatch_keeps_mem (hback : ∀ m s, A m → M s.mem → M (backendMove m s).mem) (hA : AllowedGaps A s)
    (hs : M s.mem) (h : dispatch s = .next t) : M t.mem ∧ AllowedGaps A t :=
  dispatch_keeps (P := fun s => M s.mem) (Q := fun s => M s.mem) (fun _ h => h) hback (fun _ h => h)
    (fun i s _ h => by rw [txEvent_mem]; exact h) (fun _ _ _ _ h he => by rw [rxEvent_mem he]; exact h) (fun _ h => h)
    (fun _ h => h) hA hs h

theorem applicationGap_keeps_mem (hback : ∀ m s, A m → M s.mem → M (backendMove m s).mem) (hA : AllowedGaps A s)
    (hs : M s.mem) (h : applicationGap s = .next t) : M t.mem ∧ AllowedGaps A t :=
  applicationGap_keeps (P := fun s => M s.mem) (fun _ h => h) hback
    (fun _ _ hA hs h => dispatch_keeps_mem hback hA hs h) hA hs h

end

/-! ### An image in a transmit slot -/

/-- `TXSLOT[i]` begins with the bytes of `img`. -/
def SlotHolds (i : Nat) (img : List Byte) (m : List Host.Cell) : Prop :=
  ∀ d, d < img.length → Memory.get m (SlotAddr.key ⟨.TXS, i, 0⟩ + d) = img[d]?

theorem slotHolds_setList (i : Nat) (img : List Byte) (m : List Host.Cell) :
    SlotHolds i img (Memory.setList m (SlotAddr.key ⟨.TXS, i, 0⟩) img) := by
  intro d hd
  rw [Memory.get_setList, if_pos (by omega), Nat.add_sub_cancel_left]

/-- R79: the constrained backend agent stores nothing to a transmit slot. -/
theorem SlotHolds.backendMove {i : Nat} {img : List Byte} (hi : i < 8) (hlen : img.length ≤ 16) (m : BackendMove)
    (s : State) (hm : m.constrained = true) (h : SlotHolds i img s.mem) : SlotHolds i img (backendMove m s).mem := by
  intro d hd
  rw [backendMove_txSlot m s hm hi (by omega)]
  exact h d hd

/-- R203: the image of a frame fits its slot. -/
theorem encBytes_length_le (l : Layout) (v : Word) (ext rtr : Bool) (dlc : Nat) {data : List Byte} (hd : data.length ≤ 8) :
    (encBytes l v ext rtr dlc data).length ≤ imgBytes l :=
  length_le_of_admitted (encBytes_admitted (i := 0) (by decide) hd)

theorem sendImage_length_le (s : State) (rtr : Bool) : (sendImage s rtr).length ≤ imgBytes s.cfg.layout := by
  rw [sendImage_eq]
  exact encBytes_length_le _ _ _ _ _ (sendData_length rtr s.ops)

theorem imgBytes_le (l : Layout) : imgBytes l ≤ 16 := by cases l <;> decide

/-- R75, R236: the image the backend transmits is the one the slot holds. -/
theorem transmittedImage_of_slotHolds {i d : Nat} {img : List Byte} {s : State} (h : SlotHolds i img s.mem)
    (hlen : img.length ≤ imgBytes s.cfg.layout) (hd : d < img.length) : (transmittedImage i s)[d]? = img[d]? := by
  have hkey : SlotAddr.key ⟨.TXS, i, d⟩ = SlotAddr.key ⟨.TXS, i, 0⟩ + d := rfl
  have hbyte : readByte s (SlotAddr.key ⟨.TXS, i, d⟩) = img[d] := by
    rw [readByte, hkey, h d hd, List.getElem?_eq_getElem hd, Option.getD_some]
  have hd' : d < imgBytes s.cfg.layout := by omega
  simp [transmittedImage, hd', hbyte, hd]

/-- R75: later moves of the constrained backend agent keep the image. -/
theorem SlotHolds.backendMoves {i : Nat} {img : List Byte} (hi : i < 8) (hlen : img.length ≤ 16) (ms : List BackendMove)
    (s : State) (hms : ∀ m ∈ ms, m.constrained = true) (h : SlotHolds i img s.mem) :
    SlotHolds i img (backendMoves ms s).mem := by
  induction ms generalizing s with
  | nil => exact h
  | cons m rest ih =>
    exact ih (Machine.backendMove m s) (fun k hk => hms k (List.mem_cons_of_mem m hk))
      (h.backendMove hi hlen m s (hms m List.mem_cons_self))

theorem backendMoves_cfg (ms : List BackendMove) (s : State) : (backendMoves ms s).cfg = s.cfg := by
  induction ms generalizing s with
  | nil => rfl
  | cons m rest ih => exact (ih (backendMove m s)).trans (backendMove_cfg m s)

/-! ### The run of a send -/

/-- R202: the model's check is the data model's condition. -/
theorem identifierInRange_of_legal {o : OperandRegs} (h : IdentifierLegal o) : identifierInRange o = true := by
  obtain ⟨hstd, hext⟩ := h
  unfold identifierInRange
  cases he : o.ext
  · exact decide_eq_true (hstd he)
  · exact decide_eq_true (hext he)

/-- R200: an admitted send passes step S1. -/
theorem sendError_of_admitted {s : State} {i : Nat} {rtr : Bool} (h : SendAdmitted s i (!rtr)) :
    sendError i (sendLenOk rtr s.ops) s = none := by
  obtain ⟨_, ⟨hi, hlen, hid⟩, hext, hfree⟩ := h
  have hlenOk : sendLenOk rtr s.ops = true := by
    cases rtr
    · exact decide_eq_true (hlen rfl)
    · rfl
  have hsup : (s.ops.ext && !s.cfg.extSupported) = false := by
    cases he : s.ops.ext
    · rfl
    · rw [hext he]; rfl
  simp only [sendError, Nat.not_le.2 hi, if_false, hlenOk, identifierInRange_of_legal hid, hsup, hfree, Bool.not_true,
    Bool.false_eq_true]

/-- R203: what step S2 leaves in the slot memory. -/
theorem sendWrite_stored {i : Nat} {rtr : Bool} {dlc : Nat} {data : List Byte} {s t : State} (hi : i < 8)
    (hd : data.length ≤ 8) (h : sendWrite i rtr dlc data s = .next t) :
    t.mem = Memory.setList s.mem (SlotAddr.key ⟨.TXS, i, 0⟩)
      (encBytes s.cfg.layout s.ops.id s.ops.ext rtr dlc data) ∧ t.gaps = s.gaps := by
  rw [sendWrite_next hi hd] at h
  cases h
  exact ⟨rfl, rfl⟩

/-- R203, R210: under constrained boundaries the slot holds at the end of the send the image that the operands give. -/
theorem sendSteps_slotHolds {i : Nat} {rtr : Bool} {s t : State} (hi : i < 8) (hg : constrainedGaps s = true)
    (h : sendSteps i rtr (sendDlc rtr) (sendData rtr) (sendAllocate i s) = .next t) :
    SlotHolds i (sendImage s rtr) t.mem := by
  obtain ⟨s1, s2, s3, h1, h2, h3, rfl⟩ := sendSteps_cases h
  have hA : AllowedGaps (fun b => b.constrained = true) (sendAllocate i s) :=
    allowed_of_gaps_eq (constrainedGaps_allowed hg) rfl
  have hA1 : AllowedGaps (fun b => b.constrained = true) s1 :=
    (applicationGap_keeps_mem (M := fun _ => True) (fun _ _ _ h => h) hA trivial h1).2
  have himg : encBytes s1.cfg.layout s1.ops.id s1.ops.ext rtr (sendDlc rtr s1.ops) (sendData rtr s1.ops) =
      sendImage s rtr := by
    rw [applicationGap_ops h1, applicationGap_cfg h1]
    exact (sendImage_eq s rtr).symm
  obtain ⟨hmem, hgaps⟩ := sendWrite_stored hi (sendData_length rtr s1.ops) h2
  rw [himg] at hmem
  have hs2 : SlotHolds i (sendImage s rtr) s2.mem := by
    rw [hmem]
    exact slotHolds_setList i _ _
  have hlen : (sendImage s rtr).length ≤ 16 := (sendImage_length_le s rtr).trans (imgBytes_le _)
  have hs3 := (applicationGap_keeps_mem (SlotHolds.backendMove hi hlen) (allowed_of_gaps_eq hA1 hgaps) hs2 h3).1
  rcases sendRequest_cases i s3 with ⟨_, e⟩ | ⟨_, e⟩ <;> rw [e] <;> exact hs3

/-- R204: the request step answers `Ok` only when it sets the request. -/
theorem sendRequest_txReq_of_ok {i : Nat} {s : State} (hi : i < 8) (h : (sendRequest i s).res.code = .ok) :
    (sendRequest i s).ctl.txReq.getLsbD i = true := by
  rcases sendRequest_cases i s with ⟨_, e⟩ | ⟨_, e⟩ <;> rw [e] at h ⊢
  · simp [hi]
  · cases h

/-- Settles O59: the slot holds the image at the end of the send, and no constrained move of the backend stores to it. -/
theorem backendTransmitsTheStoredImage : Obligations.BackendTransmitsTheStoredImage := by
  unfold Obligations.BackendTransmitsTheStoredImage
  intro s i rtr hg ha
  have hn := sendError_of_admitted ha
  have hi : i < 8 := by have := (sendError_none hn).1; omega
  obtain ⟨t, ht⟩ := sendSteps_total hi (sendData_length rtr)
    (disciplined_of_gaps_eq (constrainedGaps_disciplined hg) (t := sendAllocate i s) rfl)
  have hexec := (exec_sendCommand_of_none ha.1 hn).trans ht
  have hslot := sendSteps_slotHolds hi hg ht
  have hlen := sendImage_length_le s rtr
  refine ⟨t, hexec, fun hok => ⟨?_, fun ms hms d hd => ?_⟩⟩
  · obtain ⟨_, _, s3, _, _, _, rfl⟩ := sendSteps_cases ht
    exact sendRequest_txReq_of_ok hi hok
  · refine transmittedImage_of_slotHolds (hslot.backendMoves hi (hlen.trans (imgBytes_le _)) ms t hms) ?_ hd
    rw [backendMoves_cfg, (exec_setupChange hexec).cfg_eq]
    exact hlen

end Sys2Proof.Machine
end

section
/-! Who owns a slot and who writes it (R79): the backend its armed receive slots, a running send its transmit slot, and nobody
else. -/

namespace Sys2Proof.Machine

/-! ### Which moves and commands store to a slot -/

/-- R237, R241: the slot memory changes by a delivery into an armed slot, or by the overwrite of the stronger environment. -/
theorem backendMove_mem_cases (m : BackendMove) (s : State) :
    (backendMove m s).mem = s.mem ∨
    (∃ (j : Fin 8) (raw : ImageReg), m = .deliver j raw ∧ s.ctl.rxArmed.getLsbD j.val = true ∧
      (backendMove m s).mem =
        Memory.setList s.mem (SlotAddr.key ⟨.RXS, j.val, 0⟩) (imageBytes s.cfg.layout raw)) ∨
    ∃ (sp : Space) (n : Fin 8) (raw : ImageReg), m = .fillSlot sp n raw := by
  cases m with
  | deliver j raw =>
    by_cases h : canDeliver j s = true
    · have harmed : s.ctl.rxArmed.getLsbD j.val = true := by
        simp only [canDeliver, Bool.and_eq_true] at h
        exact h.1.2
      exact .inr (.inl ⟨j, raw, rfl, harmed, by simp only [backendMove, backendDeliver, h, if_true]; rfl⟩)
    · exact .inl (by simp only [backendMove, backendDeliver, h]; rfl)
  | fillSlot sp n raw => exact .inr (.inr ⟨sp, n, raw, rfl⟩)
  | complete i => exact .inl (by simp only [backendMove, backendComplete]; split <;> rfl)
  | overflow => exact .inl (by simp only [backendMove, backendOverflow]; split <;> rfl)
  | wake => exact .inl (by simp only [backendMove, backendWake]; split <;> rfl)
  | busError => exact .inl rfl
  | counters a b => exact .inl rfl
  | verdicts rb ac => exact .inl rfl
  | raiseStatus bits => exact .inl rfl

/-- A backend move that stores to no slot. -/
def NotStoring (m : BackendMove) : Prop :=
  (∀ j raw, m ≠ .deliver j raw) ∧ ∀ sp n raw, m ≠ .fillSlot sp n raw

theorem backendMove_mem_of_notStoring {m : BackendMove} {s : State} (h : NotStoring m) : (backendMove m s).mem = s.mem := by
  rcases backendMove_mem_cases m s with e | ⟨j, raw, hm, _⟩ | ⟨sp, n, raw, hm⟩
  · exact e
  · exact absurd hm (h.1 j raw)
  · exact absurd hm (h.2 sp n raw)

/-- R79: a dispatch stores to no slot itself. -/
theorem dispatch_mem_of_notStoring {s t : State} (hA : AllowedGaps NotStoring s) (h : dispatch s = .next t) :
    t.mem = s.mem :=
  (dispatch_keeps_mem (M := fun m => m = s.mem) (fun _ _ hm hq => (backendMove_mem_of_notStoring hm).trans hq) hA rfl h).1

/-- R79: of the commands, only the sends and the dispatch have steps between which a slot can change. -/
theorem exec_mem {i : Instr} {s t : State} (hsend : ∀ n, i ≠ .txSend n) (hsendr : ∀ n, i ≠ .txSendr n)
    (hdisp : i ≠ .isDispatch) (h : exec i s = .next t) : t.mem = s.mem := by
  cases i with
  | btCompute => cases h; split <;> rfl
  | fcEncd => cases h; split <;> rfl
  | fcEncr => cases h; split <;> rfl
  | fcDec => cases h; rfl
  | baAlloc i => rcases execBaAlloc_cases i s with ⟨_, e⟩ | ⟨_, e⟩ <;> rw [exec, e] at h <;> cases h <;> rfl
  | baFree i => obtain ⟨_, _, rfl⟩ := execBaFree_cases h; rfl
  | cmInit => exact execCmInit_mem h
  | cmSleep => obtain ⟨_, ⟨_, rfl⟩ | ⟨_, rfl⟩⟩ := execCmSleep_cases h <;> rfl
  | cmWake => obtain ⟨_, ⟨_, rfl⟩ | ⟨_, rfl⟩⟩ := execCmWake_cases h <;> rfl
  | cmErrcnt => cases h; rfl
  | txSend n => exact absurd rfl (hsend n)
  | txSendr n => exact absurd rfl (hsendr n)
  | isDispatch => exact absurd rfl hdisp

/-- A place that a stored run changes lies in the run. -/
theorem Memory.mem_run_of_get_ne {m : List Host.Cell} {k j : Nat} {bs : List Byte}
    (h : Memory.get (Memory.setList m k bs) j ≠ Memory.get m j) : k ≤ j ∧ j < k + bs.length := by
  by_contra hout
  exact h (by rw [Memory.get_setList, if_neg hout])

/-! ### The owner of a receive slot -/

theorem rxSlotOwner_of_armed {s : State} {j : Nat} (h : s.ctl.rxArmed.getLsbD j = true) : rxSlotOwner s j = .backend := by
  rw [rxSlotOwner, if_pos h]

theorem rxSlotOwner_of_unarmed {s : State} {j : Nat} (h : s.ctl.rxArmed.getLsbD j = false) (hj : j < s.ctl.rxn.val) :
    rxSlotOwner s j = .dispatcher := by
  rw [rxSlotOwner, h, if_neg Bool.false_ne_true, if_pos hj]

/-- R79: a constrained backend move stores to a receive slot that the backend owns. -/
theorem backendMove_writes_own_slot {m : BackendMove} {s : State} {k : Nat} (hm : m.constrained = true)
    (h : Memory.get (backendMove m s).mem k ≠ Memory.get s.mem k) :
    ∃ j : Fin 8, rxSlotOwner s j.val = .backend ∧ SlotAddr.key ⟨.RXS, j.val, 0⟩ ≤ k ∧
      k < SlotAddr.key ⟨.RXS, j.val, 0⟩ + imgBytes s.cfg.layout := by
  rcases backendMove_mem_cases m s with e | ⟨j, raw, _, harmed, e⟩ | ⟨_, _, _, rfl⟩
  · rw [e] at h
    exact absurd rfl h
  · rw [e] at h
    have hrun := Memory.mem_run_of_get_ne h
    rw [imageBytes_length] at hrun
    exact ⟨j, rxSlotOwner_of_armed harmed, hrun⟩
  · cases hm

/-- R79, R237: a delivery hands the slot to the dispatcher. -/
theorem rxSlotOwner_deliver {s : State} {j : Fin 8} {raw : ImageReg} (hj : j.val < s.ctl.rxn.val)
    (harmed : s.ctl.rxArmed.getLsbD j.val = true) (hmode : s.ctl.mode = .normal ∨ s.ctl.mode = .listenOnly) :
    rxSlotOwner (backendMove (.deliver j raw) s) j.val = .dispatcher := by
  have hcan : canDeliver j.val s = true := by simp [canDeliver, hj, harmed, hmode]
  have hcleared : (backendMove (.deliver j raw) s).ctl.rxArmed = clearBit s.ctl.rxArmed j.val := by
    simp only [backendMove, backendDeliver, hcan, if_true]
    rfl
  refine rxSlotOwner_of_unarmed ?_ (by rw [backendMove_ctl_rxn]; exact hj)
  simp only [hcleared, getLsbD_clearBit, decide_true, Bool.not_true, Bool.and_false]

/-- R79, R248: the re-arm hands the slot back to the backend. -/
theorem rxSlotOwner_rearm (s : State) (j : Fin 8) : rxSlotOwner (rearm j.val s) j.val = .backend :=
  rxSlotOwner_of_armed (by simp)

/-! ### The owner of a transmit slot -/

/-- R79: a send owns the slot of its buffer while no request for it is outstanding. -/
theorem txSlotOwner_eq_application_iff {s : State} {i : Nat} :
    txSlotOwner s i = .application ↔
      s.ctl.txReq.getLsbD i = false ∧ ∃ p, s.hid.sending = some p ∧ p.idx = i := by
  unfold txSlotOwner
  cases s.ctl.txReq.getLsbD i <;> cases s.hid.sending <;> simp

/-- The owner depends on the request mask and on the running send only. -/
theorem txSlotOwner_congr {s t : State} (i : Nat) (hreq : t.ctl.txReq = s.ctl.txReq)
    (hsend : t.hid.sending = s.hid.sending) : txSlotOwner t i = txSlotOwner s i := by
  unfold txSlotOwner
  rw [hreq, hsend]

/-- No backend move takes the slot from the send: none sets a request (R236 to R241). -/
theorem txSlotOwner_backendMove {s : State} {i : Nat} (m : BackendMove) (h : txSlotOwner s i = .application) :
    txSlotOwner (backendMove m s) i = .application := by
  obtain ⟨hreq, hsend⟩ := txSlotOwner_eq_application_iff.1 h
  exact txSlotOwner_eq_application_iff.2 ⟨backendMove_txReq_le m s i hreq, by rw [backendMove_hid]; exact hsend⟩

theorem txEvent_sending (i : Nat) (s : State) : (txEvent i s).hid.sending = s.hid.sending := by
  rcases txEvent_cases i s with e | e <;> rw [e] <;> rfl

/-- R79, R201: nothing that falls between the steps of a send takes its slot. -/
theorem keep_txSlotOwner (i : Nat) :
    Keep (fun s => txSlotOwner s i = .application) (fun s => txSlotOwner s i = .application) where
  drop _ h := h
  back m _ h := txSlotOwner_backendMove m h
  enter _ h := h
  tx k s _ h := (txSlotOwner_congr i (txEvent_txReq k s) (txEvent_sending k s)).trans h
  rx _ _ _ _ h := h
  scan _ _ _ h := h
  count _ h := h
  leave _ h := h

theorem txSlotOwner_sendAllocate {s : State} {i : Nat} (h : s.ctl.txReq.getLsbD i = false) :
    txSlotOwner (sendAllocate i s) i = .application :=
  txSlotOwner_eq_application_iff.2 ⟨h, ⟨i, none⟩, rfl, rfl⟩

/-- R79, R203: step S2 stores to the slot of its buffer only, and the send goes on owning it. -/
theorem sendWrite_writes_own_slot {i : Nat} {rtr : Bool} {dlc : Nat} {data : List Byte} {u t : State}
    (hu : txSlotOwner u i = .application) (h : sendWrite i rtr dlc data u = .next t) :
    (∀ k, Memory.get t.mem k ≠ Memory.get u.mem k →
      SlotAddr.key ⟨.TXS, i, 0⟩ ≤ k ∧ k < SlotAddr.key ⟨.TXS, i, 0⟩ + imgBytes u.cfg.layout) ∧
    txSlotOwner t i = .application := by
  obtain ⟨img, ha, rfl⟩ := sendWrite_eq_next h
  refine ⟨fun k hk => ?_, ?_⟩
  · have hrun := Memory.mem_run_of_get_ne hk
    have hlen := length_le_of_admitted ha
    omega
  · exact txSlotOwner_eq_application_iff.2 ⟨(txSlotOwner_eq_application_iff.1 hu).1, ⟨i, some img⟩, rfl, rfl⟩

/-- R79, R204: an accepted request gives the slot to the backend. -/
theorem txSlotOwner_sendRequest_accepted {s : State} (i : Fin 8) (h : s.inp.accept = true) :
    txSlotOwner (sendRequest i.val s) i.val = .backend := by
  rcases sendRequest_cases i.val s with ⟨_, e⟩ | ⟨hno, _⟩
  · simp [e, txSlotOwner]
  · rw [h] at hno
    cases hno

/-- R79, R204: a request that is not accepted leaves the slot to nobody. -/
theorem txSlotOwner_sendRequest_unaccepted {s : State} {i : Nat} (h : s.inp.accept = false)
    (hreq : s.ctl.txReq.getLsbD i = false) : txSlotOwner (sendRequest i s) i = .nobody := by
  rcases sendRequest_cases i s with ⟨hyes, _⟩ | ⟨_, e⟩
  · rw [h] at hyes
    cases hyes
  · simp [e, txSlotOwner, hreq]

/-- Settles O35: clause by clause, the stores of the backend, of a send and of the other commands, and the hand-overs. -/
theorem onlyTheOwnerWritesASlot : Obligations.OnlyTheOwnerWritesASlot := by
  unfold Obligations.OnlyTheOwnerWritesASlot
  refine ⟨fun m s k => backendMove_writes_own_slot, ?send, fun s i => txSlotOwner_sendRequest_accepted i,
    fun s i => txSlotOwner_sendRequest_unaccepted, ?dispatch, fun i s t => exec_mem, ?deliver, ?rearm⟩
  case send =>
    intro s u i hreq hu
    have hs := txSlotOwner_sendAllocate hreq
    have hown := (keep_txSlotOwner i).applicationGap hs hu
    refine ⟨hs, hown, fun rtr dlc data t ht => ?_⟩
    obtain ⟨hstore, hown⟩ := sendWrite_writes_own_slot hown ht
    exact ⟨hstore, hown, fun v => (keep_txSlotOwner i).applicationGap hown⟩
  case dispatch =>
    intro s t hgaps h
    refine dispatch_mem_of_notStoring (fun g hg b hb => ?_) h
    obtain ⟨hdeliver, hfill⟩ := hgaps g hg
    exact ⟨fun j raw e => hdeliver j raw (e ▸ hb), fun sp n raw e => hfill sp n raw (e ▸ hb)⟩
  case deliver => exact fun s j raw hj harmed hmode => ⟨rxSlotOwner_of_armed harmed, rxSlotOwner_deliver hj harmed hmode⟩
  case rearm => exact fun s j hj h => ⟨rxSlotOwner_of_unarmed h hj, rxSlotOwner_rearm s j⟩

end Sys2Proof.Machine
end

section
/-! The decoder and the encoder agree, which words are reserved, and what the step that takes a command word does (R85 to
R90). -/

namespace Sys2Proof

/-! ### The two fields of a command word (R86) -/

@[simp] theorem opField_commandWord (op idx : Nat) : opField (commandWord op idx) = op % 16 := by
  rw [opField, commandWord, BitVec.extractLsb'_append_eq_left, BitVec.toNat_ofNat]

@[simp] theorem idxField_commandWord (op idx : Nat) : idxField (commandWord op idx) = idx % 16 := by
  rw [idxField, commandWord, BitVec.extractLsb'_append_eq_right, BitVec.toNat_ofNat]

/-- R86: a byte is its two fields. -/
theorem commandWord_fields (w : Byte) : commandWord (opField w) (idxField w) = w := by
  rw [commandWord, opField, idxField, BitVec.ofNat_toNat, BitVec.ofNat_toNat, BitVec.setWidth_eq, BitVec.setWidth_eq,
    BitVec.extractLsb'_append_extractLsb'_eq_extractLsb' (rfl : 4 = 0 + 4), BitVec.extractLsb'_eq_self]

theorem opField_lt (w : Byte) : opField w < 16 := BitVec.isLt _

theorem idxField_lt (w : Byte) : idxField w < 16 := BitVec.isLt _

/-! ### The two formats (R87, R89) -/

theorem formatN_eq_command_iff {i j : Instr} {idx : Nat} : formatN i idx = .command j ↔ idx = 0 ∧ i = j := by
  unfold formatN
  split <;> simp [*]

theorem formatN_reserved_iff {i : Instr} {idx : Nat} : (∃ why, formatN i idx = .reserved why) ↔ idx ≠ 0 := by
  unfold formatN
  split <;> simp [*]

/-! ### The decoder and the encoder -/

/-- R87: in format I the index comes back because it has four bits; a format N word is one fixed byte. -/
theorem decode_encode {i : Instr} (h : i.wellFormed = true) : decode (encode i) = .command i := by
  cases i
  case baAlloc idx | baFree idx | txSend idx | txSendr idx =>
    have hidx : idx < 16 := of_decide_eq_true h
    simp [encode, decode, Nat.mod_eq_of_lt hidx]
  all_goals rfl

/-- R88, R90: in each row of the map the fields of the byte are those of the word of the command. -/
theorem encode_of_decode {w : Byte} {i : Instr} (h : decode w = .command i) : i.wellFormed = true ∧ encode i = w := by
  have hw := commandWord_fields w
  unfold decode at h
  split at h <;> rename_i hop
  -- the format I rows: op 0x6, 0x7, 0xC, 0xD
  case h_5 | h_6 | h_11 | h_12 =>
    cases h
    exact ⟨decide_eq_true (idxField_lt w), by rwa [hop] at hw⟩
  -- no row
  case h_14 => cases h
  -- the format N rows
  all_goals
    obtain ⟨hidx, rfl⟩ := formatN_eq_command_iff.1 h
    exact ⟨rfl, by rwa [hop, hidx] at hw⟩

/-- R89, operation number by operation number. -/
theorem decode_reserved_iff (w : Byte) : (∃ why, decode w = .reserved why) ↔
    (opField w = 0x0 ∨ opField w = 0x2 ∨ opField w = 0xF ∨
      (opField w ∈ [0x1, 0x3, 0x4, 0x5, 0x8, 0x9, 0xA, 0xB, 0xE] ∧ idxField w ≠ 0)) := by
  have hop := opField_lt w
  unfold decode
  interval_cases opField w <;> simp [formatN_reserved_iff]

end Sys2Proof

namespace Sys2Proof.Machine

/-- Settles O1: one direction is `decode_encode`, the other `encode_of_decode`. -/
theorem decodeAndEncodeAgree : Obligations.DecodeAndEncodeAgree := by
  unfold Obligations.DecodeAndEncodeAgree
  exact ⟨fun i => decode_encode, fun w i => encode_of_decode⟩

/-- Settles O2: thirteen fixed bytes, decoded. -/
theorem operationMapWordsDecode : Obligations.OperationMapWordsDecode := by
  unfold Obligations.OperationMapWordsDecode
  decide

/-! ### The step that takes a command word (R85, R89) -/

theorem step_command {s : State} {w : Byte} {rest : List Move} (hc : cfgWf s.cfg = true)
    (ha : s.agenda = .command w :: rest) : step s = runCommand w { s with agenda := rest } := by
  simp only [step, guardedNext, hc, if_true, runNext, ha, runMove]

theorem runCommand_of_command {w : Byte} {i : Instr} (h : decode w = .command i) (s : State) :
    runCommand w s = exec i { s with cmd := w } := by
  simp only [runCommand, h]

theorem runCommand_of_reserved {w : Byte} {why : Reserved} (h : decode w = .reserved why) (s : State) :
    runCommand w s = .next (finish .invalidArgument { s with cmd := w }) := by
  simp only [runCommand, h]

/-- Settles O3: which words are reserved is `decode_reserved_iff`; the command port answers one with `finish` alone. -/
theorem reservedWordAnswersInvalidArgument : Obligations.ReservedWordAnswersInvalidArgument := by
  unfold Obligations.ReservedWordAnswersInvalidArgument
  refine ⟨decode_reserved_iff, rfl, fun s w rest hc ha ⟨why, hd⟩ => ?_⟩
  rw [step_command hc ha, runCommand_of_reserved hd, finish]

/-- Settles O4: the move leaves the agenda and the command port runs what the word decodes to. -/
theorem stepRunsDecodedCommand : Obligations.StepRunsDecodedCommand := by
  unfold Obligations.StepRunsDecodedCommand
  intro s w i rest hc ha hd
  rw [step_command hc ha, runCommand_of_command hd]

end Sys2Proof.Machine
end

section
/-! The bit-timing calculator against the conditions of R121 to R124: what `BT.COMPUTE` answers, that the answer inverts to the
requested bit rate, and that it depends on the timing operands and the configuration only (R120, R126, R129). -/

namespace Sys2Proof.Machine

/-! ### The conditions of R121 to R124 -/

/-- What R7 and R31 give for the parameters of the calculator. -/
theorem timingParams_of_cfgWf {c : Cfg} (h : cfgWf c = true) :
    1 ≤ c.tqDiv ∧ c.sjwW ≤ 2 ∧ c.propW ≤ 3 ∧ c.ph1W ≤ 3 ∧ c.ph2W ≤ 3 ∧ c.brpMax ≤ 127 := by
  simp only [cfgWf, Bool.and_eq_true, decide_eq_true_eq, and_assoc] at h
  obtain ⟨_, htq, _, _, hsjw, hprop, hph1, hph2, hbrp, _⟩ := h
  exact ⟨htq, hsjw, hprop, hph1, hph2, hbrp⟩

/-- R121 to R124: the checks of the calculator as the conditions on the operands. -/
theorem timingLegal_iff {c : Cfg} {o : OperandRegs} {Q : Nat} :
    TimingLegal c o Q ↔ segmentsOk c (timingSpec o) = true ∧ 0 < (timingSpec o).br ∧
      c.fClk = divisor c (timingSpec o) * Q ∧ 1 ≤ Q ∧ Q ≤ c.brpMax + 1 := by
  simp only [TimingLegal, segmentsOk, Bool.and_eq_true, decide_eq_true_eq, segOk_iff, and_assoc]
  simp only [timingSpec, divisor, quanta]

/-- R120: the calculator answers fields exactly for a legal quotient, and then the fields of that quotient. -/
theorem computeTiming_eq_some_iff_timingLegal {c : Cfg} {o : OperandRegs} {f : TimingFields} (hc : cfgWf c = true) :
    computeTiming c (timingSpec o) = some f ↔ ∃ Q, TimingLegal c o Q ∧ f = timingFields c (timingSpec o) Q := by
  obtain ⟨htq, _⟩ := timingParams_of_cfgWf hc
  simp only [computeTiming_eq_some htq, timingLegal_iff, ← exists_and_left, and_assoc]

/-- R120: the calculator answers its error exactly when no quotient is legal. -/
theorem computeTiming_eq_none_iff_timingLegal {c : Cfg} {o : OperandRegs} (hc : cfgWf c = true) :
    computeTiming c (timingSpec o) = none ↔ ∀ Q, ¬ TimingLegal c o Q := by
  obtain ⟨htq, _⟩ := timingParams_of_cfgWf hc
  simp only [computeTiming_eq_none htq, timingLegal_iff, ← exists_and_left, not_exists]

/-- R31, R125: the packed word of a legal quotient is the sum of its fields at their places. -/
theorem packTiming_timingFields {c : Cfg} {o : OperandRegs} {Q : Nat} (hc : cfgWf c = true) (h : TimingLegal c o Q) :
    packTiming (timingFields c (timingSpec o) Q) =
      timingWord (Q - 1) (o.sjw.toNat - c.segBias) (o.prop.toNat - c.segBias) (o.ph1.toNat - c.segBias)
        (o.ph2.toNat - c.segBias) := by
  obtain ⟨_, hsjw, hprop, hph1, hph2, _⟩ := timingParams_of_cfgWf hc
  obtain ⟨hseg, _⟩ := timingLegal_iff.1 h
  simp only [segmentsOk, Bool.and_eq_true, and_assoc] at hseg
  obtain ⟨_, _, ksjw, kprop, kph1, kph2⟩ := hseg
  exact packTiming_eq_sum _ (lt_of_segOk (m := 4) ksjw (by omega)) (lt_of_segOk (m := 4) kprop (by omega))
    (lt_of_segOk (m := 4) kph1 (by omega)) (lt_of_segOk (m := 4) kph2 (by omega))

/-! ### The command -/

theorem exec_btCompute_of_some {s : State} {f : TimingFields} (h : computeTiming s.cfg (timingSpec s.ops) = some f) :
    exec .btCompute s = .next (finish .ok (writeTiming f s)) := by
  simp only [exec, execBtCompute, h]

theorem exec_btCompute_of_none {s : State} (h : computeTiming s.cfg (timingSpec s.ops) = none) :
    exec .btCompute s = .next (finish .invalidTiming s) := by
  simp only [exec, execBtCompute, h]

/-- R120: a `BT.COMPUTE` that ends with `Ok` wrote the fields of a legal quotient. -/
theorem timingLegal_of_exec_btCompute_ok {s t : State} (hc : cfgWf s.cfg = true) (h : exec .btCompute s = .next t)
    (hok : t.res.code = .ok) :
    ∃ Q, TimingLegal s.cfg s.ops Q ∧ t = finish .ok (writeTiming (timingFields s.cfg (timingSpec s.ops) Q) s) := by
  cases hf : computeTiming s.cfg (timingSpec s.ops) with
  | none =>
    rw [exec_btCompute_of_none hf] at h
    cases h
    cases hok
  | some f =>
    obtain ⟨Q, hQ, rfl⟩ := (computeTiming_eq_some_iff_timingLegal hc).1 hf
    rw [exec_btCompute_of_some hf] at h
    cases h
    exact ⟨Q, hQ, rfl⟩

/-- Settles O7: a legal quotient is the one the calculator finds, and the packed word of its fields is their sum. -/
theorem btComputeAnswersFieldsOrInvalidTiming : Obligations.BtComputeAnswersFieldsOrInvalidTiming := by
  unfold Obligations.BtComputeAnswersFieldsOrInvalidTiming
  refine ⟨rfl, fun s hc => ⟨fun Q hQ => ?_, fun hno => ?_⟩⟩
  · have hf := (computeTiming_eq_some_iff_timingLegal hc).2 ⟨Q, hQ, rfl⟩
    rw [exec_btCompute_of_some hf, ← packTiming_timingFields hc hQ]
    rfl
  · exact exec_btCompute_of_none ((computeTiming_eq_none_iff_timingLegal hc).2 hno)

/-! ### The inverted formula (R129) -/

/-- R122, R129: the bias added back to a field gives the operand. -/
theorem toNat_ofNat_sub_add {b : Nat} {v : Byte} (h : b ≤ v.toNat) : (BitVec.ofNat 8 (v.toNat - b)).toNat + b = v.toNat := by
  have hlt : v.toNat - b < 2 ^ 8 := (Nat.sub_le _ _).trans_lt v.isLt
  rw [BitVec.toNat_ofNat, Nat.mod_eq_of_lt hlt, Nat.sub_add_cancel h]

/-- R123, R124: a legal prescaler fits its register, and the register holds the quotient less one. -/
theorem toNat_prescaler_add_one {c : Cfg} {o : OperandRegs} {Q : Nat} (hc : cfgWf c = true) (h : TimingLegal c o Q) :
    (BitVec.ofNat 8 (Q - 1)).toNat + 1 = Q := by
  obtain ⟨_, _, _, _, _, hbrp⟩ := timingParams_of_cfgWf hc
  obtain ⟨_, _, _, hpos, hQ⟩ := timingLegal_iff.1 h
  have hlt : Q - 1 < 2 ^ 8 := by omega
  rw [BitVec.toNat_ofNat, Nat.mod_eq_of_lt hlt, Nat.sub_add_cancel hpos]

/-- Settles O8: the registers give back `Q` and the segments, and `F_CLK` is the requested bit rate times the divisor of the
inverted formula. -/
theorem btComputeInvertsExactly : Obligations.BtComputeInvertsExactly := by
  unfold Obligations.BtComputeInvertsExactly
  intro s t hc h hok
  obtain ⟨Q, hQ, rfl⟩ := timingLegal_of_exec_btCompute_ok hc h hok
  have hbrp := toNat_prescaler_add_one hc hQ
  obtain ⟨_, _, _, ⟨bprop, _⟩, ⟨bph1, _⟩, ⟨bph2, _⟩, _, hclk, hpos, _⟩ := hQ
  obtain ⟨htq, _⟩ := timingParams_of_cfgWf hc
  simp only [finish_res, writeTiming, timingFields, timingSpec, hbrp, toNat_ofNat_sub_add bprop, toNat_ofNat_sub_add bph1,
    toNat_ofNat_sub_add bph2]
  have hD : 0 < s.cfg.tqDiv * Q * (1 + s.ops.prop.toNat + s.ops.ph1.toNat + s.ops.ph2.toNat) :=
    Nat.mul_pos (Nat.mul_pos htq hpos) (by omega)
  have he : s.cfg.fClk =
      s.cfg.tqDiv * Q * (1 + s.ops.prop.toNat + s.ops.ph1.toNat + s.ops.ph2.toNat) * s.ops.br.toNat := by
    rw [hclk]
    ring
  rw [he]
  exact ⟨Nat.mul_div_cancel_left _ hD, Nat.mul_mod_right _ _⟩

/-! ### Purity (R126) -/

theorem timingSpec_congr {o p : OperandRegs} (hbr : p.br = o.br) (hsjw : p.sjw = o.sjw) (hprop : p.prop = o.prop)
    (hph1 : p.ph1 = o.ph1) (hph2 : p.ph2 = o.ph2) : timingSpec p = timingSpec o := by
  simp only [timingSpec, hbr, hsjw, hprop, hph1, hph2]

/-- Settles O9: the command answers what the calculator does, and the calculator is given the same arguments. -/
theorem btComputeIsPure : Obligations.BtComputeIsPure := by
  unfold Obligations.BtComputeIsPure
  intro s u hcfg hbr hsjw hprop hph1 hph2
  have hcompute : computeTiming u.cfg (timingSpec u.ops) = computeTiming s.cfg (timingSpec s.ops) := by
    rw [hcfg, timingSpec_congr hbr hsjw hprop hph1 hph2]
  cases hf : computeTiming s.cfg (timingSpec s.ops) with
  | none =>
    refine ⟨_, _, exec_btCompute_of_none hf, exec_btCompute_of_none (hcompute.trans hf), rfl, rfl, rfl, fun hok => ?_⟩
    cases hok
  | some f =>
    exact ⟨_, _, exec_btCompute_of_some hf, exec_btCompute_of_some (hcompute.trans hf), rfl, rfl, rfl,
      fun _ => ⟨rfl, rfl, rfl, rfl, rfl, rfl⟩⟩

end Sys2Proof.Machine
end

section
/-! The frame codec against the tables of R95 and R102: the encoded image and the decoded message field by field, the round
trip of both frame kinds, and that the codec reads operands and configuration only (R138 to R159). -/

namespace Sys2Proof.Machine

/-! ### Fields of a register as numbers (R10) -/

theorem toNat_append_eq_add {m n : Nat} (x : BitVec m) (y : BitVec n) : (x ++ y).toNat = x.toNat * 2 ^ n + y.toNat := by
  rw [BitVec.toNat_append, ← Nat.shiftLeft_add_eq_or_of_lt y.isLt, Nat.shiftLeft_eq]

theorem toNat_extract_eq_div_mod {w : Nat} (x : BitVec w) (start n : Nat) :
    (x.extractLsb' start n).toNat = x.toNat / 2 ^ start % 2 ^ n := by
  rw [BitVec.extractLsb'_toNat, Nat.shiftRight_eq_div_pow]

theorem extract_eq_ofNat_div {w : Nat} (x : BitVec w) (start n : Nat) :
    x.extractLsb' start n = BitVec.ofNat n (x.toNat / 2 ^ start) := by
  rw [BitVec.extractLsb', Nat.shiftRight_eq_div_pow]

theorem getLsbD_eq_decide_div_mod {w : Nat} (x : BitVec w) (k : Nat) :
    x.getLsbD k = decide (x.toNat / 2 ^ k % 2 = 1) := by
  rw [← BitVec.testBit_toNat, Nat.testBit_eq_decide_div_mod_eq]

/-! ### The header of an encoded image (R93 to R99, R103, R104) -/

theorem baseId_toNat (v : Word) (ext : Bool) :
    (baseId v ext).toNat = (if ext then v.toNat / 2 ^ 18 else v.toNat) % 2 ^ 11 := by
  cases ext
  · simp [baseId]
  · simp [baseId, Nat.shiftRight_eq_div_pow]

theorem extensionId_toNat (v : Word) (ext : Bool) :
    (extensionId v ext).toNat = if ext then v.toNat % 2 ^ 18 else 0 := by
  cases ext
  · rfl
  · simp [extensionId]

theorem encIDH_toNat (v : Word) (ext : Bool) :
    (encIDH v ext).toNat = (if ext then v.toNat / 2 ^ 21 else v.toNat / 2 ^ 3) % 2 ^ 8 := by
  rw [encIDH, toNat_extract_eq_div_mod, baseId_toNat]
  split <;> omega

theorem encIDL_toNat (v : Word) (ext rtr : Bool) :
    (encIDL v ext rtr).toNat = (if ext then v.toNat / 2 ^ 18 else v.toNat) % 2 ^ 3 * 2 ^ 5 +
      (if rtr && !ext then 2 ^ 4 else 0) + (if ext then 2 ^ 3 + v.toNat / 2 ^ 16 % 2 ^ 2 else 0) := by
  have hsid (x : Nat) : x % 2 ^ 11 / 2 ^ 0 % 2 ^ 3 = x % 2 ^ 3 := by omega
  have heid : v.toNat % 2 ^ 18 / 2 ^ 16 % 2 ^ 2 = v.toNat / 2 ^ 16 % 2 ^ 2 := by omega
  simp only [encIDL, toNat_append_eq_add, toNat_extract_eq_div_mod, baseId_toNat, extensionId_toNat, BitVec.toNat_ofBool,
    hsid]
  cases ext with
  | false => cases rtr <;> simp <;> omega
  | true =>
    simp
    omega

theorem encEID8_toNat (v : Word) (ext : Bool) :
    (encEID8 v ext).toNat = if ext then v.toNat / 2 ^ 8 % 2 ^ 8 else 0 := by
  rw [encEID8, toNat_extract_eq_div_mod, extensionId_toNat]
  split <;> omega

theorem encEID0_toNat (v : Word) (ext : Bool) : (encEID0 v ext).toNat = if ext then v.toNat % 2 ^ 8 else 0 := by
  rw [encEID0, toNat_extract_eq_div_mod, extensionId_toNat]
  split <;> omega

theorem encDLCB_toNat (ext rtr : Bool) {dlc : Nat} (h : dlc ≤ 8) :
    (encDLCB ext rtr dlc).toNat = (if rtr && ext then 2 ^ 6 else 0) + dlc := by
  have hmod : dlc % 2 ^ 4 = dlc := Nat.mod_eq_of_lt (by omega)
  simp only [encDLCB, toNat_append_eq_add, BitVec.toNat_ofBool, BitVec.toNat_ofNat, hmod]
  cases rtr && ext <;> rfl

theorem encMID_toNat (v : Word) (ext : Bool) :
    (encMID v ext).toNat = if ext then 2 ^ 29 + v.toNat % 2 ^ 29 else v.toNat % 2 ^ 11 * 2 ^ 18 := by
  simp only [encMID, toNat_append_eq_add, baseId_toNat, extensionId_toNat, BitVec.toNat_ofBool, BitVec.toNat_ofNat]
  cases ext
  · simp
  · simp
    omega

theorem encMSR_toNat (rtr : Bool) {dlc : Nat} (h : dlc ≤ 8) :
    (encMSR rtr dlc).toNat = (if rtr then 2 ^ 20 else 0) + dlc * 2 ^ 16 := by
  have hmod : dlc % 2 ^ 4 = dlc := Nat.mod_eq_of_lt (by omega)
  simp only [encMSR, toNat_append_eq_add, BitVec.toNat_ofBool, BitVec.toNat_ofNat, hmod]
  cases rtr
  · simp
  · simp
    omega

/-! ### The data of an encoded image (R66, R95, R102, R105) -/

theorem getElem?_take_data (d : Vector Byte 8) (n : Nat) (k : Fin 8) :
    (d.toList.take n)[k.val]? = if k.val < n then some d[k] else none := by
  simp [List.getElem?_take]

theorem getElem?_encB_data (v : Word) (ext rtr : Bool) (dlc : Nat) (data : List Byte) (k : Nat) :
    (encB v ext rtr dlc data)[5 + k]? = data[k]? := by
  rw [encB, List.getElem?_append_right (Nat.le_add_right 5 k), List.length]
  simp

/-- Payload byte `start + j` stands at bits `8j + 7 : 8j` of the word that begins with payload byte `start`. -/
theorem dataWord_toNat_div_mod (data : List Byte) (start : Nat) {j : Nat} (hj : j < 4) :
    (dataWord data start).toNat / 2 ^ (8 * j) % 2 ^ 8 = (byteOrZero data (start + j)).toNat := by
  simp only [dataWord, wordOfBytes, toNat_append_eq_add]
  interval_cases j <;> simp <;> omega

theorem encW_data_toNat_div_mod (v : Word) (ext rtr : Bool) (dlc : Nat) (data : List Byte) (k : Fin 8) :
    (if k.val < 4 then (encW v ext rtr dlc data)[2] else (encW v ext rtr dlc data)[3]).toNat / 2 ^ (8 * (k.val % 4)) %
      2 ^ 8 = (byteOrZero data k).toNat := by
  have hj : k.val % 4 < 4 := Nat.mod_lt _ (by decide)
  split
  · have hk : 0 + k.val % 4 = k.val := by omega
    exact (dataWord_toNat_div_mod data 0 hj).trans (by rw [hk])
  · have hk : 4 + k.val % 4 = k.val := by omega
    exact (dataWord_toNat_div_mod data 4 hj).trans (by rw [hk])

/-! ### The tables of R95 and R102 -/

theorem byteImageIs_encB (old : Vector Byte 13) (v : Word) (ext rtr : Bool) {dlc : Nat} (hdlc : dlc ≤ 8) (n : Nat)
    (d : Vector Byte 8) :
    ByteImageIs (overlay old (encB v ext rtr dlc (d.toList.take n))) old v.toNat ext rtr dlc n d := by
  simp only [ByteImageIs, getElem_overlay, getElem?_encB_data, getElem?_take_data]
  refine ⟨encIDH_toNat v ext, encIDL_toNat v ext rtr, encEID8_toNat v ext, encEID0_toNat v ext,
    encDLCB_toNat ext rtr hdlc, fun k => ?_⟩
  split <;> rfl

theorem wordImageIs_encW (v : Word) (ext rtr : Bool) {dlc : Nat} (hdlc : dlc ≤ 8) (n : Nat) (d : Vector Byte 8) :
    WordImageIs (encW v ext rtr dlc (d.toList.take n)) v.toNat ext rtr dlc n d := by
  refine ⟨encMID_toNat v ext, encMSR_toNat rtr hdlc, fun k => ?_⟩
  rw [encW_data_toNat_div_mod, byteOrZero, getElem?_take_data]
  split <;> rfl

/-! ### The encode commands (R140, R146) -/

/-- `FC.ENCR` or `FC.ENCD`. -/
def encodeCommand (rtr : Bool) : Instr := if rtr then .fcEncr else .fcEncd

/-- `n` of R101 at an encode command: no data byte in a remote frame, `OP_LEN` in a data frame. -/
def dataCount (rtr : Bool) (o : OperandRegs) : Nat := if rtr then 0 else o.len.toNat

theorem dataCount_le {rtr : Bool} {o : OperandRegs} (h : o.len.toNat ≤ 8) : dataCount rtr o ≤ 8 := by
  cases rtr
  · exact h
  · exact Nat.zero_le 8

/-- The result registers of an encode command, as a function of what it reads (R140, R146, R159). -/
def encodeResult (rtr : Bool) (l : Layout) (o : OperandRegs) (r : ResultRegs) : ResultRegs :=
  if 8 < o.len.toNat then { r with code := .invalidArgument }
  else { imageResult l o.id o.ext rtr o.len.toNat (o.data.toList.take (dataCount rtr o)) r with code := .ok }

theorem exec_encodeCommand (rtr : Bool) (s : State) :
    exec (encodeCommand rtr) s = .next { s with res := encodeResult rtr s.cfg.layout s.ops s.res } := by
  rw [encodeResult, apply_ite (fun r => ({ s with res := r } : State))]
  cases rtr <;> rfl

theorem encodeResult_of_gt {rtr : Bool} {l : Layout} {o : OperandRegs} {r : ResultRegs} (h : 8 < o.len.toNat) :
    encodeResult rtr l o r = { r with code := .invalidArgument } :=
  if_pos h

theorem imageAnswered_encodeResult (rtr : Bool) {s : State} (h : s.ops.len.toNat ≤ 8) :
    ImageAnswered s rtr (dataCount rtr s.ops) (encodeResult rtr s.cfg.layout s.ops s.res) := by
  have hlen : (s.ops.data.toList.take (dataCount rtr s.ops)).length = dataCount rtr s.ops := by
    simp [dataCount_le h]
  rw [encodeResult, if_neg (Nat.not_lt.2 h), ImageAnswered]
  cases s.cfg.layout with
  | B => exact ⟨_, byteImageIs_encB _ _ _ rtr h _ _, by simp only [imageResult, hlen]⟩
  | W => exact ⟨_, wordImageIs_encW _ _ rtr h _ _, rfl⟩

/-- R140, R146: an encode command answers the image of its frame, or its error when `OP_LEN > 8`. -/
theorem exec_encodeCommand_answers (rtr : Bool) (s : State) :
    (s.ops.len.toNat ≤ 8 →
      ∃ r, ImageAnswered s rtr (dataCount rtr s.ops) r ∧ exec (encodeCommand rtr) s = .next { s with res := r }) ∧
    (8 < s.ops.len.toNat →
      exec (encodeCommand rtr) s = .next { s with res := { s.res with code := .invalidArgument } }) := by
  rw [exec_encodeCommand]
  exact ⟨fun h => ⟨_, imageAnswered_encodeResult rtr h, rfl⟩, fun h => by rw [encodeResult_of_gt h]⟩

/-- Settles O10: the encode command of data frames, which has `OP_LEN` data bytes. -/
theorem fcEncdAnswersDataImage : Obligations.FcEncdAnswersDataImage :=
  exec_encodeCommand_answers false

/-- Settles O11: the encode command of remote frames, which has no data byte. -/
theorem fcEncrAnswersRemoteImage : Obligations.FcEncrAnswersRemoteImage :=
  exec_encodeCommand_answers true

/-! ### What the decoder reads (R138, R139) -/

/-- What `FC.DEC` reads from the live carrier (R138, R139). -/
def RawImageSays (l : Layout) (r : ImageReg) (ext rtr : Bool) (v len : Nat) : Prop :=
  match l with
  | .B => ByteImageSays r.bytes ext rtr v len
  | .W => WordImageSays r.words ext rtr v len

theorem exists_rawImageSays (l : Layout) (r : ImageReg) : ∃ ext rtr v len, RawImageSays l r ext rtr v len := by
  cases l
  · exact ⟨_, _, _, _, rfl, rfl, rfl, rfl⟩
  · exact ⟨_, _, _, _, rfl, rfl, rfl, rfl⟩

theorem RawImageSays.len_le {l : Layout} {r : ImageReg} {ext rtr : Bool} {v len : Nat}
    (h : RawImageSays l r ext rtr v len) : len ≤ 8 := by
  cases l <;> obtain ⟨-, -, -, rfl⟩ := h <;> exact Nat.min_le_right _ _

/-- R133, R154: the identifier that is read satisfies the data model. -/
theorem RawImageSays.id_le {l : Layout} {r : ImageReg} {ext rtr : Bool} {v len : Nat}
    (h : RawImageSays l r ext rtr v len) : v ≤ if ext then 0x1FFFFFFF else 0x7FF := by
  cases l <;> obtain ⟨-, -, rfl, -⟩ := h <;> split <;> omega

theorem headerB_eq_of_says {raw : Vector Byte 13} {ext rtr : Bool} {v len : Nat} (h : ByteImageSays raw ext rtr v len) :
    headerB raw[0] raw[1] raw[2] raw[3] raw[4] = ⟨kindOf rtr, BitVec.ofNat 32 v, ext, len⟩ := by
  obtain ⟨hext, hrtr, hv, rfl⟩ := h
  have hlen : (raw[4].extractLsb' 0 4).toNat = raw[4].toNat % 2 ^ 4 := by
    rw [toNat_extract_eq_div_mod, pow_zero, Nat.div_one]
  rw [headerB, ← hext, hlen]
  cases ext with
  | false =>
    rw [if_neg Bool.false_ne_true] at hrtr hv
    have hid : (raw[0] ++ raw[1].extractLsb' 5 3).setWidth 32 = BitVec.ofNat 32 v := by
      apply BitVec.eq_of_toNat_eq
      simp only [BitVec.toNat_setWidth, BitVec.toNat_ofNat, toNat_append_eq_add, toNat_extract_eq_div_mod]
      omega
    rw [if_neg Bool.false_ne_true, ← hrtr, hid]
  | true =>
    rw [if_pos rfl] at hrtr hv
    have hmod : raw[1].toNat / 2 ^ 5 % 2 ^ 3 = raw[1].toNat / 2 ^ 5 := by omega
    have hid : (raw[0] ++ raw[1].extractLsb' 5 3 ++ raw[1].extractLsb' 0 2 ++ raw[2] ++ raw[3]).setWidth 32 =
        BitVec.ofNat 32 v := by
      apply BitVec.eq_of_toNat_eq
      simp only [BitVec.toNat_setWidth, BitVec.toNat_ofNat, toNat_append_eq_add, toNat_extract_eq_div_mod, pow_zero,
        Nat.div_one, hmod]
      omega
    rw [if_pos rfl, ← hrtr, hid]

theorem headerW_eq_of_says {raw : Vector Word 4} {ext rtr : Bool} {v len : Nat} (h : WordImageSays raw ext rtr v len) :
    headerW raw[0] raw[1] = ⟨kindOf rtr, BitVec.ofNat 32 v, ext, len⟩ := by
  obtain ⟨hext, hrtr, hv, rfl⟩ := h
  have hid : (if ext = true then (raw[0].extractLsb' 0 29).setWidth 32 else (raw[0].extractLsb' 18 11).setWidth 32) =
      BitVec.ofNat 32 v := by
    apply BitVec.eq_of_toNat_eq
    rw [hv]
    split <;> simp only [BitVec.toNat_setWidth, BitVec.toNat_ofNat, toNat_extract_eq_div_mod, pow_zero, Nat.div_one]
  rw [headerW, ← hext, ← hrtr, hid, toNat_extract_eq_div_mod]

/-- The data bytes of the live carrier, whether the frame has them or not (R138, R139). -/
def rawData (l : Layout) (r : ImageReg) : List Byte :=
  match l with
  | .B => r.bytes.toList.drop 5
  | .W => wordBytes r.words[2] ++ wordBytes r.words[3]

theorem getElem?_wordBytes (w : Word) {j : Nat} (hj : j < 4) :
    (wordBytes w)[j]? = some (BitVec.ofNat 8 (w.toNat / 2 ^ (8 * j))) := by
  interval_cases j <;> exact congrArg some (extract_eq_ofNat_div w _ 8)

theorem getElem?_rawData (l : Layout) (r : ImageReg) (k : Fin 8) : (rawData l r)[k.val]? = some (rawDataByte l r k) := by
  cases l with
  | B => simp [rawData, rawDataByte]
  | W =>
    rw [rawData, rawDataByte, List.getElem?_append, wordBytes_length]
    split
    · rename_i hk
      rw [getElem?_wordBytes _ hk, Nat.mod_eq_of_lt hk]
    · have hk : k.val - 4 = k.val % 4 := by omega
      rw [hk, getElem?_wordBytes _ (Nat.mod_lt _ (by decide))]

theorem decImage_eq_of_says {l : Layout} {r : ImageReg} {ext rtr : Bool} {v len : Nat}
    (h : RawImageSays l r ext rtr v len) :
    decImage l r = Header.message ⟨kindOf rtr, BitVec.ofNat 32 v, ext, len⟩ (rawData l r) := by
  cases l with
  | B => exact congrArg (Header.message · _) (headerB_eq_of_says h)
  | W => exact congrArg (Header.message · _) (headerW_eq_of_says h)

/-! ### The decode command (R150) -/

theorem getElem_overlay_message (m : Header) (l : Layout) (r : ImageReg) (old : Vector Byte 8) (k : Fin 8) :
    (overlay old (m.message (rawData l r)).bytes)[k] = if k.val < m.dataBytes then rawDataByte l r k else old[k] := by
  rw [Fin.getElem_fin, getElem_overlay, Header.message, List.getElem?_take, getElem?_rawData]
  split <;> rfl

theorem dataBytes_lt_iff (rtr : Bool) (id : Word) (ext : Bool) (len k : Nat) :
    k < (Header.mk (kindOf rtr) id ext len).dataBytes ↔ rtr = false ∧ k < len := by
  cases rtr
  · simp [kindOf, Header.dataBytes]
  · simp [kindOf, Header.dataBytes]

/-- The result registers of `FC.DEC`, as a function of what it reads (R150, R159). -/
def decodeResult (l : Layout) (raw : ImageReg) (r : ResultRegs) : ResultRegs :=
  { r with
    code := .ok
    kind := (decImage l raw).kind
    id := (decImage l raw).id
    ext := (decImage l raw).ext
    len := BitVec.ofNat 4 (decImage l raw).len
    data := overlay r.data (decImage l raw).bytes }

theorem exec_fcDec (s : State) :
    exec .fcDec s = .next { s with res := decodeResult s.cfg.layout s.ops.raw s.res } := rfl

/-- R150: `FC.DEC` answers what the live carrier says. -/
theorem exec_fcDec_of_says {s : State} {ext rtr : Bool} {v len : Nat}
    (h : RawImageSays s.cfg.layout s.ops.raw ext rtr v len) :
    ∃ d : Vector Byte 8,
      (∀ k : Fin 8, d[k] =
        if rtr = false ∧ k.val < len then rawDataByte s.cfg.layout s.ops.raw k else s.res.data[k]) ∧
      exec .fcDec s = .next { s with
        res := { s.res with
          code := .ok
          kind := kindOf rtr
          id := BitVec.ofNat 32 v
          ext := ext
          len := BitVec.ofNat 4 len
          data := d } } := by
  rw [exec_fcDec, decodeResult, decImage_eq_of_says h]
  refine ⟨_, fun k => ?_, rfl⟩
  rw [getElem_overlay_message]
  simp only [dataBytes_lt_iff]

/-- Settles O12: what the live carrier says is the hypothesis of its layout. -/
theorem fcDecAnswersMessage : Obligations.FcDecAnswersMessage := by
  unfold Obligations.FcDecAnswersMessage
  intro s ext rtr v len hB hW
  refine exec_fcDec_of_says ?_
  cases hl : s.cfg.layout with
  | B => exact hB hl
  | W => exact hW hl

/-- Settles O15: every carrier says something, within the bounds of the data model. -/
theorem decodingNeverFails : Obligations.DecodingNeverFails := by
  unfold Obligations.DecodingNeverFails
  intro s
  obtain ⟨ext, rtr, v, len, h⟩ := exists_rawImageSays s.cfg.layout s.ops.raw
  obtain ⟨d, -, ht⟩ := exec_fcDec_of_says h
  refine ⟨_, ht, rfl, (Nat.mod_le _ _).trans h.len_le, fun (he : ext = false) => ?_, fun (he : ext = true) => ?_⟩
  · subst he
    exact (Nat.mod_le _ _).trans h.id_le
  · subst he
    exact (Nat.mod_le _ _).trans h.id_le

/-! ### The round trip (R155, R156, R157) -/

/-- R93, R95: an extended identifier is the sum of its five fields at their places. -/
theorem identifier_eq_sum_of_fields (v : Nat) :
    v = v / 2 ^ 21 * 2 ^ 21 + v / 2 ^ 18 % 2 ^ 3 * 2 ^ 18 + v / 2 ^ 16 % 2 ^ 2 * 2 ^ 16 + v / 2 ^ 8 % 2 ^ 8 * 2 ^ 8 +
      v % 2 ^ 8 := by
  have h21 : v / 2 ^ 21 = v / 2 ^ 18 / 2 ^ 3 := by omega
  have h18 : v / 2 ^ 18 = v / 2 ^ 16 / 2 ^ 2 := by omega
  have h16 : v / 2 ^ 16 = v / 2 ^ 8 / 2 ^ 8 := by omega
  omega

/-- R155: what the tables of R95 put into a byte image of a legal identifier is what R138 reads from it. -/
theorem byteImageSays_of_is {img old : Vector Byte 13} {v dlc n : Nat} {ext rtr : Bool} {d : Vector Byte 8}
    (h : ByteImageIs img old v ext rtr dlc n d) (hstd : ext = false → v ≤ 0x7FF) (hext : ext = true → v ≤ 0x1FFFFFFF)
    (hdlc : dlc ≤ 8) : ByteImageSays img ext rtr v dlc := by
  obtain ⟨h0, h1, h2, h3, h4, -⟩ := h
  simp only [ByteImageSays, getLsbD_eq_decide_div_mod]
  cases ext with
  | false =>
    have hv := hstd rfl
    simp only [Bool.not_false, Bool.and_false, Bool.and_true, Bool.false_eq_true, if_false, zero_add, add_zero] at h0 h1 h4
    have hsid : img[1].toNat / 2 ^ 5 = v % 2 ^ 3 := by split at h1 <;> omega
    refine ⟨(decide_eq_false (by split at h1 <;> omega)).symm, ?_, ?_, by rw [h4]; omega⟩
    · cases rtr <;> simp at h1 ⊢ <;> omega
    · rw [if_neg Bool.false_ne_true, h0, hsid]
      omega
  | true =>
    have hv := hext rfl
    have htop : v / 2 ^ 21 % 2 ^ 8 = v / 2 ^ 21 := by omega
    simp only [if_true, Bool.not_true, Bool.and_false, Bool.and_true, Bool.false_eq_true, if_false, add_zero]
      at h0 h1 h2 h3 h4
    have hsid : img[1].toNat / 2 ^ 5 = v / 2 ^ 18 % 2 ^ 3 := by omega
    have heid : img[1].toNat % 2 ^ 2 = v / 2 ^ 16 % 2 ^ 2 := by omega
    refine ⟨(decide_eq_true (by omega)).symm, ?_, ?_, by split at h4 <;> omega⟩
    · cases rtr <;> simp at h4 ⊢ <;> omega
    · rw [if_pos rfl, h0, hsid, heid, h2, h3, htop]
      exact identifier_eq_sum_of_fields v

theorem wordImageSays_of_is {img : Vector Word 4} {v dlc n : Nat} {ext rtr : Bool} {d : Vector Byte 8}
    (h : WordImageIs img v ext rtr dlc n d) (hstd : ext = false → v ≤ 0x7FF) (hext : ext = true → v ≤ 0x1FFFFFFF)
    (hdlc : dlc ≤ 8) : WordImageSays img ext rtr v dlc := by
  obtain ⟨h0, h1, -⟩ := h
  simp only [WordImageSays, getLsbD_eq_decide_div_mod]
  refine ⟨?_, ?_, ?_, by split at h1 <;> omega⟩
  · cases ext <;> simp at h0 ⊢ <;> omega
  · cases rtr <;> simp at h1 ⊢ <;> omega
  · cases ext with
    | false =>
      have hv := hstd rfl
      simp at h0 ⊢
      omega
    | true =>
      have hv := hext rfl
      simp at h0 ⊢
      omega

/-- R155, R157: the image an encode command answers says what was encoded. -/
theorem rawImageSays_of_imageAnswered {s : State} {rtr : Bool} {n : Nat} {r : ResultRegs} (h : ImageAnswered s rtr n r)
    (hlen : s.ops.len.toNat ≤ 8) (hid : IdentifierLegal s.ops) :
    RawImageSays s.cfg.layout r.img s.ops.ext rtr s.ops.id.toNat s.ops.len.toNat := by
  obtain ⟨hstd, hext⟩ := hid
  unfold ImageAnswered at h
  cases hl : s.cfg.layout with
  | B =>
    rw [hl] at h
    obtain ⟨img, himg, rfl⟩ := h
    exact byteImageSays_of_is himg hstd hext hlen
  | W =>
    rw [hl] at h
    obtain ⟨img, himg, rfl⟩ := h
    exact wordImageSays_of_is himg hstd hext hlen

/-- R155: the data bytes of the image an encode command answers are the payload. -/
theorem rawDataByte_of_imageAnswered {s : State} {rtr : Bool} {n : Nat} {r : ResultRegs} (h : ImageAnswered s rtr n r)
    {k : Fin 8} (hk : k.val < n) : rawDataByte s.cfg.layout r.img k = s.ops.data[k] := by
  unfold ImageAnswered at h
  cases hl : s.cfg.layout with
  | B =>
    rw [hl] at h
    obtain ⟨img, ⟨-, -, -, -, -, hdata⟩, rfl⟩ := h
    exact (hdata k).trans (if_pos hk)
  | W =>
    rw [hl] at h
    obtain ⟨img, ⟨-, -, hdata⟩, rfl⟩ := h
    exact BitVec.eq_of_toNat_eq ((BitVec.toNat_ofNat _ _).trans ((hdata k).trans (if_pos hk)))

theorem imageAnswered_data {s : State} {rtr : Bool} {n : Nat} {r : ResultRegs} (h : ImageAnswered s rtr n r) :
    r.data = s.res.data := by
  unfold ImageAnswered at h
  split at h <;> (obtain ⟨_, _, rfl⟩ := h; rfl)

/-- R155, R156, R157: an encoded frame of a legal identifier, decoded, gives back its kind, its identifier, its length code
and its data bytes; elements of `RES_DATA` past them stay. -/
theorem decode_of_encode (rtr : Bool) {s : State} (hlen : s.ops.len.toNat ≤ 8) (hid : IdentifierLegal s.ops) :
    ∃ t u : State, exec (encodeCommand rtr) s = .next t ∧ exec .fcDec (withRawFromResult t) = .next u ∧
      u.res.kind = kindOf rtr ∧ u.res.id = s.ops.id ∧ u.res.ext = s.ops.ext ∧ u.res.len.toNat = s.ops.len.toNat ∧
      ∀ k : Fin 8, u.res.data[k] =
        if rtr = false ∧ k.val < s.ops.len.toNat then s.ops.data[k] else s.res.data[k] := by
  obtain ⟨r, himg, hr⟩ := (exec_encodeCommand_answers rtr s).1 hlen
  obtain ⟨d, hd, hu⟩ := exec_fcDec_of_says (s := withRawFromResult { s with res := r })
    (rawImageSays_of_imageAnswered (s := s) himg hlen hid)
  refine ⟨_, _, hr, hu, rfl, BitVec.ofNat_toNat .., rfl,
    Nat.mod_eq_of_lt (Nat.lt_of_le_of_lt hlen (by decide)), fun k => ?_⟩
  have hk : d[k] =
      if rtr = false ∧ k.val < s.ops.len.toNat then rawDataByte s.cfg.layout r.img k else r.data[k] := hd k
  rw [imageAnswered_data himg] at hk
  refine hk.trans (ite_congr rfl (fun h => ?_) fun _ => rfl)
  obtain ⟨rfl, hlt⟩ := h
  exact rawDataByte_of_imageAnswered himg hlt

/-- Settles O13: every requested byte of a data frame is a data byte. -/
theorem dataFrameRoundTrip : Obligations.DataFrameRoundTrip := by
  unfold Obligations.DataFrameRoundTrip
  intro s hlen hid
  obtain ⟨t, u, ht, hu, hkind, hv, hext, hl, hdata⟩ := decode_of_encode false hlen hid
  exact ⟨t, u, ht, hu, hkind, hv, hext, hl, fun k hk => (hdata k).trans (if_pos ⟨rfl, hk⟩)⟩

/-- Settles O14: a remote frame has no data byte, so every element of `RES_DATA` stays. -/
theorem remoteFrameRoundTrip : Obligations.RemoteFrameRoundTrip := by
  unfold Obligations.RemoteFrameRoundTrip
  intro s hlen hid
  obtain ⟨t, u, ht, hu, hkind, hv, hext, hl, hdata⟩ := decode_of_encode true hlen hid
  refine ⟨t, u, ht, hu, hkind, hv, hext, hl, ?_⟩
  ext k hk : 1
  exact (hdata ⟨k, hk⟩).trans (if_neg fun h => absurd h.1 (by decide))

/-! ### What the codec reads and writes (R159) -/

/-- Settles O16: the result registers of each codec command are a function of the layout, the operands and the result
registers before. -/
theorem codecReadsOnlyOperands : Obligations.CodecReadsOnlyOperands := by
  unfold Obligations.CodecReadsOnlyOperands
  intro i s u hi hops hcfg hres
  have henc (rtr : Bool) : ∃ r, exec (encodeCommand rtr) s = .next { s with res := r } ∧
      exec (encodeCommand rtr) u = .next { u with res := r } :=
    ⟨_, exec_encodeCommand rtr s, by rw [exec_encodeCommand, hops, hcfg, hres]⟩
  simp only [List.mem_cons, List.not_mem_nil, or_false] at hi
  rcases hi with rfl | rfl | rfl
  · exact henc false
  · exact henc true
  · exact ⟨_, exec_fcDec s, by rw [exec_fcDec, hops, hcfg, hres]⟩

end Sys2Proof.Machine
end

section
/-! The buffer allocator: what `BA.ALLOC` and `BA.FREE` do to the free mask, and a run of allocations until no buffer is left
(R170 to R175). -/

namespace Sys2Proof.Machine

/-! ### Bits of the free mask -/

theorem getLsbD_setBit_of_lt {w : Nat} (v : BitVec w) {k : Nat} (hk : k < w) (j : Nat) :
    (setBit v k).getLsbD j = (v.getLsbD j || decide (j = k)) := by
  rw [getLsbD_setBit]
  by_cases hj : j = k
  · simp [hj, hk]
  · simp [hj]

theorem clearBit_setBit_of_clear {w : Nat} {v : BitVec w} {k : Nat} (h : v.getLsbD k = false) :
    clearBit (setBit v k) k = v := by
  refine BitVec.eq_of_getLsbD_eq fun j hj => ?_
  by_cases hjk : j = k
  · simp [hjk, h]
  · simp [hjk]

/-! ### The two commands, outcome by outcome -/

theorem exec_baAlloc_of_free {s : State} {i : Nat} (h : s.ctl.freeMask.getLsbD i = true) :
    exec (.baAlloc i) s = .next (finish .ok (answerSome i (takeBuffer i s))) := by
  rcases execBaAlloc_cases i s with ⟨_, e⟩ | ⟨hbusy, _⟩
  · exact e
  · exact absurd (h.symm.trans hbusy) (by decide)

theorem exec_baAlloc_of_busy {s : State} {i : Nat} (h : s.ctl.freeMask.getLsbD i = false) :
    exec (.baAlloc i) s = .next (finish .ok (answerNone s)) := by
  rcases execBaAlloc_cases i s with ⟨hfree, _⟩ | ⟨_, e⟩
  · exact absurd (h.symm.trans hfree) (by decide)
  · exact e

theorem exec_baFree_of_missing {s : State} {i : Nat} (hi : s.ctl.txn.val ≤ i) :
    exec (.baFree i) s = .refused .freeOfMissingBuffer := by
  rw [exec, execBaFree, if_pos hi]

theorem exec_baFree_of_owned {s : State} {i : Nat} (hi : i < s.ctl.txn.val) (hreq : s.ctl.txReq.getLsbD i = true) :
    exec (.baFree i) s = .refused .freeOfOwnedBuffer := by
  rw [exec, execBaFree, if_neg (Nat.not_le.2 hi), if_pos hreq]

theorem exec_baFree_of_unowned {s : State} {i : Nat} (hi : i < s.ctl.txn.val) (hreq : s.ctl.txReq.getLsbD i = false) :
    exec (.baFree i) s = .next (finish .ok (freeBuffer i s)) := by
  rw [exec, execBaFree, if_neg (Nat.not_le.2 hi), if_neg (by simp [hreq])]

/-- Settles O17: the mask taken is `clearBit`, and an index above 7 reads a bit that does not exist. -/
theorem baAllocTakesTheRequestedBuffer : Obligations.BaAllocTakesTheRequestedBuffer := by
  unfold Obligations.BaAllocTakesTheRequestedBuffer
  refine fun s i _ => ⟨fun _ hfree => ⟨_, getLsbD_clearBit _ i, exec_baAlloc_of_free hfree⟩,
    fun hnot => exec_baAlloc_of_busy ?_⟩
  by_cases hi : i ≤ 7
  · exact Bool.eq_false_iff.2 fun hfree => hnot ⟨hi, hfree⟩
  · exact BitVec.getLsbD_of_ge _ _ (by omega)

/-- Settles O18: the mask given back is `setBit`, whose bit exists since at most 8 buffers are configured. -/
theorem baFreeSetsTheBitOrIsRefused : Obligations.BaFreeSetsTheBitOrIsRefused := by
  unfold Obligations.BaFreeSetsTheBitOrIsRefused
  refine fun s i => ⟨fun hi hreq => ⟨_, getLsbD_setBit_of_lt _ ?_, exec_baFree_of_unowned hi hreq⟩,
    exec_baFree_of_missing, exec_baFree_of_owned⟩
  omega

/-! ### Runs of allocator commands (R172) -/

theorem runCommands_append (is js : List Instr) (s : State) :
    runCommands (is ++ js) s = andThen (runCommands is s) (runCommands js) := by
  induction is generalizing s with
  | nil => rfl
  | cons i is ih => rw [List.cons_append, runCommands, runCommands, andThen_assoc, funext ih]

theorem runCommands_singleton (i : Instr) (s : State) : runCommands [i] s = exec i s := by
  rw [runCommands]
  cases exec i s <;> rfl

/-- A run of `n + 1` allocations is one of `n` and the allocation of buffer `n`, here a free one. -/
theorem runCommands_allocate_succ {n : Nat} {s t : State}
    (h : runCommands ((List.range n).map Instr.baAlloc) s = .next t) (hn : t.ctl.freeMask.getLsbD n = true) :
    runCommands ((List.range (n + 1)).map Instr.baAlloc) s = .next (finish .ok (answerSome n (takeBuffer n t))) := by
  rw [List.range_succ, List.map_append, runCommands_append, h, andThen_next, List.map_singleton, runCommands_singleton,
    exec_baAlloc_of_free hn]

/-- Allocating the free buffers `0 .. n-1` in order takes exactly these. -/
theorem runCommands_allocate {n : Nat} {s : State} (hfree : ∀ k < n, s.ctl.freeMask.getLsbD k = true) :
    ∃ t, runCommands ((List.range n).map Instr.baAlloc) s = .next t ∧
      ∀ k, t.ctl.freeMask.getLsbD k = (s.ctl.freeMask.getLsbD k && decide (n ≤ k)) := by
  induction n with
  | zero => exact ⟨s, rfl, fun k => by simp⟩
  | succ n ih =>
    obtain ⟨t, ht, hmask⟩ := ih fun k hk => hfree k (by omega)
    refine ⟨_, runCommands_allocate_succ ht (by simp [hmask, hfree n]), fun k => ?_⟩
    have hk : n + 1 ≤ k ↔ n ≤ k ∧ k ≠ n := by omega
    simp [hmask, hk, Bool.and_assoc]

/-- The last of `n + 1` allocations answers `Some(n)`. -/
theorem runCommands_allocate_answers {n : Nat} {s : State} (hfree : ∀ k < n + 1, s.ctl.freeMask.getLsbD k = true) :
    ∃ t, runCommands ((List.range (n + 1)).map Instr.baAlloc) s = .next t ∧
      t.res.some = true ∧ t.res.idx = BitVec.ofNat 4 n := by
  obtain ⟨t, ht, hmask⟩ := runCommands_allocate (n := n) fun k hk => hfree k (by omega)
  exact ⟨_, runCommands_allocate_succ ht (by simp [hmask, hfree n]), rfl, rfl⟩

/-- R172: a busy buffer that is freed can be allocated once; the mask is then what it was. -/
theorem runCommands_free_allocate {s : State} {k : Nat} (hbusy : s.ctl.freeMask.getLsbD k = false)
    (hk : k < s.ctl.txn.val) (hreq : s.ctl.txReq.getLsbD k = false) :
    runCommands [.baFree k, .baAlloc k] s =
      .next { s with res := { s.res with code := .ok, some := true, idx := BitVec.ofNat 4 k } } := by
  have hk8 : k < 8 := by omega
  have hfree : (finish .ok (freeBuffer k s)).ctl.freeMask.getLsbD k = true := by simp [hk8]
  have hmask := clearBit_setBit_of_clear hbusy
  rw [runCommands, exec_baFree_of_unowned hk hreq, andThen_next, runCommands_singleton, exec_baAlloc_of_free hfree]
  simp only [finish, answerSome, takeBuffer, freeBuffer, hmask]

/-- Settles O19: the run of allocations takes the buffers one by one; at an empty mask freeing a buffer and allocating it
again keeps the mask empty, and an empty mask answers `None`. -/
theorem allocatorExhaustion : Obligations.AllocatorExhaustion := by
  unfold Obligations.AllocatorExhaustion
  refine ⟨fun s hs => ?_, fun s k j hs hk hreq _ => ?_⟩
  · have hfree : ∀ k < s.ctl.txn.val, s.ctl.freeMask.getLsbD k = true := fun k hk => by
      have hk8 : k < 8 := by omega
      simp [hs, hk, hk8]
    refine ⟨fun n hn => runCommands_allocate_answers fun k hk => hfree k (by omega), ?_⟩
    obtain ⟨t, ht, hmask⟩ := runCommands_allocate hfree
    refine ⟨t, ht, BitVec.eq_of_getLsbD_eq fun k _ => ?_⟩
    by_cases hk : s.ctl.txn.val ≤ k
    · simp [hmask, hs, hk]
    · simp [hmask, hk]
  · have hbusy (i : Nat) : s.ctl.freeMask.getLsbD i = false := hs ▸ BitVec.getLsbD_zero
    have hback := runCommands_free_allocate (hbusy k) hk hreq
    refine ⟨⟨_, exec_baAlloc_of_busy (hbusy j), rfl, hs⟩, ⟨_, hback, rfl, rfl, hs⟩, ?_⟩
    have hrun := runCommands_append [.baFree k, .baAlloc k] [.baAlloc j] s
    rw [hback, andThen_next, runCommands_singleton] at hrun
    exact ⟨_, hrun.trans (exec_baAlloc_of_busy (hbusy j)), rfl, hs⟩

end Sys2Proof.Machine
end

section
/-! The state machine of the modes: only the mode commands, a hardware reset and the wake of the backend change the mode, and
what holds between two steps of mode, transceiver, dispatcher and send is kept (R27, R37, R43, R180, R240, R270). -/

namespace Sys2Proof.Machine

/-! ### What may happen to the mode while no mode command runs -/

/-- From `s` to `t` the transceiver stays as it was, and the mode changes by the backend's wake at most (R240). -/
structure OnlyWoken (s t : State) : Prop where
  mode : t.ctl.mode = s.ctl.mode ∨ (s.ctl.mode = .sleep ∧ t.ctl.mode = .listenOnly)
  xcvr : t.ctl.xcvrEn = s.ctl.xcvrEn

/-- A whole command or move during which the mode changes by a wake at most: it leaves the dispatcher idle and no send in
progress if they were so before. -/
structure ModeFrame (s t : State) : Prop extends OnlyWoken s t where
  idle   : s.hid.dstate = .idle → t.hid.dstate = .idle
  noSend : s.hid.sending = none → t.hid.sending = none

section

variable {s t u : State}

theorem OnlyWoken.congr (h : OnlyWoken s t) (hmode : u.ctl.mode = t.ctl.mode) (hxcvr : u.ctl.xcvrEn = t.ctl.xcvrEn) :
    OnlyWoken s u where
  mode := by rw [hmode]; exact h.mode
  xcvr := hxcvr.trans h.xcvr

theorem onlyWoken_of_eq (hmode : t.ctl.mode = s.ctl.mode) (hxcvr : t.ctl.xcvrEn = s.ctl.xcvrEn) : OnlyWoken s t :=
  ⟨.inl hmode, hxcvr⟩

theorem OnlyWoken.backendMove (h : OnlyWoken s t) (m : BackendMove) : OnlyWoken s (backendMove m t) := by
  obtain ⟨_, _, _, _, _, _, _, _, _, hxcvr⟩ := backendMove_ctl_frame m t
  refine ⟨?_, hxcvr.trans h.xcvr⟩
  rcases backendMove_mode m t with hkept | ⟨hsleep, hlisten⟩
  · rw [hkept]; exact h.mode
  · rcases h.mode with he | ⟨_, hwoken⟩
    · exact .inr ⟨he.symm.trans hsleep, hlisten⟩
    · exact absurd (hsleep.symm.trans hwoken) nofun

theorem keep_onlyWoken (s : State) : Keep (OnlyWoken s) (OnlyWoken s) where
  drop _ h := h.congr rfl rfl
  back m _ h := h.backendMove m
  enter _ h := h.congr rfl rfl
  tx i u _ h := by rcases txEvent_cases i u with e | e <;> rw [e] <;> exact h.congr rfl rfl
  rx _ _ _ _ h := h.congr rfl rfl
  scan _ _ _ h := h.congr rfl rfl
  count _ h := h.congr rfl rfl
  leave _ h := h.congr rfl rfl

theorem modeFrame_of_eq (hmode : t.ctl.mode = s.ctl.mode) (hxcvr : t.ctl.xcvrEn = s.ctl.xcvrEn) (hhid : t.hid = s.hid) :
    ModeFrame s t where
  toOnlyWoken := onlyWoken_of_eq hmode hxcvr
  idle h := by rw [hhid]; exact h
  noSend h := by rw [hhid]; exact h

theorem modeFrame_backendMove (m : BackendMove) (s : State) : ModeFrame s (backendMove m s) where
  toOnlyWoken := (onlyWoken_of_eq rfl rfl).backendMove m
  idle h := by rw [backendMove_hid]; exact h
  noSend h := by rw [backendMove_hid]; exact h

/-! ### Dispatches and sends -/

/-- R250: the last step of a dispatch leaves the dispatcher idle. -/
theorem dispatch_idle (h : dispatch s = .next t) : t.hid.dstate = .idle := by
  unfold dispatch at h
  obtain ⟨_, _, h⟩ := andThen_eq_next.1 h
  obtain ⟨_, _, h⟩ := andThen_eq_next.1 h
  obtain ⟨_, _, h⟩ := andThen_eq_next.1 h
  obtain ⟨_, _, h⟩ := andThen_eq_next.1 h
  cases h
  rfl

theorem dispatch_sending (h : dispatch s = .next t) : t.hid.sending = s.hid.sending :=
  (Keep.of_proj (fun s => s.hid.sending) s.hid.sending (fun _ => rfl) (fun _ _ => by simp) (fun _ => rfl) txEvent_sending
    (fun _ _ _ => rfl) (fun _ _ => rfl) (fun _ => rfl) (fun _ => rfl)).dispatch rfl h

theorem dispatch_modeFrame (h : dispatch s = .next t) : ModeFrame s t where
  toOnlyWoken := (keep_onlyWoken s).dispatch (onlyWoken_of_eq rfl rfl) h
  idle _ := dispatch_idle h
  noSend hs := (dispatch_sending h).trans hs

theorem applicationGap_onlyWoken (h : applicationGap t = .next u) (hs : OnlyWoken s t) : OnlyWoken s u :=
  (keep_onlyWoken s).applicationGap hs h

/-- R73, R250: a dispatch that falls into a boundary of a send has ended when the boundary is behind. -/
theorem applicationGap_idle (h : applicationGap s = .next t) (hs : s.hid.dstate = .idle) : t.hid.dstate = .idle :=
  (applicationGap_keeps (A := fun _ => True) (P := fun s => s.hid.dstate = .idle) (fun _ h => h)
    (fun m s _ h => by rw [backendMove_hid]; exact h) (fun _ t _ _ h => ⟨dispatch_idle h, allowedGaps_true t⟩)
    (allowedGaps_true s) hs h).1

/-- R201, R204: the request step ends the send and touches neither mode nor transceiver nor dispatcher. -/
theorem sendRequest_frame (i : Nat) (s : State) :
    (sendRequest i s).ctl.mode = s.ctl.mode ∧ (sendRequest i s).ctl.xcvrEn = s.ctl.xcvrEn ∧
      (sendRequest i s).hid = { s.hid with sending := none } := by
  rcases sendRequest_cases i s with ⟨_, e⟩ | ⟨_, e⟩ <;> rw [e] <;> exact ⟨rfl, rfl, rfl⟩

theorem sendSteps_modeFrame {i : Nat} {rtr : Bool} {dlc : OperandRegs → Nat} {data : OperandRegs → List Byte}
    (h : sendSteps i rtr dlc data (sendAllocate i s) = .next t) : ModeFrame s t := by
  obtain ⟨s1, s2, s3, h1, h2, h3, rfl⟩ := sendSteps_cases h
  obtain ⟨img, _, rfl⟩ := sendWrite_eq_next h2
  obtain ⟨hmode, hxcvr, hhid⟩ := sendRequest_frame i s3
  have hw1 : OnlyWoken s s1 := applicationGap_onlyWoken h1 (onlyWoken_of_eq rfl rfl)
  have hw3 : OnlyWoken s s3 := applicationGap_onlyWoken h3 (hw1.congr rfl rfl)
  refine ⟨hw3.congr hmode hxcvr, fun hidle => ?_, fun _ => by rw [hhid]⟩
  have hi1 : s1.hid.dstate = .idle := applicationGap_idle h1 hidle
  have hi3 : s3.hid.dstate = .idle := applicationGap_idle h3 hi1
  rw [hhid]
  exact hi3

/-! ### Commands -/

theorem exec_modeFrame {i : Instr} (hinit : i ≠ .cmInit) (hsleep : i ≠ .cmSleep) (hwake : i ≠ .cmWake)
    (h : exec i s = .next t) : ModeFrame s t := by
  cases i with
  | btCompute => cases h; split <;> exact modeFrame_of_eq rfl rfl rfl
  | fcEncd => cases h; split <;> exact modeFrame_of_eq rfl rfl rfl
  | fcEncr => cases h; split <;> exact modeFrame_of_eq rfl rfl rfl
  | fcDec => cases h; exact modeFrame_of_eq rfl rfl rfl
  | baAlloc i =>
    rcases execBaAlloc_cases i s with ⟨_, e⟩ | ⟨_, e⟩ <;> rw [exec, e] at h <;> cases h <;>
      exact modeFrame_of_eq rfl rfl rfl
  | baFree i =>
    obtain ⟨_, _, rfl⟩ := execBaFree_cases h
    exact modeFrame_of_eq rfl rfl rfl
  | cmInit => exact absurd rfl hinit
  | cmSleep => exact absurd rfl hsleep
  | cmWake => exact absurd rfl hwake
  | cmErrcnt => cases h; exact modeFrame_of_eq rfl rfl rfl
  | txSend i =>
    obtain ⟨_, ⟨c, _, rfl⟩ | ⟨_, h⟩⟩ := execTxSend_cases h
    · exact modeFrame_of_eq rfl rfl rfl
    · exact sendSteps_modeFrame h
  | txSendr i =>
    obtain ⟨_, ⟨c, _, rfl⟩ | ⟨_, h⟩⟩ := execTxSendr_cases h
    · exact modeFrame_of_eq rfl rfl rfl
    · exact sendSteps_modeFrame h
  | isDispatch => exact dispatch_modeFrame h

/-- R180, R181: everything a command can do as to the mode. The set-up is written by `CM.INIT` only. -/
theorem exec_mode_cases {i : Instr} (h : exec i s = .next t) :
    (i = .cmInit ∧ execCmInit s = .next t) ∨ (i = .cmSleep ∧ execCmSleep s = .next t) ∨
      (i = .cmWake ∧ execCmWake s = .next t) ∨ (setup t = setup s ∧ ModeFrame s t) := by
  by_cases hinit : i = .cmInit
  · subst hinit; exact .inl ⟨rfl, h⟩
  by_cases hsleep : i = .cmSleep
  · subst hsleep; exact .inr (.inl ⟨rfl, h⟩)
  by_cases hwake : i = .cmWake
  · subst hwake; exact .inr (.inr (.inl ⟨rfl, h⟩))
  · exact .inr (.inr (.inr ⟨exec_setup hinit h, exec_modeFrame hinit hsleep hwake h⟩))

/-- R180: the edges that a command can take. -/
theorem exec_mode_edge {i : Instr} (h : exec i s = .next t) :
    t.ctl.mode = s.ctl.mode ∨ (i = .cmInit ∧ (t.ctl.mode = .normal ∨ t.ctl.mode = .uninitialized)) ∨
      (i = .cmSleep ∧ s.ctl.mode = .normal ∧ t.ctl.mode = .sleep) ∨
      (i = .cmWake ∧ (s.ctl.mode = .sleep ∨ s.ctl.mode = .listenOnly) ∧ t.ctl.mode = .normal) ∨
      (s.ctl.mode = .sleep ∧ t.ctl.mode = .listenOnly) := by
  rcases exec_mode_cases h with ⟨hi, h⟩ | ⟨hi, h⟩ | ⟨hi, h⟩ | ⟨_, hframe⟩
  · rcases execCmInit_cases s with ⟨c, _, e⟩ | ⟨f, _, _, e⟩ | ⟨f, _, _, e⟩ <;> rw [e] at h <;> cases h
    · exact .inl rfl
    · exact .inr (.inl ⟨hi, .inr rfl⟩)
    · exact .inr (.inl ⟨hi, .inl rfl⟩)
  · obtain ⟨hm, ⟨_, rfl⟩ | ⟨_, rfl⟩⟩ := execCmSleep_cases h
    · exact .inl rfl
    · exact .inr (.inr (.inl ⟨hi, hm, rfl⟩))
  · obtain ⟨hm, ⟨_, rfl⟩ | ⟨_, rfl⟩⟩ := execCmWake_cases h
    · rcases hm with hm | hm
      · exact .inr (.inr (.inr (.inr ⟨hm, rfl⟩)))
      · exact .inl hm.symm
    · exact .inr (.inr (.inr (.inl ⟨hi, hm, rfl⟩)))
  · exact hframe.mode.imp_right fun hwoken => .inr (.inr (.inr hwoken))

end

/-- Settles O28: a command takes the edges of `exec_mode_edge`, the backend and the dispatcher the one of the wake, and a
hardware reset leads to `Uninitialized`. -/
theorem modeFollowsTheStateMachine : Obligations.ModeFollowsTheStateMachine := by
  unfold Obligations.ModeFollowsTheStateMachine
  intro s t h hne
  obtain ⟨_, ⟨w, i, rest, ha, hd, h⟩ | ⟨_, _, _, _, _, rfl⟩ | ⟨_, _, _, rfl⟩ | ⟨b, rest, _, rfl⟩ | ⟨rest, ha, rfl⟩ |
    ⟨rest, _, ⟨_, h⟩ | ⟨_, rfl⟩⟩⟩ := step_cases h
  · rcases exec_mode_edge h with he | ⟨rfl, hn | hu⟩ | ⟨rfl, hm, ht⟩ | ⟨rfl, hm, ht⟩ | hwoken
    · exact absurd he hne
    · exact .inl ⟨hn, w, rest, ha, .inl hd⟩
    · exact .inr (.inl ⟨hu, _, rest, ha, .inr ⟨w, rfl, hd⟩⟩)
    · exact .inr (.inr (.inl ⟨hm, ht, w, rest, ha, hd⟩))
    · exact .inl ⟨ht, w, rest, ha, .inr ⟨hd, hm⟩⟩
    · exact .inr (.inr (.inr hwoken))
  · exact absurd rfl hne
  · exact absurd rfl hne
  · exact .inr (.inr (.inr ((modeFrame_backendMove b _).mode.resolve_left hne)))
  · exact .inr (.inl ⟨rfl, _, rest, ha, .inl rfl⟩)
  · exact .inr (.inr (.inr ((dispatch_modeFrame h).mode.resolve_left hne)))
  · exact absurd rfl hne

/-! ### The invariant between two steps -/

section

variable {s t : State}

/-- The invariant speaks of control registers and hidden state only. -/
theorem ModeInv.congr (h : ModeInv s) (hctl : t.ctl = s.ctl) (hhid : t.hid = s.hid) : ModeInv t where
  settled := by rw [hctl]; exact h.settled
  idle := by rw [hhid]; exact h.idle
  noSend := by rw [hhid]; exact h.noSend
  xcvr := by rw [hctl]; exact h.xcvr
  hnd := by rw [hctl]; exact h.hnd
  fresh := by rw [hctl]; exact h.fresh

/-- Between two modes other than `Uninitialized` and `Configuration`, the invariant is about the transceiver alone. -/
theorem ModeInv.of_mode_changed (h : ModeInv s) (hs : s.ctl.mode ≠ .uninitialized) (hconf : t.ctl.mode ≠ .configuration)
    (hinit : t.ctl.mode ≠ .uninitialized) (hxcvr : t.ctl.xcvrEn = (t.ctl.mode == .normal)) (hhnd : t.ctl.hnd = s.ctl.hnd)
    (hidle : t.hid.dstate = .idle) (hsend : t.hid.sending = none) : ModeInv t where
  settled := hconf
  idle := hidle
  noSend := hsend
  xcvr := hxcvr
  hnd := by rw [hhnd, h.hnd, if_neg hs, if_neg hinit]
  fresh hu := absurd hu hinit

/-- R240: a wake leads from a mode with the transceiver off to another one; with no wake the invariant is that of before. -/
theorem ModeInv.of_modeFrame (h : ModeInv s) (hsetup : setup t = setup s) (hf : ModeFrame s t) : ModeInv t := by
  obtain ⟨_, hbtr, htxn, hrxn, hhnd, hie⟩ := setup_eq_iff.1 hsetup
  rcases hf.mode with hmode | ⟨hsleep, hlisten⟩
  · exact {
      settled := by rw [hmode]; exact h.settled
      idle := hf.idle h.idle
      noSend := hf.noSend h.noSend
      xcvr := by rw [hf.xcvr, hmode]; exact h.xcvr
      hnd := by rw [hhnd, hmode]; exact h.hnd
      fresh := by rw [hmode, htxn, hrxn, hie, hbtr]; exact h.fresh }
  · have hoff : t.ctl.xcvrEn = (t.ctl.mode == .normal) := by rw [hf.xcvr, h.xcvr, hsleep, hlisten]; rfl
    exact h.of_mode_changed (by rw [hsleep]; nofun) (by rw [hlisten]; nofun) (by rw [hlisten]; nofun) hoff hhnd
      (hf.idle h.idle) (hf.noSend h.noSend)

theorem modeInv_of_ctl_reset (hctl : t.ctl = ControlRegs.reset) (hidle : t.hid.dstate = .idle)
    (hsend : t.hid.sending = none) : ModeInv t where
  settled := by rw [hctl]; nofun
  idle := hidle
  noSend := hsend
  xcvr := by rw [hctl]; rfl
  hnd := by rw [hctl]; rfl
  fresh _ := by rw [hctl]; exact ⟨rfl, rfl, rfl, rfl⟩

/-- R186: a bring-up leaves `Normal` with the transceiver on and both handlers. -/
theorem modeInv_initSucceeded (f : TimingFields) (hsend : s.hid.sending = none) : ModeInv (initSucceeded f s) where
  settled := nofun
  idle := rfl
  noSend := hsend
  xcvr := rfl
  hnd := rfl
  fresh := nofun

theorem execCmInit_modeInv (hs : ModeInv s) (h : execCmInit s = .next t) : ModeInv t := by
  rcases execCmInit_cases s with ⟨c, _, e⟩ | ⟨f, _, _, e⟩ | ⟨f, _, _, e⟩ <;> rw [e] at h <;> cases h
  · exact hs.congr rfl rfl
  · exact modeInv_of_ctl_reset rfl rfl hs.noSend
  · exact modeInv_initSucceeded f hs.noSend

theorem execCmSleep_modeInv (hs : ModeInv s) (h : execCmSleep s = .next t) : ModeInv t := by
  obtain ⟨hm, ⟨_, rfl⟩ | ⟨_, rfl⟩⟩ := execCmSleep_cases h
  · exact hs.congr rfl rfl
  · exact hs.of_mode_changed (by rw [hm]; nofun) nofun nofun rfl rfl hs.idle hs.noSend

/-- R191: a wake that is not confirmed leaves the transceiver off, as it was in `Sleep` and in `ListenOnly`. -/
theorem execCmWake_modeInv (hs : ModeInv s) (h : execCmWake s = .next t) : ModeInv t := by
  obtain ⟨hm, hcases⟩ := execCmWake_cases h
  have hoff : s.ctl.xcvrEn = false := by rcases hm with hm | hm <;> rw [hs.xcvr, hm] <;> rfl
  have hinit : s.ctl.mode ≠ .uninitialized := by rcases hm with hm | hm <;> rw [hm] <;> nofun
  obtain ⟨_, rfl⟩ | ⟨_, rfl⟩ := hcases
  · exact hs.of_mode_changed hinit nofun nofun hoff rfl hs.idle hs.noSend
  · exact hs.of_mode_changed hinit nofun nofun rfl rfl hs.idle hs.noSend

end

theorem exec_modeInv (i : Instr) (s t : State) (hs : ModeInv s) (h : exec i s = .next t) : ModeInv t := by
  rcases exec_mode_cases h with ⟨_, h⟩ | ⟨_, h⟩ | ⟨_, h⟩ | ⟨hsetup, hframe⟩
  · exact execCmInit_modeInv hs h
  · exact execCmSleep_modeInv hs h
  · exact execCmWake_modeInv hs h
  · exact hs.of_modeFrame hsetup hframe

/-- Settles O49: the mode commands establish the invariant for the mode they leave, and everything else changes the mode by a
wake at most. -/
theorem everyStepKeepsModeDiscipline : Obligations.EveryStepKeepsModeDiscipline := by
  unfold Obligations.EveryStepKeepsModeDiscipline
  intro s t hs h
  exact step_keeps (fun _ _ h => h.congr rfl rfl) (fun _ _ h => h.congr rfl rfl) (fun _ _ h => h.congr rfl rfl)
    (fun _ _ h => h.congr rfl rfl) (fun m s h => h.of_modeFrame (setup_backendMove m s) (modeFrame_backendMove m s))
    exec_modeInv (fun _ _ => modeInv_of_ctl_reset rfl rfl rfl) hs h

end Sys2Proof.Machine
end

section
/-! The commands of mode and health, outcome by outcome: `CM.INIT` against the argument checks of R183, the reset values of R185
and the bring-up of R186; `CM.SLEEP`, `CM.WAKE` and `CM.ERRCNT` (R188 to R193). -/

namespace Sys2Proof.Machine

/-! ### The argument checks of CM.INIT (R183) -/

theorem exec_cmInit_of_error {s : State} {c : ResCode} (h : initChecks s = .error c) :
    exec .cmInit s = .next (finish c s) := by
  simp only [exec, execCmInit, h]

theorem initChecks_of_no_handler {s : State} (h : s.ops.txh = false ∨ s.ops.rxh = false) :
    initChecks s = .error .invalidArgument := by
  have hmissing : (!s.ops.txh || !s.ops.rxh) = true := by simpa using h
  rw [initChecks, if_pos hmissing]

/-- R183: both handler checks and both count checks give the same error, so their order does not show. -/
theorem initChecks_of_bad_counts {s : State}
    (h : 8 < s.ops.txn.toNat ∨ 8 < s.ops.rxn.toNat ∨ s.cfg.bufCap < s.ops.txn.toNat + s.ops.rxn.toNat) :
    initChecks s = .error .invalidArgument := by
  rw [initChecks, if_pos h, ite_self]

/-- With handlers and counts in order, the answer is that of the timing calculator. -/
theorem initChecks_of_legal_counts {s : State} (htxh : s.ops.txh = true) (hrxh : s.ops.rxh = true)
    (htxn : s.ops.txn.toNat ≤ 8) (hrxn : s.ops.rxn.toNat ≤ 8)
    (hcap : s.ops.txn.toNat + s.ops.rxn.toNat ≤ s.cfg.bufCap) :
    initChecks s = (computeTiming s.cfg (timingSpec s.ops)).elim (.error .invalidTiming) .ok := by
  have hhandlers : ¬ (!s.ops.txh || !s.ops.rxh) = true := by simp [htxh, hrxh]
  rw [initChecks, if_neg hhandlers, if_neg (by omega)]
  cases computeTiming s.cfg (timingSpec s.ops) <;> rfl

theorem initChecks_of_argumentsLegal {s : State} {Q : Nat} (hc : cfgWf s.cfg = true) (h : InitArgumentsLegal s Q) :
    initChecks s = .ok (timingFields s.cfg (timingSpec s.ops) Q) := by
  obtain ⟨htxh, hrxh, htxn, hrxn, hcap, hQ⟩ := h
  rw [initChecks_of_legal_counts htxh hrxh htxn hrxn hcap,
    (computeTiming_eq_some_iff_timingLegal hc).2 ⟨Q, hQ, rfl⟩, Option.elim_some]

/-- Settles O20: a failing check ends the command with `finish` alone, and no legal quotient is the calculator's error. -/
theorem cmInitRejectsBadArguments : Obligations.CmInitRejectsBadArguments := by
  unfold Obligations.CmInitRejectsBadArguments
  refine fun s hc => ⟨fun h => exec_cmInit_of_error (initChecks_of_no_handler h),
    fun h => exec_cmInit_of_error (initChecks_of_bad_counts h), fun htxh hrxh htxn hrxn hcap hno => ?_⟩
  have hnone := (computeTiming_eq_none_iff_timingLegal hc).2 hno
  exact exec_cmInit_of_error (by rw [initChecks_of_legal_counts htxh hrxh htxn hrxn hcap, hnone, Option.elim_none])

/-! ### The hardware steps of CM.INIT (R184 to R186) -/

/-- R21: all four read-back verdicts are 1 exactly when `IN_RB` is all ones. -/
theorem verdicts_eq_true_iff (s : State) :
    (rbReset s && rbTiming s && rbIe s && rbMode s) = true ↔ s.inp.rb = 0xF := by
  have hall : ∀ rb : BitVec 4,
      (rb.getLsbD 0 && rb.getLsbD 1 && rb.getLsbD 2 && rb.getLsbD 3) = true ↔ rb = 0xF := by decide
  exact hall s.inp.rb

theorem exec_cmInit_of_confirmed {s : State} {f : TimingFields} (h : initChecks s = .ok f) (hrb : s.inp.rb = 0xF) :
    exec .cmInit s = .next (initSucceeded f s) := by
  have hverdicts := (verdicts_eq_true_iff s).2 hrb
  rcases execCmInit_cases s with ⟨c, hf, _⟩ | ⟨g, _, hno, _⟩ | ⟨g, hf, _, e⟩
  · exact absurd (h.symm.trans hf) nofun
  · exact absurd (hverdicts.symm.trans hno) nofun
  · cases h.symm.trans hf
    exact e

theorem exec_cmInit_of_mismatch {s : State} {f : TimingFields} (h : initChecks s = .ok f) (hrb : s.inp.rb ≠ 0xF) :
    exec .cmInit s = .next (initFailed s) := by
  rcases execCmInit_cases s with ⟨c, hf, _⟩ | ⟨g, _, _, e⟩ | ⟨g, _, hyes, _⟩
  · exact absurd (h.symm.trans hf) nofun
  · exact e
  · exact absurd ((verdicts_eq_true_iff s).1 hyes) hrb

/-- R37, R184: the trace of a controller reset. -/
theorem traceXcvrOff_eq (s : State) : traceXcvrOff s = s.trace ++ offEvents s := by
  unfold traceXcvrOff offEvents
  cases s.ctl.xcvrEn
  · exact (List.append_nil _).symm
  · rfl

/-- R182: the mask of at most eight configured buffers has exactly their bits. -/
theorem getLsbD_lowMask_of_le {n : Nat} (h : n ≤ 8) (k : Nat) : (lowMask n).getLsbD k = decide (k < n) := by
  rw [getLsbD_lowMask, ← Bool.decide_and]
  exact decide_eq_decide.2 ⟨And.right, fun hk => ⟨hk.trans_le h, hk⟩⟩

/-- R33: under accepted counts the enables are exactly the bits the map gives the configured buffers. -/
theorem getLsbD_enableWord_iff {c : Cfg} {T R : Nat} (h : irqBitsWf T R (irqBits c T R) = true) (k : Nat) :
    (enableWord c T R).getLsbD k = true ↔ k ∈ (irqBits c T R).tx ∨ k ∈ (irqBits c T R).rx := by
  obtain ⟨_, _, _, hbelow⟩ := irqBitsWf_iff.1 h
  rw [enableWord, getLsbD_bitsWord, Bool.and_eq_true, decide_eq_true_eq, List.contains_iff_mem, List.mem_append]
  exact ⟨And.right, fun hk => ⟨hbelow k (List.mem_append_left _ (List.mem_append.2 hk)), hk⟩⟩

/-- Settles O21: the state is `initSucceeded`; masks, enables and timing word are read off bit by bit and field by field. -/
theorem cmInitBringsUpTheBlock : Obligations.CmInitBringsUpTheBlock := by
  unfold Obligations.CmInitBringsUpTheBlock
  intro s Q hc hlegal hrb
  have hrun := exec_cmInit_of_confirmed (initChecks_of_argumentsLegal hc hlegal) hrb
  obtain ⟨_, _, htxn, hrxn, hcap, hQ⟩ := hlegal
  have hT : (Fin.ofNat 9 s.ops.txn.toNat).val = s.ops.txn.toNat := Nat.mod_eq_of_lt (by omega)
  have hR : (Fin.ofNat 9 s.ops.rxn.toNat).val = s.ops.rxn.toNat := Nat.mod_eq_of_lt (by omega)
  have hbits := irqBits_of_wf hc htxn hrxn hcap
  rw [← hT, ← hR] at hbits
  rw [initSucceeded, packTiming_timingFields hc hQ, traceXcvrOff_eq] at hrun
  exact ⟨Fin.ofNat 9 s.ops.txn.toNat, Fin.ofNat 9 s.ops.rxn.toNat, _, _, _, s.hid.snap, s.hid.scan, hT, hR,
    getLsbD_lowMask_of_le (by omega), getLsbD_lowMask_of_le (by omega), getLsbD_enableWord_iff hbits, hrun⟩

/-- Settles O22: the state is `initFailed`, the reset values of R46 with the trace of one controller reset. -/
theorem cmInitMismatchLeavesResetState : Obligations.CmInitMismatchLeavesResetState := by
  unfold Obligations.CmInitMismatchLeavesResetState
  refine ⟨rfl, fun s Q hc hlegal hrb => ⟨s.hid.snap, s.hid.scan, ?_⟩⟩
  have hrun := exec_cmInit_of_mismatch (initChecks_of_argumentsLegal hc hlegal) hrb
  rw [initFailed, traceXcvrOff_eq] at hrun
  exact hrun

/-! ### CM.SLEEP, CM.WAKE and CM.ERRCNT (R188 to R193) -/

section

variable {s : State}

theorem exec_cmSleep_of_confirmed (hm : s.ctl.mode = .normal) (hrb : rbMode s = true) :
    exec .cmSleep s = .next (finish .ok (driveXcvr false (setMode .sleep s))) := by
  rw [exec, execCmSleep, if_neg (not_not_intro hm), hrb]
  rfl

theorem exec_cmSleep_of_mismatch (hm : s.ctl.mode = .normal) (hrb : rbMode s = false) :
    exec .cmSleep s = .next (finish .hardwareFault s) := by
  rw [exec, execCmSleep, if_neg (not_not_intro hm), hrb]
  rfl

theorem exec_cmSleep_outside (hm : s.ctl.mode ≠ .normal) :
    exec .cmSleep s = .refused (.commandOutsideItsMode s.ctl.mode) := by
  rw [exec, execCmSleep, if_pos hm]

theorem exec_cmWake_of_confirmed (hm : s.ctl.mode = .sleep ∨ s.ctl.mode = .listenOnly) (hrb : rbMode s = true) :
    exec .cmWake s = .next (finish .ok (driveXcvr true (setMode .normal (setMode .listenOnly s)))) := by
  rw [exec, execCmWake, if_neg (fun h => hm.elim h.1 h.2), hrb]
  rfl

theorem exec_cmWake_of_mismatch (hm : s.ctl.mode = .sleep ∨ s.ctl.mode = .listenOnly) (hrb : rbMode s = false) :
    exec .cmWake s = .next (finish .hardwareFault (setMode .listenOnly s)) := by
  rw [exec, execCmWake, if_neg (fun h => hm.elim h.1 h.2), hrb]
  rfl

theorem exec_cmWake_outside (hsleep : s.ctl.mode ≠ .sleep) (hlisten : s.ctl.mode ≠ .listenOnly) :
    exec .cmWake s = .refused (.commandOutsideItsMode s.ctl.mode) := by
  rw [exec, execCmWake, if_pos ⟨hsleep, hlisten⟩]

end

/-- Settles O23: the two verdicts in `Normal`, and the refusal elsewhere. -/
theorem cmSleepEntersSleepOrStays : Obligations.CmSleepEntersSleepOrStays := by
  unfold Obligations.CmSleepEntersSleepOrStays
  exact fun s => ⟨exec_cmSleep_of_confirmed, exec_cmSleep_of_mismatch, exec_cmSleep_outside⟩

/-- Settles O24: the two verdicts after the bridge through `ListenOnly`, and the refusal elsewhere. -/
theorem cmWakeEntersNormalOrListens : Obligations.CmWakeEntersNormalOrListens := by
  unfold Obligations.CmWakeEntersNormalOrListens
  exact fun s => ⟨exec_cmWake_of_confirmed, exec_cmWake_of_mismatch, exec_cmWake_outside⟩

/-- Settles O25: the wake writes back the mode and the transceiver that the sleep changed. -/
theorem sleepThenWakeRestoresEverything : Obligations.SleepThenWakeRestoresEverything := by
  unfold Obligations.SleepThenWakeRestoresEverything
  intro s hm hx hrb
  have hback : { s.ctl with mode := .normal, xcvrEn := true } = s.ctl := by rw [← hm, ← hx]
  have htrace : s.trace ++ [.xcvr false] ++ [.xcvr true] = s.trace ++ [.xcvr false, .xcvr true] := List.append_assoc ..
  have hwake := exec_cmWake_of_confirmed (s := finish .ok (driveXcvr false (setMode .sleep s))) (.inl rfl) hrb
  rw [runCommands, exec_cmSleep_of_confirmed hm hrb, andThen_next, runCommands_singleton, hwake, ← hback, ← htrace]
  rfl

/-- Settles O26: the command reads two counters into two result registers. -/
theorem cmErrcntSnapshotsCounters : Obligations.CmErrcntSnapshotsCounters := by
  unfold Obligations.CmErrcntSnapshotsCounters
  exact fun s => rfl

end Sys2Proof.Machine
end

section
/-! Which commands are refused for the mode: four commands outside their modes, and no boundary, dispatch or send once it has
begun (R175, R181). -/

namespace Sys2Proof.Machine

/-! ### What is never refused for the mode -/

/-- The outcome is not the refusal of a command for its mode. -/
def NotRefusedForMode (o : Out) : Prop := ∀ m, o ≠ .refused (.commandOutsideItsMode m)

theorem notRefusedForMode_next (s : State) : NotRefusedForMode (.next s) := nofun

theorem NotRefusedForMode.andThen {o : Out} {f : State → Out} (ho : NotRefusedForMode o)
    (hf : ∀ s, NotRefusedForMode (f s)) : NotRefusedForMode (andThen o f) := by
  cases o with
  | next s => exact hf s
  | fault r => exact nofun
  | refused r => exact ho

/-- U8: a boundary inside a dispatch is refused for a handler's move only. -/
theorem interruptMoves_notRefusedForMode (ms : List GapMove) (s : State) : NotRefusedForMode (interruptMoves ms s) := by
  induction ms generalizing s with
  | nil => exact notRefusedForMode_next s
  | cons m rest ih =>
    cases m with
    | backend b => exact ih _
    | takeIrq => exact ih _
    | handlerCommand w => exact nofun
    | handlerOperand o => exact nofun

theorem interruptGap_notRefusedForMode (s : State) : NotRefusedForMode (interruptGap s) :=
  interruptMoves_notRefusedForMode _ _

theorem scanTx_notRefusedForMode (is : List Nat) (s : State) : NotRefusedForMode (scanTx is s) := by
  induction is generalizing s with
  | nil => exact notRefusedForMode_next s
  | cons i rest ih => exact (interruptGap_notRefusedForMode _).andThen ih

theorem scanRx_notRefusedForMode (js : List Nat) (hjs : ∀ j ∈ js, j < 8) (s : State) :
    NotRefusedForMode (scanRx js s) := by
  induction js generalizing s with
  | nil => exact notRefusedForMode_next s
  | cons j rest ih =>
    obtain ⟨u, hu⟩ := rxEvent_total j s (hjs j (by simp))
    rw [scanRx, hu]
    exact (interruptGap_notRefusedForMode u).andThen (ih fun k hk => hjs k (by simp [hk]))

theorem dispatch_notRefusedForMode (s : State) : NotRefusedForMode (dispatch s) := by
  refine (interruptGap_notRefusedForMode _).andThen fun s1 => ?_
  refine (scanTx_notRefusedForMode _ s1).andThen fun s2 => ?_
  have hslots : ∀ j ∈ List.range s2.ctl.rxn.val, j < 8 := fun j hj => by
    have := List.mem_range.1 hj
    omega
  refine (scanRx_notRefusedForMode _ hslots s2).andThen fun s3 => ?_
  exact (interruptGap_notRefusedForMode _).andThen fun s4 => notRefusedForMode_next _

theorem applicationMoves_notRefusedForMode (ms : List GapMove) (s : State) :
    NotRefusedForMode (applicationMoves ms s) := by
  induction ms generalizing s with
  | nil => exact notRefusedForMode_next s
  | cons m rest ih =>
    cases m with
    | backend b => exact ih _
    | takeIrq =>
      rw [applicationMoves]
      split
      · exact (dispatch_notRefusedForMode s).andThen ih
      · exact ih s
    | handlerCommand w => exact ih s
    | handlerOperand o => exact ih s

theorem sendSteps_notRefusedForMode {i : Nat} {rtr : Bool} {dlc : OperandRegs → Nat} {data : OperandRegs → List Byte}
    (hi : i < 8) (hd : ∀ o, (data o).length ≤ 8) (s : State) : NotRefusedForMode (sendSteps i rtr dlc data s) := by
  refine (applicationMoves_notRefusedForMode _ _).andThen fun s1 => ?_
  rw [sendWrite_next hi (hd s1.ops)]
  exact (applicationMoves_notRefusedForMode _ _).andThen fun s3 => notRefusedForMode_next _

/-- R200, R206: in `Normal` a send answers the error of step S1 or goes on to S2 and S3. -/
theorem exec_sendCommand_notRefusedForMode {s : State} (hm : s.ctl.mode = .normal) (rtr : Bool) (i : Nat) :
    NotRefusedForMode (exec (sendCommand rtr i) s) := by
  cases he : sendError i (sendLenOk rtr s.ops) s with
  | some c =>
    rw [exec_sendCommand_of_error hm he]
    exact notRefusedForMode_next _
  | none =>
    have hi : i < 8 := by have := (sendError_none he).1; omega
    rw [exec_sendCommand_of_none hm he]
    exact sendSteps_notRefusedForMode hi (sendData_length rtr) _

/-! ### The commands and their modes -/

/-- R181: the command has no meaning in the mode. -/
def OutsideItsMode (i : Instr) (m : Mode) : Prop :=
  match i with
  | .txSend _ | .txSendr _ | .cmSleep => m ≠ .normal
  | .cmWake => m ≠ .sleep ∧ m ≠ .listenOnly
  | .btCompute | .fcEncd | .fcEncr | .fcDec | .baAlloc _ | .baFree _ | .cmInit | .cmErrcnt | .isDispatch => False

theorem outsideItsMode_iff (i : Instr) (m : Mode) :
    OutsideItsMode i m ↔ ((∃ n, i = .txSend n) ∧ m ≠ .normal) ∨ ((∃ n, i = .txSendr n) ∧ m ≠ .normal) ∨
      (i = .cmSleep ∧ m ≠ .normal) ∨ (i = .cmWake ∧ m ≠ .sleep ∧ m ≠ .listenOnly) := by
  cases i <;> simp [OutsideItsMode]

theorem exec_of_outsideItsMode {i : Instr} {s : State} (h : OutsideItsMode i s.ctl.mode) :
    exec i s = .refused (.commandOutsideItsMode s.ctl.mode) := by
  cases i with
  | txSend n => exact if_pos h
  | txSendr n => exact if_pos h
  | cmSleep => exact if_pos h
  | cmWake => exact if_pos h
  | btCompute | fcEncd | fcEncr | fcDec | baAlloc _ | baFree _ | cmInit | cmErrcnt | isDispatch => exact h.elim

theorem execBaFree_notRefusedForMode (n : Nat) (s : State) : NotRefusedForMode (execBaFree n s) := by
  unfold execBaFree
  split
  · exact nofun
  · split
    · exact nofun
    · exact notRefusedForMode_next _

theorem execCmInit_notRefusedForMode (s : State) : NotRefusedForMode (execCmInit s) := by
  rcases execCmInit_cases s with ⟨_, _, e⟩ | ⟨_, _, _, e⟩ | ⟨_, _, _, e⟩ <;> rw [e] <;> exact notRefusedForMode_next _

theorem execCmSleep_notRefusedForMode {s : State} (hm : s.ctl.mode = .normal) : NotRefusedForMode (execCmSleep s) := by
  rw [execCmSleep, if_neg (not_not_intro hm)]
  split <;> exact notRefusedForMode_next _

theorem execCmWake_notRefusedForMode {s : State} (hm : ¬ (s.ctl.mode ≠ .sleep ∧ s.ctl.mode ≠ .listenOnly)) :
    NotRefusedForMode (execCmWake s) := by
  rw [execCmWake, if_neg hm]
  split <;> exact notRefusedForMode_next _

theorem exec_notRefusedForMode {i : Instr} {s : State} (h : ¬ OutsideItsMode i s.ctl.mode) :
    NotRefusedForMode (exec i s) := by
  cases i with
  | btCompute => exact notRefusedForMode_next _
  | fcEncd => exact notRefusedForMode_next _
  | fcEncr => exact notRefusedForMode_next _
  | fcDec => exact notRefusedForMode_next _
  | baAlloc n => exact notRefusedForMode_next _
  | baFree n => exact execBaFree_notRefusedForMode n s
  | cmInit => exact execCmInit_notRefusedForMode s
  | cmSleep => exact execCmSleep_notRefusedForMode (not_not.1 h)
  | cmWake => exact execCmWake_notRefusedForMode h
  | cmErrcnt => exact notRefusedForMode_next _
  | txSend n => exact exec_sendCommand_notRefusedForMode (not_not.1 h) false n
  | txSendr n => exact exec_sendCommand_notRefusedForMode (not_not.1 h) true n
  | isDispatch => exact dispatch_notRefusedForMode s

/-- Settles O27: outside its mode a command is refused by its first test, and inside nothing it does is refused for the mode;
with no buffer configured every buffer is missing. -/
theorem commandsOutsideTheirMode : Obligations.CommandsOutsideTheirMode := by
  unfold Obligations.CommandsOutsideTheirMode
  refine ⟨fun i s => ?_, fun s n htxn => exec_baFree_of_missing (by rw [htxn]; exact Nat.zero_le n)⟩
  rw [← outsideItsMode_iff]
  refine ⟨fun ⟨m, hm⟩ => ?_, fun h => ⟨_, exec_of_outsideItsMode h⟩⟩
  by_contra hinside
  exact exec_notRefusedForMode hinside m hm

end Sys2Proof.Machine
end

section
/-! The errors of a send, and a send between whose steps no other agent moves (R200 to R206). -/

namespace Sys2Proof.Machine

/-! ### Step S1 -/

/-- R202: the model's check is exactly the data model's condition. -/
theorem identifierInRange_iff {o : OperandRegs} : identifierInRange o = true ↔ IdentifierLegal o := by
  refine ⟨fun h => ?_, identifierInRange_of_legal⟩
  unfold identifierInRange at h
  unfold IdentifierLegal
  cases he : o.ext <;> simpa [he] using h

/-- R200, R206: the length check of either send. -/
theorem sendLenOk_iff {rtr : Bool} {o : OperandRegs} : sendLenOk rtr o = true ↔ ((!rtr) = true → o.len.toNat ≤ 8) := by
  cases rtr <;> simp [sendLenOk]

theorem sendArgumentsLegal_iff {s : State} {i : Nat} {rtr : Bool} :
    SendArgumentsLegal s i (!rtr) ↔
      i < s.ctl.txn.val ∧ sendLenOk rtr s.ops = true ∧ identifierInRange s.ops = true := by
  rw [SendArgumentsLegal, sendLenOk_iff, identifierInRange_iff]

/-- R205: the first errors are those of the arguments. -/
theorem sendError_of_illegal {s : State} {i : Nat} {rtr : Bool} (h : ¬ SendArgumentsLegal s i (!rtr)) :
    sendError i (sendLenOk rtr s.ops) s = some .invalidArgument := by
  rw [sendArgumentsLegal_iff] at h
  unfold sendError
  by_cases hi : s.ctl.txn.val ≤ i
  · rw [if_pos hi]
  · rw [if_neg hi]
    cases hlen : sendLenOk rtr s.ops
    · rfl
    · have hid : identifierInRange s.ops = false := by
        rw [Bool.eq_false_iff]
        exact fun hid => h ⟨Nat.not_le.1 hi, hlen, hid⟩
      simp [hid]

/-- R205: with legal arguments, the frame format is checked before the buffer. -/
theorem sendError_of_legal {s : State} {i : Nat} {rtr : Bool} (h : SendArgumentsLegal s i (!rtr)) :
    sendError i (sendLenOk rtr s.ops) s =
      if s.ops.ext && !s.cfg.extSupported then some .notSupported
      else if !s.ctl.freeMask.getLsbD i then some .busy else none := by
  obtain ⟨hi, hlen, hid⟩ := sendArgumentsLegal_iff.1 h
  simp [sendError, Nat.not_le.2 hi, hlen, hid]

/-- Settles O31: step S1 answers its first error, and an error ends the command with its code. -/
theorem sendErrorsHaveNoSideEffects : Obligations.SendErrorsHaveNoSideEffects := by
  unfold Obligations.SendErrorsHaveNoSideEffects
  intro s i rtr hm
  refine ⟨fun hillegal => ?_, fun hlegal hext hsup => ?_, fun hlegal hsup hbusy => ?_⟩
  · exact exec_sendCommand_of_error hm (sendError_of_illegal hillegal)
  · exact exec_sendCommand_of_error hm (by simp [sendError_of_legal hlegal, hext, hsup])
  · exact exec_sendCommand_of_error hm (by simpa [sendError_of_legal hlegal, hbusy] using hsup)

/-! ### The steps S2 and S3 with no move between them -/

theorem setBit_clearBit_of_set {w : Nat} {v : BitVec w} {k : Nat} (h : v.getLsbD k = true) :
    setBit (clearBit v k) k = v := by
  refine BitVec.eq_of_getLsbD_eq fun j hj => ?_
  by_cases hjk : j = k
  · subst hjk
    rw [getLsbD_setBit, h]
    simp [hj]
  · simp [hjk]

/-- R26, R200: a send is admitted for one of the eight buffers. -/
theorem SendAdmitted.idx_lt {s : State} {i : Nat} {lenChecked : Bool} (h : SendAdmitted s i lenChecked) : i < 8 := by
  obtain ⟨_, ⟨hi, _⟩, _⟩ := h
  omega

theorem slotStored_setList (i : Nat) (img : List Byte) (m : List Host.Cell) :
    SlotStored m (Memory.setList m (SlotAddr.key ⟨.TXS, i, 0⟩) img) i img :=
  ⟨slotHolds_setList i img m, fun k hk => by rw [Memory.get_setList, if_neg (by omega)]⟩

/-- The state at step S3 of a send when nothing fell between its steps: the buffer is taken and the slot holds the image. -/
def sendPrepared (i : Nat) (rtr : Bool) (s : State) : State :=
  { sendAllocate i s with
    hid := { s.hid with sending := some ⟨i, some (sendImage s rtr)⟩ }
    mem := Memory.setList s.mem (SlotAddr.key ⟨.TXS, i, 0⟩) (sendImage s rtr) }

theorem exec_sendCommand_quiet {s : State} {i : Nat} {rtr : Bool} (hg : s.gaps = []) (h : SendAdmitted s i (!rtr)) :
    exec (sendCommand rtr i) s = .next (sendRequest i (sendPrepared i rtr s)) := by
  have hn := sendError_of_admitted h
  have hw : sendWrite i rtr (sendDlc rtr s.ops) (sendData rtr s.ops) (sendAllocate i s) =
      .next (sendPrepared i rtr s) := by
    rw [sendWrite_next h.idx_lt (sendData_length rtr s.ops), sendPrepared, sendImage_eq]
    rfl
  rw [exec_sendCommand_of_none h.1 hn, sendSteps, applicationGap_empty (sendAllocate i s) hg, andThen_next]
  refine (congrArg (andThen · _) hw).trans ?_
  rw [andThen_next, applicationGap_empty (sendPrepared i rtr s) hg, andThen_next]

/-- The state after a send that the backend accepts, when nothing fell between its steps (R200, R203). -/
def sendAccepted (i : Nat) (rtr : Bool) (s : State) : State :=
  finish .ok (requestSend i (setSending none (sendPrepared i rtr s)))

theorem sendAccepted_ctl (i : Nat) (rtr : Bool) (s : State) :
    (sendAccepted i rtr s).ctl =
      { s.ctl with freeMask := clearBit s.ctl.freeMask i, txReq := setBit s.ctl.txReq i } := rfl

theorem exec_sendCommand_accepted {s : State} {i : Nat} {rtr : Bool} (hg : s.gaps = []) (hacc : s.inp.accept = true)
    (h : SendAdmitted s i (!rtr)) : exec (sendCommand rtr i) s = .next (sendAccepted i rtr s) := by
  rw [exec_sendCommand_quiet hg h]
  rcases sendRequest_cases i (sendPrepared i rtr s) with ⟨_, e⟩ | ⟨hno, _⟩
  · rw [e, sendAccepted]
  · exact absurd (hacc.symm.trans hno) nofun

/-- R204: what an admitted send leaves when the backend does not accept it. -/
theorem exec_sendCommand_unaccepted {s : State} {i : Nat} {rtr : Bool} (hg : s.gaps = []) (hacc : s.inp.accept = false)
    (h : SendAdmitted s i (!rtr)) :
    exec (sendCommand rtr i) s =
      .next (finish .busy (freeBuffer i (setSending none (sendPrepared i rtr s)))) := by
  rw [exec_sendCommand_quiet hg h]
  rcases sendRequest_cases i (sendPrepared i rtr s) with ⟨hyes, _⟩ | ⟨_, e⟩
  · exact absurd (hacc.symm.trans hyes) nofun
  · rw [e]

/-- Settles O29: the buffer is taken with `clearBit` and requested with `setBit`, and the store is the image's. -/
theorem acceptedSendRequestsTransmission : Obligations.AcceptedSendRequestsTransmission := by
  unfold Obligations.AcceptedSendRequestsTransmission
  intro s i rtr hg hacc h
  exact ⟨clearBit s.ctl.freeMask i, setBit s.ctl.txReq i, _, getLsbD_clearBit _ i, getLsbD_setBit_of_lt _ h.idx_lt,
    slotStored_setList i _ _, exec_sendCommand_accepted hg hacc h⟩

/-- Settles O30: freeing the buffer just taken gives the free mask back. -/
theorem unacceptedSendFreesTheBuffer : Obligations.UnacceptedSendFreesTheBuffer := by
  unfold Obligations.UnacceptedSendFreesTheBuffer
  intro s i rtr hg hacc h
  have hrun := exec_sendCommand_unaccepted hg hacc h
  obtain ⟨_, _, _, hfree⟩ := h
  have hctl : { s.ctl with freeMask := setBit (clearBit s.ctl.freeMask i) i } = s.ctl := by
    rw [setBit_clearBit_of_set hfree]
  refine ⟨_, slotStored_setList i _ _, hrun.trans ?_⟩
  conv => rhs; rw [← hctl]
  rfl

end Sys2Proof.Machine
end

section
/-! A send under the constrained backend agent: nothing that falls between its steps touches its buffer, its slot or its
request, dispatches included (R201, R210, R241). -/

namespace Sys2Proof.Machine

/-! ### Which status bit a constrained move raises -/

/-- The sources of a constrained backend move: an outstanding request, a configured receive slot, or one of the three
general sources (R236 to R240). -/
def RaisedBit (s : State) (k : Nat) : Prop :=
  (∃ i : Fin 8, s.ctl.txReq.getLsbD i.val = true ∧ k = txBit s i.val) ∨ (∃ j < s.ctl.rxn.val, k = rxBit s j) ∨
    k = s.irqBits.err ∨ k = s.irqBits.ovf ∨ k = s.irqBits.wake

/-- R236 to R241: a constrained move leaves `STATUS` alone or raises one bit that has a source. -/
theorem backendMove_status {m : BackendMove} (s : State) (hm : m.constrained = true) :
    (backendMove m s).ctl.status = s.ctl.status ∨
      ∃ k, RaisedBit s k ∧ (backendMove m s).ctl.status = setBit s.ctl.status k := by
  rcases backendMove_cases m s with h | ⟨i, _, hreq, h⟩ | ⟨j, _, _, hj, _, _, h⟩ | ⟨_, h⟩ | ⟨_, _, h⟩ | ⟨_, _, _, h⟩ |
    ⟨_, _, h⟩ | ⟨_, _, _, h⟩ | ⟨_, rfl, _⟩ | ⟨_, _, _, rfl, _⟩
  · exact .inl (by rw [h])
  · exact .inr ⟨_, .inl ⟨i, hreq, rfl⟩, by rw [h]; rfl⟩
  · exact .inr ⟨_, .inr (.inl ⟨j.val, hj, rfl⟩), by rw [h]; rfl⟩
  · exact .inr ⟨_, .inr (.inr (.inl rfl)), by rw [h]; rfl⟩
  · exact .inr ⟨_, .inr (.inr (.inr (.inl rfl))), by rw [h]; rfl⟩
  · exact .inl (by rw [h])
  · exact .inr ⟨_, .inr (.inr (.inr (.inr rfl))), by rw [h]; rfl⟩
  · exact .inl (by rw [h])
  · cases hm
  · cases hm

/-- R7, R39: the bit of a transmit buffer without a request has no other source. -/
theorem txBit_ne_of_raisedBit {s : State} {i k : Nat} (hc : cfgWf s.cfg = true) (hcounts : CountsInv s)
    (hb : BuffersInv s) (hi : i < s.ctl.txn.val) (hreq : s.ctl.txReq.getLsbD i = false) (hk : RaisedBit s k) :
    txBit s i ≠ k := by
  have bits := statusBits_of_counts hc hcounts
  obtain ⟨herr, hovf, hwake⟩ := txBit_ne_other bits hi
  rcases hk with ⟨n, hn, rfl⟩ | ⟨j, hj, rfl⟩ | rfl | rfl | rfl
  · have hlt : n.val < s.ctl.txn.val := by
      by_contra hge
      exact absurd (hn.symm.trans (hb.req n.val (Nat.not_lt.1 hge))) nofun
    have hne : i ≠ n.val := by
      rintro rfl
      exact absurd (hn.symm.trans hreq) nofun
    exact txBit_ne_txBit bits hi hlt hne
  · exact txBit_ne_rxBit bits hi hj
  · exact herr
  · exact hovf
  · exact hwake

/-! ### A buffer that a running send holds -/

/-- Transmit buffer `i` is taken, not requested, and no completion of it is pending, in a block that satisfies the
invariants of the configuration and the masks. -/
structure BufferHeld (i : Nat) (s : State) : Prop where
  wf          : cfgWf s.cfg = true
  counts      : CountsInv s
  buffers     : BuffersInv s
  configured  : i < s.ctl.txn.val
  busy        : s.ctl.freeMask.getLsbD i = false
  unrequested : s.ctl.txReq.getLsbD i = false
  notPending  : s.ctl.status.getLsbD (txBit s i) = false

/-- The same inside a dispatch: the snapshot has no completion of the buffer either. -/
structure BufferHeldInDispatch (i : Nat) (s : State) : Prop extends BufferHeld i s where
  unseen : s.hid.snap.getLsbD (txBit s i) = false

section

variable {i : Nat} {s t : State}

/-- R38: the map is part of what the set-up fixes. -/
theorem irqBits_of_setup_eq (h : setup t = setup s) : t.irqBits = s.irqBits := by
  obtain ⟨hcfg, _, htxn, hrxn, _, _⟩ := setup_eq_iff.1 h
  exact irqBits_congr hcfg htxn hrxn

theorem txBit_congr (i : Nat) (h : setup t = setup s) : txBit t i = txBit s i := by
  rw [txBit, txBit, irqBits_of_setup_eq h]

theorem rxBit_congr (j : Nat) (h : setup t = setup s) : rxBit t j = rxBit s j := by
  rw [rxBit, rxBit, irqBits_of_setup_eq h]

theorem BufferHeld.congr (h : BufferHeld i s) (hsetup : setup t = setup s) (hb : BuffersInv t)
    (hfree : t.ctl.freeMask.getLsbD i = s.ctl.freeMask.getLsbD i) (hreq : t.ctl.txReq.getLsbD i = false)
    (hstatus : t.ctl.status.getLsbD (txBit s i) = false) : BufferHeld i t := by
  obtain ⟨hcfg, _, htxn, _⟩ := setup_eq_iff.1 hsetup
  exact {
    wf := by rw [hcfg]; exact h.wf
    counts := h.counts.of_setup_eq hsetup
    buffers := hb
    configured := by rw [htxn]; exact h.configured
    busy := hfree.trans h.busy
    unrequested := hreq
    notPending := by rw [txBit_congr i hsetup]; exact hstatus }

/-- The part of the predicate outside a dispatch speaks of the set-up, the masks and `STATUS` only. -/
theorem BufferHeld.of_ctl_eq (h : BufferHeld i s) (hcfg : t.cfg = s.cfg) (hctl : t.ctl = s.ctl) : BufferHeld i t :=
  h.congr (setup_eq_iff.2 ⟨hcfg, by rw [hctl], by rw [hctl], by rw [hctl], by rw [hctl], by rw [hctl]⟩)
    (h.buffers.of_ctl_eq hctl) (by rw [hctl]) (by rw [hctl]; exact h.unrequested) (by rw [hctl]; exact h.notPending)

theorem BufferHeldInDispatch.of_held (h : BufferHeldInDispatch i s) (ht : BufferHeld i t) (hsetup : setup t = setup s)
    (hsnap : t.hid.snap = s.hid.snap) : BufferHeldInDispatch i t :=
  ⟨ht, by rw [txBit_congr i hsetup, hsnap]; exact h.unseen⟩

theorem BufferHeld.backendMove (h : BufferHeld i s) {m : BackendMove} (hm : m.constrained = true) :
    BufferHeld i (backendMove m s) := by
  refine h.congr (setup_backendMove m s) (h.buffers.backendMove m) (by rw [backendMove_ctl_freeMask])
    (backendMove_txReq_le m s i h.unrequested) ?_
  rcases backendMove_status s hm with e | ⟨k, hk, e⟩
  · rw [e]
    exact h.notPending
  · have hne := txBit_ne_of_raisedBit h.wf h.counts h.buffers h.configured h.unrequested hk
    simp [e, h.notPending, hne]

/-- R246: an iteration whose bit is not in the snapshot moves the scan position only. -/
theorem txEvent_of_unseen (h : s.hid.snap.getLsbD (txBit s i) = false) : txEvent i s = setScan (.tx i) s := by
  have hb : txBit (setScan (.tx i) s) i = txBit s i := rfl
  simp [txEvent, hb, h]

theorem txEvent_status (k : Nat) (s : State) : (txEvent k s).ctl.status = s.ctl.status := by
  rcases txEvent_cases k s with e | e <;> rw [e] <;> rfl

theorem txEvent_snap (k : Nat) (s : State) : (txEvent k s).hid.snap = s.hid.snap := by
  rcases txEvent_cases k s with e | e <;> rw [e] <;> rfl

/-- R246: D1 does not free a buffer whose bit is not in the snapshot. -/
theorem txEvent_freeMask_of_unseen (k : Nat) (h : s.hid.snap.getLsbD (txBit s i) = false) :
    (txEvent k s).ctl.freeMask.getLsbD i = s.ctl.freeMask.getLsbD i := by
  by_cases hik : i = k
  · subst hik
    rw [txEvent_of_unseen h]
    rfl
  · rcases txEvent_cases k s with e | e <;> simp [e, hik]

theorem BufferHeldInDispatch.txEvent (h : BufferHeldInDispatch i s) {k : Nat} (hk : k < s.ctl.txn.val) :
    BufferHeldInDispatch i (txEvent k s) := by
  refine h.of_held ?_ (setup_txEvent k s) (txEvent_snap k s)
  exact h.congr (setup_txEvent k s) (h.buffers.txEvent hk) (txEvent_freeMask_of_unseen k h.unseen)
    (by rw [txEvent_txReq]; exact h.unrequested) (by rw [txEvent_status]; exact h.notPending)

theorem BufferHeldInDispatch.rxEvent (h : BufferHeldInDispatch i s) {j : Nat} (hj : j < s.ctl.rxn.val)
    (ht : rxEvent j s = .next t) : BufferHeldInDispatch i t := by
  rcases rxEvent_cases ht with ⟨_, rfl⟩ | ⟨_, m, _, rfl⟩
  · exact h.of_held (h.of_ctl_eq rfl rfl) rfl rfl
  · have hb := keep_buffersInv.rx j s m hj h.buffers
    exact h.of_held (h.congr rfl hb rfl h.unrequested h.notPending) rfl rfl

/-- R210: a dispatch at a boundary of the send leaves its buffer as it is, and clears `STATUS`. -/
theorem BufferHeld.dispatch (hA : AllowedGaps (fun b => b.constrained = true) s) (h : BufferHeld i s)
    (ht : dispatch s = .next t) : BufferHeld i t ∧ AllowedGaps (fun b => b.constrained = true) t := by
  refine dispatch_keeps (P := BufferHeld i) (Q := BufferHeldInDispatch i) ?drop ?back ?enter ?tx ?rx ?count ?leave hA h ht
  case drop => exact fun s h => h.of_held (h.of_ctl_eq rfl rfl) rfl rfl
  case back =>
    exact fun m s hm h => h.of_held (h.toBufferHeld.backendMove hm) (setup_backendMove m s) (by rw [backendMove_hid])
  case enter => exact fun s h => ⟨h.of_ctl_eq rfl rfl, h.notPending⟩
  case tx => exact fun k s hk h => h.txEvent hk
  case rx => exact fun j s t hj h => h.rxEvent hj
  case count =>
    intro s h
    have hb := keep_buffersInv.count s h.buffers
    exact h.of_held (h.congr rfl hb rfl h.unrequested h.notPending) rfl rfl
  case leave =>
    intro s h
    have hb := keep_buffersInv.leave s h.buffers
    exact h.congr rfl hb rfl h.unrequested BitVec.getLsbD_zero

/-! ### The outcome -/

/-- R204: what the verdict `IN_ACCEPT` makes of the buffer and the request of a send. -/
def SendOutcome (i : Nat) (t : State) : Prop :=
  (t.inp.accept = true → t.res.code = .ok ∧ t.ctl.freeMask.getLsbD i = false ∧ t.ctl.txReq.getLsbD i = true) ∧
  (t.inp.accept = false → t.res.code = .busy ∧ t.ctl.freeMask.getLsbD i = true ∧ t.ctl.txReq.getLsbD i = false)

theorem BufferHeld.sendRequest (h : BufferHeld i s) : SendOutcome i (sendRequest i s) := by
  have hi : i < 8 := by have := h.configured; omega
  rcases sendRequest_cases i s with ⟨hacc, e⟩ | ⟨hacc, e⟩ <;> rw [e]
  · exact ⟨fun _ => ⟨rfl, h.busy, by simp [hi]⟩, fun hno => absurd (hacc.symm.trans hno) nofun⟩
  · exact ⟨fun hyes => absurd (hyes.symm.trans hacc) nofun, fun _ => ⟨rfl, by simp [hi], h.unrequested⟩⟩

/-- R76, R201: step S1 takes the buffer. -/
theorem bufferHeld_sendAllocate (hc : cfgWf s.cfg = true) (hb : BuffersInv s) (hcounts : CountsInv s)
    (hi : i < s.ctl.txn.val) (hreq : s.ctl.txReq.getLsbD i = false) (hstatus : s.ctl.status.getLsbD (txBit s i) = false) :
    BufferHeld i (sendAllocate i s) where
  wf := hc
  counts := hcounts.of_setup_eq rfl
  buffers := (hb.takeBuffer i).of_ctl_eq rfl
  configured := hi
  busy := by simp [sendAllocate]
  unrequested := hreq
  notPending := hstatus

theorem sendSteps_outcome {rtr : Bool} (hg : constrainedGaps s = true) (h : BufferHeld i (sendAllocate i s))
    (ht : sendSteps i rtr (sendDlc rtr) (sendData rtr) (sendAllocate i s) = .next t) : SendOutcome i t := by
  have hi : i < 8 := by have := h.configured; omega
  exact sendSteps_keeps (s := sendAllocate i s) (A := fun b => b.constrained = true) (R := BufferHeld i)
    (fun s h => h.of_ctl_eq rfl rfl) (fun m s hm h => h.backendMove hm) (fun s t hA h ht => h.dispatch hA ht) hi
    (sendData_length rtr)
    (fun s img _ h => h.of_ctl_eq rfl rfl) (fun s h => h.sendRequest)
    (allowed_of_gaps_eq (constrainedGaps_allowed hg) rfl) h ht

end

/-- Settles O33: the boundaries keep the buffer taken, unrequested and without a pending completion until step S3, and keep
the image in the slot. -/
theorem sendIsAtomicUnderConstrainedBackend : Obligations.SendIsAtomicUnderConstrainedBackend := by
  unfold Obligations.SendIsAtomicUnderConstrainedBackend
  intro s i rtr hc hb hcounts hg ha hreq hstatus
  have hn := sendError_of_admitted ha
  obtain ⟨t, ht⟩ := sendSteps_total ha.idx_lt (sendData_length rtr)
    (disciplined_of_gaps_eq (constrainedGaps_disciplined hg) (t := sendAllocate i s) rfl)
  have hheld := bufferHeld_sendAllocate hc hb hcounts (sendError_none hn).1 hreq hstatus
  exact ⟨t, (exec_sendCommand_of_none ha.1 hn).trans ht, sendSteps_slotHolds ha.idx_lt hg ht, sendSteps_outcome hg hheld ht⟩

end Sys2Proof.Machine
end

section
/-! A send, its transmit completion and the dispatch that serves it (R208). -/

namespace Sys2Proof.Machine

section

variable {s : State} {i : Nat}

/-! ### A dispatch that nobody disturbs -/

theorem txAll_trace (is : List Nat) (s : State) :
    (txAll is s).trace = s.trace ++ (is.filter fun i => s.hid.snap.getLsbD (txBit s i)).map Event.txHandler :=
  congrArg State.trace (txAll_eq is s)

theorem txAll_snap (is : List Nat) (s : State) : (txAll is s).hid.snap = s.hid.snap :=
  congrArg (fun u => u.hid.snap) (txAll_eq is s)

theorem txAll_txReq (is : List Nat) (s : State) : (txAll is s).ctl.txReq = s.ctl.txReq :=
  congrArg (fun u => u.ctl.txReq) (txAll_eq is s)

theorem setup_txAll (is : List Nat) (s : State) : setup (txAll is s) = setup s := by
  have h := congrArg setup (txAll_eq is s)
  exact h

theorem rxAll_trace (m : Nat → Message) (js : List Nat) (s : State) :
    (rxAll m js s).trace = s.trace ++ (js.filter fun j => s.hid.snap.getLsbD (rxBit s j)).flatMap fun j =>
      [.rxHandler j (m j), .rearm j] :=
  congrArg State.trace (rxAll_eq m js s)

theorem rxAll_freeMask (m : Nat → Message) (js : List Nat) (s : State) : (rxAll m js s).ctl.freeMask = s.ctl.freeMask :=
  congrArg (fun u => u.ctl.freeMask) (rxAll_eq m js s)

theorem rxAll_txReq (m : Nat → Message) (js : List Nat) (s : State) : (rxAll m js s).ctl.txReq = s.ctl.txReq :=
  congrArg (fun u => u.ctl.txReq) (rxAll_eq m js s)

/-- Every configured receive slot has a message (R154). -/
theorem exists_slotMessages (s : State) : ∃ m : Nat → Message, ∀ j < s.ctl.rxn.val, slotMessage j s = .ok (m j) := by
  have hmsg : ∀ j, ∃ m, j < s.ctl.rxn.val → slotMessage j s = .ok m := fun j => by
    by_cases hj : j < s.ctl.rxn.val
    · obtain ⟨m, hm⟩ := slotMessage_total j s (by omega)
      exact ⟨m, fun _ => hm⟩
    · exact ⟨⟨.data, 0, false, 0, []⟩, fun h => absurd h hj⟩
  exact ⟨_, fun j => (hmsg j).choose_spec⟩

/-- R245 to R250: what a dispatch during which no other agent moves leaves in the trace, the transmit masks and `STATUS`. -/
theorem dispatch_quiet_outcome (hg : s.gaps = []) :
    ∃ (t : State) (m : Nat → Message), dispatch s = .next t ∧
      t.trace = s.trace ++ (servedTx s).map Event.txHandler ++
        (servedRx s).flatMap (fun j => [.rxHandler j (m j), .rearm j]) ∧
      (∀ k < 8, t.ctl.freeMask.getLsbD k = (s.ctl.freeMask.getLsbD k || decide (k ∈ servedTx s))) ∧
      t.ctl.txReq = s.ctl.txReq ∧ t.ctl.status = 0 := by
  obtain ⟨m, hm⟩ := exists_slotMessages s
  have hrxBit : ∀ j, rxBit (txAll (List.range s.ctl.txn.val) (enterInterrupt s)) j = rxBit s j := fun j =>
    rxBit_congr j (setup_txAll _ _)
  refine ⟨_, m, dispatch_quiet hg hm, ?trace, fun k hk => ?free, ?req, rfl⟩
  case trace =>
    refine (rxAll_trace m _ _).trans ?_
    simp only [hrxBit, txAll_snap, txAll_trace]
    rfl
  case free =>
    refine (congrArg (·.getLsbD k) (rxAll_freeMask m _ _)).trans ?_
    exact txAll_freeMask _ _ k hk
  case req => exact (rxAll_txReq m _ _).trans (txAll_txReq _ _)

/-! ### The completion of an accepted send -/

/-- R236: a completion of a requested buffer. -/
theorem backendMove_complete {i : Fin 8} (h : s.ctl.txReq.getLsbD i.val = true) :
    backendMove (.complete i) s =
      raiseBit (txBit s i.val) { s with ctl := { s.ctl with txReq := clearBit s.ctl.txReq i.val } } := by
  simp only [backendMove, backendComplete, h, if_true]

theorem filter_range_eq_singleton {n i : Nat} {p : Nat → Bool} (hi : i < n) (hp : ∀ k < n, p k = decide (k = i)) :
    (List.range n).filter p = [i] := by
  rw [List.filter_congr fun k hk => hp k (List.mem_range.1 hk), List.filter_eq,
    List.count_eq_one_of_mem List.nodup_range (List.mem_range.2 hi)]
  rfl

/-- R7, R247: with the bit of buffer `i` alone in `STATUS`, a dispatch serves this buffer and no other. -/
theorem served_of_status_eq (b : StatusBits s.cfg s.ctl.txn.val s.ctl.rxn.val) (hi : i < s.ctl.txn.val)
    (h : s.ctl.status = setBit 0 (txBit s i)) : servedTx s = [i] ∧ servedRx s = [] := by
  have hstatus : ∀ k, s.ctl.status.getLsbD k = decide (k = txBit s i) := fun k => by
    rw [h, getLsbD_setBit_of_lt _ (txBit_lt b hi)]
    simp
  constructor
  · refine filter_range_eq_singleton hi fun k hk => ?_
    rw [hstatus]
    refine decide_eq_decide.2 ⟨fun he => ?_, fun he => by rw [he]⟩
    by_contra hne
    exact txBit_ne_txBit b hk hi hne he
  · refine List.filter_eq_nil_iff.2 fun j hj => ?_
    rw [hstatus, decide_eq_true_eq]
    exact (txBit_ne_rxBit b hi (List.mem_range.1 hj)).symm

/-- R208: the completion of the only source of `STATUS`, and the dispatch that serves it. -/
theorem complete_then_dispatch {i : Fin 8} (hc : cfgWf s.cfg = true) (hcounts : CountsInv s) (hi : i.val < s.ctl.txn.val)
    (hg : s.gaps = []) (hreq : s.ctl.txReq.getLsbD i.val = true) (hstatus : s.ctl.status = 0) :
    (backendMove (.complete i) s).ctl.status.getLsbD (txBit s i.val) = true ∧
    ∃ u, dispatch (backendMove (.complete i) s) = .next u ∧ u.trace = s.trace ++ [.txHandler i.val] ∧
      bufferFree u i.val = true ∧ u.ctl.txReq.getLsbD i.val = false ∧ u.ctl.status = 0 := by
  have hv := backendMove_complete hreq
  have hsetup := setup_backendMove (.complete i) s
  have hbits := statusBits_of_counts (by rw [backendMove_cfg]; exact hc) (hcounts.of_setup_eq hsetup)
  have hraised : (backendMove (.complete i) s).ctl.status = setBit 0 (txBit s i.val) := by
    rw [hv, ← hstatus]
    rfl
  have hcleared : (backendMove (.complete i) s).ctl.txReq = clearBit s.ctl.txReq i.val := by
    rw [hv]
    rfl
  obtain ⟨htx, hrx⟩ := served_of_status_eq hbits (by rw [backendMove_ctl_txn]; exact hi)
    (by rw [hraised, txBit_congr i.val hsetup])
  obtain ⟨u, m, hu, htrace, hfree, htxReq, hclear⟩ := dispatch_quiet_outcome (s := backendMove (.complete i) s)
    (by rw [backendMove_gaps]; exact hg)
  refine ⟨?_, u, hu, ?_, ?_, ?_, hclear⟩
  · have hlt := txBit_lt (statusBits_of_counts hc hcounts) hi
    simp [hraised, hlt]
  · simp [htrace, htx, hrx]
  · simp [bufferFree, hfree i.val i.isLt, htx]
  · rw [htxReq, hcleared, getLsbD_clearBit]
    simp

end

/-- Settles O34: the completion sets the bit of the buffer in an empty `STATUS`, so the dispatch serves this buffer alone. -/
theorem sendCompletionCycle : Obligations.SendCompletionCycle := by
  unfold Obligations.SendCompletionCycle
  intro s i rtr hc hcounts hg hacc ha hstatus
  have hi : i.val < s.ctl.txn.val := (sendError_none (sendError_of_admitted ha)).1
  have hreq : (sendAccepted i.val rtr s).ctl.txReq.getLsbD i.val = true := by
    rw [sendAccepted_ctl, getLsbD_setBit_of_lt _ i.isLt]
    simp
  have hbusy : (sendAccepted i.val rtr s).ctl.freeMask.getLsbD i.val = false := by
    rw [sendAccepted_ctl, getLsbD_clearBit]
    simp
  obtain ⟨hraised, u, hu, htrace, hfree, hdone, hclear⟩ := complete_then_dispatch (s := sendAccepted i.val rtr s) hc
    (hcounts.of_setup_eq rfl) hi hg hreq hstatus
  have htrace : u.trace = s.trace ++ [.requestSend i.val, .txHandler i.val] := by
    rw [htrace]
    exact List.append_assoc ..
  have htaken : bufferBusy (sendAccepted i.val rtr s) i.val = true := by
    rw [bufferBusy, hbusy]
    exact decide_eq_true hi
  exact ⟨_, u, exec_sendCommand_accepted hg hacc ha, hraised, hu, htrace, htaken, hfree, hdone, hclear⟩

end Sys2Proof.Machine
end

section
/-! The moves of the backend agent: the equation of each with and without its precondition, and what it leaves in the
status register, the masks and the slots (R236 to R241). -/

namespace Sys2Proof.Machine

/-! ### The status register and the slots after a move -/

/-- R7: the sources that belong to no buffer have bits of the status register. -/
theorem StatusBits.others_lt {c : Cfg} {T R : Nat} (b : StatusBits c T R) :
    (irqBits c T R).err < 32 ∧ (irqBits c T R).ovf < 32 ∧ (irqBits c T R).wake < 32 :=
  ⟨b.below _ (by simp), b.below _ (by simp), b.below _ (by simp)⟩

/-- The bytes of a carrier are in the slot, and every other place is as before (R237, R241). -/
def SlotFilled (l : Layout) (a : SlotAddr) (raw : ImageReg) (m m' : List Host.Cell) : Prop :=
  (∀ d, d < imgBytes l → Memory.get m' (a.key + d) = (imageBytes l raw)[d]?) ∧
  ∀ k, (k < a.key ∨ a.key + imgBytes l ≤ k) → Memory.get m' k = Memory.get m k

theorem slotFilled_setList (l : Layout) (a : SlotAddr) (raw : ImageReg) (m : List Host.Cell) :
    SlotFilled l a raw m (Memory.setList m a.key (imageBytes l raw)) := by
  have hlen := imageBytes_length l raw
  constructor
  · intro d hd
    rw [Memory.get_setList, if_pos (by omega), Nat.add_sub_cancel_left]
  · intro k hk
    rw [Memory.get_setList, if_neg (by omega)]

/-! ### The moves with a precondition -/

section

variable {s : State}

theorem backendMove_complete_of_unrequested {i : Fin 8} (h : s.ctl.txReq.getLsbD i.val = false) :
    backendMove (.complete i) s = s := by
  rw [backendMove, backendComplete, h, if_neg Bool.false_ne_true]

theorem canDeliver_iff {j : Nat} : canDeliver j s = true ↔
    j < s.ctl.rxn.val ∧ s.ctl.rxArmed.getLsbD j = true ∧ (s.ctl.mode = .normal ∨ s.ctl.mode = .listenOnly) := by
  simp only [canDeliver, Bool.and_eq_true, Bool.or_eq_true, decide_eq_true_eq, beq_iff_eq, and_assoc]

theorem backendMove_deliver {j : Fin 8} (h : canDeliver j.val s = true) (raw : ImageReg) :
    backendMove (.deliver j raw) s = raiseBit (rxBit s j.val)
      (storeSlot .RXS j.val raw { s with ctl := { s.ctl with rxArmed := clearBit s.ctl.rxArmed j.val } }) := by
  rw [backendMove, backendDeliver, if_pos h]

theorem backendMove_deliver_of_cannot {j : Fin 8} (h : ¬ canDeliver j.val s = true) (raw : ImageReg) :
    backendMove (.deliver j raw) s = s := by
  rw [backendMove, backendDeliver, if_neg h]

/-- R238: the model's condition for an overflow is that no configured slot is armed. -/
theorem rxArmed_and_lowMask_eq_zero_iff :
    s.ctl.rxArmed &&& lowMask s.ctl.rxn.val = 0 ↔ ∀ j, j < s.ctl.rxn.val → s.ctl.rxArmed.getLsbD j = false := by
  have hbit : ∀ j, (s.ctl.rxArmed &&& lowMask s.ctl.rxn.val).getLsbD j =
      (s.ctl.rxArmed.getLsbD j && decide (j < s.ctl.rxn.val)) := fun j => by
    rw [BitVec.getLsbD_and, getLsbD_lowMask_of_le (by omega)]
  constructor
  · intro h j hj
    have hj0 := hbit j
    rw [h] at hj0
    simpa [hj] using hj0.symm
  · intro h
    refine BitVec.eq_of_getLsbD_eq fun j _ => ?_
    rw [hbit]
    by_cases hj : j < s.ctl.rxn.val
    · simp [h j hj]
    · simp [hj]

theorem backendMove_overflow (h : ∀ j, j < s.ctl.rxn.val → s.ctl.rxArmed.getLsbD j = false) :
    backendMove .overflow s = raiseBit s.irqBits.ovf s := by
  rw [backendMove, backendOverflow, if_pos (rxArmed_and_lowMask_eq_zero_iff.2 h)]

theorem backendMove_overflow_of_armed (h : ∃ j, j < s.ctl.rxn.val ∧ s.ctl.rxArmed.getLsbD j = true) :
    backendMove .overflow s = s := by
  obtain ⟨j, hj, harmed⟩ := h
  rw [backendMove, backendOverflow, if_neg]
  intro hnone
  exact absurd (harmed.symm.trans (rxArmed_and_lowMask_eq_zero_iff.1 hnone j hj)) nofun

theorem backendMove_wake (h : s.ctl.mode = .sleep) :
    backendMove .wake s = raiseBit s.irqBits.wake (setMode .listenOnly s) := by
  rw [backendMove, backendWake, if_pos h]

theorem backendMove_wake_of_awake (h : s.ctl.mode ≠ .sleep) : backendMove .wake s = s := by
  rw [backendMove, backendWake, if_neg h]

end

/-! ### The rules -/

/-- Settles O43: a request is outstanding for configured buffers only, and every configured buffer has a status bit. -/
theorem backendCompletesAndDelivers : Obligations.BackendCompletesAndDelivers := by
  unfold Obligations.BackendCompletesAndDelivers
  refine ⟨fun s i hc hb hcounts => ⟨fun hreq => ?complete, backendMove_complete_of_unrequested⟩,
    fun s j raw hc hcounts => ⟨fun hj harmed hmode => ?deliver, fun hnot => ?skip⟩⟩
  case complete =>
    have hi : i.val < s.ctl.txn.val := by
      by_contra hge
      exact absurd (hreq.symm.trans (hb.req i.val (Nat.not_lt.1 hge))) nofun
    exact ⟨_, _, getLsbD_clearBit _ _, getLsbD_setBit_of_lt _ (txBit_lt (statusBits_of_counts hc hcounts) hi),
      backendMove_complete hreq⟩
  case deliver =>
    obtain ⟨hin, hout⟩ := slotFilled_setList s.cfg.layout ⟨.RXS, j.val, 0⟩ raw s.mem
    exact ⟨_, _, _, getLsbD_clearBit _ _, getLsbD_setBit_of_lt _ (rxBit_lt (statusBits_of_counts hc hcounts) hj), hin, hout,
      backendMove_deliver (canDeliver_iff.2 ⟨hj, harmed, hmode⟩) raw⟩
  case skip => exact backendMove_deliver_of_cannot (mt canDeliver_iff.1 hnot) raw

/-- Settles O44: the three sources that belong to no buffer have status bits too. -/
theorem backendErrorsCountersAndWake : Obligations.BackendErrorsCountersAndWake := by
  unfold Obligations.BackendErrorsCountersAndWake
  intro s hc hcounts
  obtain ⟨herr, hovf, hwake⟩ := (statusBits_of_counts hc hcounts).others_lt
  refine ⟨⟨_, getLsbD_setBit_of_lt _ herr, rfl⟩, fun hnone => ⟨_, getLsbD_setBit_of_lt _ hovf, backendMove_overflow hnone⟩,
    backendMove_overflow_of_armed, fun _ _ => rfl, fun hsleep => ⟨_, getLsbD_setBit_of_lt _ hwake, backendMove_wake hsleep⟩,
    backendMove_wake_of_awake, fun _ _ => rfl, fun bits => ⟨_, fun k => BitVec.getLsbD_or, rfl⟩, fun sp j raw => ?_⟩
  obtain ⟨hin, hout⟩ := slotFilled_setList s.cfg.layout ⟨sp, j.val, 0⟩ raw s.mem
  exact ⟨_, hin, hout, rfl⟩

end Sys2Proof.Machine
end

section
/-! What the dispatcher decodes from a receive slot: although it reads the header first and then only the declared data, the
message is the codec's message of the whole slot (R152, R237, R248). -/

namespace Sys2Proof.Machine

/-! ### The slot as a carrier -/

/-- The word of the four bytes of a slot from the place `k` on (R66). -/
def readWord (s : State) (k : Nat) : Word :=
  wordOfBytes (readByte s k) (readByte s (k + 1)) (readByte s (k + 2)) (readByte s (k + 3))

/-- The content of `RXSLOT[j]` as a raw image, in both carriers. -/
def rxImage (j : Nat) (s : State) : ImageReg where
  bytes := Vector.ofFn fun d : Fin 13 => readByte s (SlotAddr.key ⟨.RXS, j, 0⟩ + d.val)
  words := Vector.ofFn fun k : Fin 4 => readWord s (SlotAddr.key ⟨.RXS, j, 0⟩ + 4 * k.val)

/-- The offset of the first data byte (R95, R102). -/
def dataOffset (l : Layout) : Nat :=
  match l with
  | .B => 5
  | .W => 8

/-- The eight bytes at the data offset are the data of the carrier. -/
theorem rawData_rxImage (l : Layout) (j : Nat) (s : State) :
    rawData l (rxImage j s) =
      (List.range 8).map fun d => readByte s (SlotAddr.key ⟨.RXS, j, dataOffset l⟩ + d) := by
  cases l with
  | B =>
    refine List.ext_getElem (by simp [rawData]) fun d _ _ => ?_
    simp [rawData, rxImage, dataOffset, SlotAddr.key, Nat.add_assoc]
  | W =>
    simp [rawData, rxImage, readWord, wordBytes_wordOfBytes, dataOffset, SlotAddr.key, List.range_succ, Nat.add_assoc]

/-! ### The two readings agree -/

/-- A message depends on the declared data bytes only. -/
theorem Header.message_congr {h : Header} {a b : List Byte} (e : a.take h.dataBytes = b.take h.dataBytes) :
    h.message a = h.message b := by
  rw [Header.message, Header.message, e]

/-- The declared bytes are among any `m` bytes read at the data offset. -/
theorem Header.message_read {h : Header} {m : Nat} (hm : h.dataBytes ≤ m) (hlen : h.dataBytes ≤ 8) (f : Nat → Byte) :
    h.message ((List.range m).map f) = h.message ((List.range 8).map f) := by
  refine Header.message_congr ?_
  rw [← List.map_take, ← List.map_take, List.take_range, List.take_range, Nat.min_eq_left hm, Nat.min_eq_left hlen]

/-- A remote frame or an empty one has no byte to read. -/
theorem Header.message_of_no_data {h : Header} (h0 : h.dataBytes = 0) (bs : List Byte) : h.message [] = h.message bs :=
  Header.message_congr (by rw [h0, List.take_zero, List.take_zero])

section

variable {j : Nat} {s : State}

theorem memRead_header_B (hl : s.cfg.layout = .B) (hj : j < 8) :
    memRead s ⟨.RXS, j, 0⟩ 5 = .ok [(rxImage j s).bytes[0], (rxImage j s).bytes[1], (rxImage j s).bytes[2],
      (rxImage j s).bytes[3], (rxImage j s).bytes[4]] := by
  rw [memRead_of_admitted (by simp [admitted, hl, hj])]
  simp [rxImage, List.range_succ]

theorem slotMessageB_eq_decB (hl : s.cfg.layout = .B) (hj : j < 8) : slotMessageB j s = .ok (decB (rxImage j s).bytes) := by
  have hdata : (rxImage j s).bytes.toList.drop 5 = _ := rawData_rxImage .B j s
  simp only [slotMessageB, memRead_header_B hl hj, decB, hdata]
  have hlen := dataBytes_le (headerB_len (rxImage j s).bytes[0] (rxImage j s).bytes[1] (rxImage j s).bytes[2]
    (rxImage j s).bytes[3] (rxImage j s).bytes[4])
  generalize headerB (rxImage j s).bytes[0] (rxImage j s).bytes[1] (rxImage j s).bytes[2] (rxImage j s).bytes[3]
    (rxImage j s).bytes[4] = h at hlen
  by_cases h0 : h.dataBytes = 0
  · rw [if_pos h0, Header.message_of_no_data h0]
  · have ha : admitted s.cfg.layout ⟨.RXS, j, 5⟩ h.dataBytes = true := by
      simp only [hl, admitted, Bool.and_eq_true, decide_eq_true_eq]
      omega
    rw [if_neg h0, memRead_of_admitted ha]
    exact congrArg Except.ok (Header.message_read le_rfl hlen _)

theorem memRead_header_W (hl : s.cfg.layout = .W) (hj : j < 8) : ∃ a0 a1 a2 a3 b0 b1 b2 b3 : Byte,
    memRead s ⟨.RXS, j, 0⟩ 8 = .ok [a0, a1, a2, a3, b0, b1, b2, b3] ∧
      (rxImage j s).words[0] = wordOfBytes a0 a1 a2 a3 ∧ (rxImage j s).words[1] = wordOfBytes b0 b1 b2 b3 := by
  refine ⟨_, _, _, _, _, _, _, _, memRead_of_admitted (by simp [admitted, hl, hj]), ?_, ?_⟩
  · simp [rxImage, readWord]
  · simp [rxImage, readWord, Nat.add_assoc]

theorem slotMessageW_eq_decW (hl : s.cfg.layout = .W) (hj : j < 8) : slotMessageW j s = .ok (decW (rxImage j s).words) := by
  have hdata : wordBytes (rxImage j s).words[2] ++ wordBytes (rxImage j s).words[3] = _ := rawData_rxImage .W j s
  obtain ⟨a0, a1, a2, a3, b0, b1, b2, b3, hread, hmid, hmsr⟩ := memRead_header_W hl hj
  simp only [slotMessageW, hread, decW, hdata, hmid, hmsr]
  have hlen := dataBytes_le (headerW_len (wordOfBytes a0 a1 a2 a3) (wordOfBytes b0 b1 b2 b3))
  generalize headerW (wordOfBytes a0 a1 a2 a3) (wordOfBytes b0 b1 b2 b3) = h at hlen
  by_cases h0 : h.dataBytes = 0
  · rw [if_pos h0, Header.message_of_no_data h0]
  · have hcount : h.dataBytes ≤ if 4 < h.dataBytes then 8 else 4 := by split <;> omega
    have ha : admitted s.cfg.layout ⟨.RXS, j, 8⟩ (if 4 < h.dataBytes then 8 else 4) = true := by
      split <;> simp [admitted, hl, hj]
    rw [if_neg h0, memRead_of_admitted ha]
    exact congrArg Except.ok (Header.message_read hcount hlen _)

/-- R152: the dispatcher decodes the whole slot, though it does not read all of it. -/
theorem slotMessage_eq_decImage (hj : j < 8) : slotMessage j s = .ok (decImage s.cfg.layout (rxImage j s)) := by
  unfold slotMessage
  cases hl : s.cfg.layout with
  | B => exact slotMessageB_eq_decB hl hj
  | W => exact slotMessageW_eq_decW hl hj

/-- R108, R154: a decoded length is at most 8. -/
theorem slotMessage_len_le (hj : j < 8) {m : Message} (h : slotMessage j s = .ok m) : m.len ≤ 8 := by
  rw [slotMessage_eq_decImage hj] at h
  cases h
  obtain ⟨ext, rtr, v, len, hsays⟩ := exists_rawImageSays s.cfg.layout (rxImage j s)
  rw [decImage_eq_of_says hsays]
  exact hsays.len_le

/-! ### The slot after a delivery (R237) -/

theorem wordOfBytes_wordBytes (w : Word) :
    wordOfBytes (w.extractLsb' 0 8) (w.extractLsb' 8 8) (w.extractLsb' 16 8) (w.extractLsb' 24 8) = w := by
  apply BitVec.eq_of_toNat_eq
  simp only [wordOfBytes, toNat_append_eq_add, toNat_extract_eq_div_mod]
  omega

theorem imageBytes_W (raw : ImageReg) :
    imageBytes .W raw = wordBytes raw.words[0] ++ wordBytes raw.words[1] ++ wordBytes raw.words[2] ++
      wordBytes raw.words[3] := by
  have hwords : raw.words.toList = [raw.words[0], raw.words[1], raw.words[2], raw.words[3]] := by
    refine List.ext_getElem (by simp) fun k hk _ => ?_
    have hk : k < 4 := by simpa using hk
    interval_cases k <;> simp
  simp [imageBytes, hwords]

/-- In layout W byte `b` of word `k` is at offset `4 * k + b` (R61, R66). -/
theorem getElem?_imageBytes_W (raw : ImageReg) {k b : Nat} (hk : k < 4) (hb : b < 4) :
    (imageBytes .W raw)[4 * k + b]? = (wordBytes raw.words[k])[b]? := by
  rw [imageBytes_W]
  interval_cases k <;> interval_cases b <;> rfl

/-- The slot holds the bytes of a carrier. -/
def RxSlotHolds (j : Nat) (raw : ImageReg) (s : State) : Prop :=
  ∀ d, d < imgBytes s.cfg.layout → (imageBytes s.cfg.layout raw)[d]? = some (readByte s (SlotAddr.key ⟨.RXS, j, 0⟩ + d))

theorem rxSlotHolds_of_stored {m : List Host.Cell} {raw : ImageReg}
    (h : s.mem = Memory.setList m (SlotAddr.key ⟨.RXS, j, 0⟩) (imageBytes s.cfg.layout raw)) : RxSlotHolds j raw s := by
  intro d hd
  rw [← imageBytes_length s.cfg.layout raw] at hd
  rw [readByte_of_stored h hd, List.getElem?_eq_getElem hd]

/-- The carrier that the layout names is read back from the slot. -/
theorem RxSlotHolds.decImage_rxImage {raw : ImageReg} (h : RxSlotHolds j raw s) :
    decImage s.cfg.layout (rxImage j s) = decImage s.cfg.layout raw := by
  unfold RxSlotHolds at h
  cases hl : s.cfg.layout with
  | B =>
    rw [hl] at h
    have hbytes : (rxImage j s).bytes = raw.bytes := by
      refine Vector.ext fun d hd => ?_
      have hbyte := h d hd
      simpa [imageBytes, rxImage, hd] using hbyte.symm
    rw [decImage, decImage, hbytes]
  | W =>
    rw [hl] at h
    have hwords : (rxImage j s).words = raw.words := by
      refine Vector.ext fun k hk => ?_
      have hbyte : ∀ b, b < 4 →
          (wordBytes raw.words[k])[b]? = some (readByte s (SlotAddr.key ⟨.RXS, j, 0⟩ + 4 * k + b)) := fun b hb => by
        rw [← getElem?_imageBytes_W raw hk hb, h _ (by simp only [imgBytes]; omega), Nat.add_assoc]
      have h0 := Option.some.inj (hbyte 0 (by decide))
      have h1 := Option.some.inj (hbyte 1 (by decide))
      have h2 := Option.some.inj (hbyte 2 (by decide))
      have h3 := Option.some.inj (hbyte 3 (by decide))
      rw [Nat.add_zero] at h0
      simp only [rxImage, Vector.getElem_ofFn, readWord, ← h0, ← h1, ← h2, ← h3, wordOfBytes_wordBytes]
    rw [decImage, decImage, hwords]

theorem backendMove_deliver_mem {i : Fin 8} (h : canDeliver i.val s = true) (raw : ImageReg) :
    (backendMove (.deliver i raw) s).mem =
      Memory.setList s.mem (SlotAddr.key ⟨.RXS, i.val, 0⟩) (imageBytes s.cfg.layout raw) := by
  rw [backendMove_deliver h]
  rfl

end

/-- Settles O38: the delivery stores the carrier, and decoding the slot is decoding the carrier in it. -/
theorem deliveredFrameIsDecoded : Obligations.DeliveredFrameIsDecoded := by
  unfold Obligations.DeliveredFrameIsDecoded
  intro s j raw hj harmed hmode
  have hmem := backendMove_deliver_mem (canDeliver_iff.2 ⟨hj, harmed, hmode⟩) raw
  have hcfg := backendMove_cfg (.deliver j raw) s
  rw [slotMessage_eq_decImage j.isLt, (rxSlotHolds_of_stored (by rw [hcfg]; exact hmem)).decImage_rxImage, hcfg]

end Sys2Proof.Machine
end

section
/-! The dispatcher: every dispatch ends with the clear step, and what a dispatch during which no other agent moves changes
(R221, R224, R245 to R254). -/

namespace Sys2Proof.Machine

/-! ### The end of a dispatch -/

section

variable {s t : State}

/-- R250: a dispatch ends with the clear step and answers `Ok`. -/
theorem dispatch_returns (h : dispatch s = .next t) : ∃ u, t = finish .ok (returnInterrupt u) := by
  unfold dispatch at h
  obtain ⟨_, _, h⟩ := andThen_eq_next.1 h
  obtain ⟨_, _, h⟩ := andThen_eq_next.1 h
  obtain ⟨_, _, h⟩ := andThen_eq_next.1 h
  obtain ⟨u, _, h⟩ := andThen_eq_next.1 h
  cases h
  exact ⟨u, rfl⟩

theorem dispatch_code (h : dispatch s = .next t) : t.res.code = .ok := by
  obtain ⟨_, rfl⟩ := dispatch_returns h
  rfl

theorem dispatch_status (h : dispatch s = .next t) : t.ctl.status = 0 := by
  obtain ⟨_, rfl⟩ := dispatch_returns h
  rfl

/-- R34: no request without a status bit. -/
theorem irq_eq_false_of_status_eq_zero (h : s.ctl.status = 0) : irq s = false := by
  rw [Bool.eq_false_iff, Ne, irq_eq_true_iff, h]
  exact fun hirq => hirq.1 BitVec.zero_and

end

/-- Settles O37: a disciplined dispatch is total and ends with the clear step; its parts leave the send, the set-up and the
operands alone. -/
theorem dispatchCompletesAndClearsStatus : Obligations.DispatchCompletesAndClearsStatus := by
  unfold Obligations.DispatchCompletesAndClearsStatus
  intro s hg
  obtain ⟨t, ht, _⟩ := dispatch_total s hg
  have hexec : exec .isDispatch s = .next t := ht
  obtain ⟨_, hbtr, _⟩ := setup_eq_iff.1 (exec_setup (by decide) hexec)
  exact ⟨t, hexec, dispatch_status ht, dispatch_idle ht, dispatch_code ht,
    irq_eq_false_of_status_eq_zero (dispatch_status ht), dispatch_sending ht, hbtr, exec_ops hexec⟩

/-- Settles O56: every way in which one of the five commands answers a next state ends with `Ok`. -/
theorem commandsThatNeverReturnAnError : Obligations.CommandsThatNeverReturnAnError := by
  unfold Obligations.CommandsThatNeverReturnAnError
  intro i s t hi h
  obtain ⟨n, rfl⟩ | ⟨n, rfl⟩ | rfl | rfl | rfl := hi
  · rcases execBaAlloc_cases n s with ⟨_, e⟩ | ⟨_, e⟩ <;> cases e.symm.trans h <;> rfl
  · obtain ⟨_, _, rfl⟩ := execBaFree_cases h
    rfl
  · cases h
    rfl
  · cases h
    rfl
  · exact dispatch_code h

/-! ### The latched message (R42, R248) -/

/-- `MSG` after `MSG <- m`. -/
def latched (m : Message) (r : MsgReg) : MsgReg where
  kind := m.kind
  id := m.id
  ext := m.ext
  len := BitVec.ofNat 4 m.len
  data := overlay r.data m.bytes

/-- `MSG` says what the message says; elements beyond the payload are not spoken of (log 13). -/
def MsgHolds (m : Message) (r : MsgReg) : Prop :=
  r.kind = m.kind ∧ r.id = m.id ∧ r.ext = m.ext ∧ r.len.toNat = m.len ∧
    ∀ k : Fin 8, k.val < m.bytes.length → m.bytes[k.val]? = some r.data[k]

theorem msgHolds_latched {m : Message} (hlen : m.len ≤ 8) (r : MsgReg) : MsgHolds m (latched m r) := by
  refine ⟨rfl, rfl, rfl, Nat.mod_eq_of_lt (by omega), fun k hk => ?_⟩
  rw [latched, Fin.getElem_fin, getElem_overlay, List.getElem?_eq_getElem hk, Option.getD_some]

/-- The scan of D2 latches the messages of the buffers it serves, one after the other. -/
theorem rxAll_msg (m : Nat → Message) (js : List Nat) (s : State) :
    (rxAll m js s).msg =
      (js.filter fun j => s.hid.snap.getLsbD (rxBit s j)).foldl (fun r j => latched (m j) r) s.msg := by
  induction js generalizing s with
  | nil => rfl
  | cons j rest ih =>
    have e : rxAll m (j :: rest) s = rxAll m rest (rxStep m j s) := rfl
    rw [e, ih, List.filter_cons, rxStep]
    cases hc : s.hid.snap.getLsbD (rxBit s j)
    · rfl
    · rfl

/-- The last element of an increasing list is its greatest. -/
theorem eq_concat_of_greatest {l : List Nat} (hl : l.Pairwise (· < ·)) {j : Nat} (hj : j ∈ l) (hmax : ∀ k ∈ l, k ≤ j) :
    ∃ l', l = l' ++ [j] := by
  obtain rfl | ⟨l', k, rfl⟩ := List.eq_nil_or_concat' l
  · cases hj
  · have hlt := (List.pairwise_append.1 hl).2.2
    rcases List.mem_append.1 hj with hj' | hj'
    · have hjk := hlt j hj' k List.mem_cons_self
      have hkj := hmax k (List.mem_append_right _ List.mem_cons_self)
      omega
    · rw [List.mem_singleton.1 hj']
      exact ⟨l', rfl⟩

/-! ### The event counters (R249) -/

theorem toNat_bump_eq_counted (c : Word) (seen : Bool) : (if seen then bump c else c).toNat = counted c seen := by
  cases seen with
  | false => rfl
  | true =>
    rw [if_pos rfl, counted, if_pos rfl, bump]
    split
    · next h => rw [h]; rfl
    · next h =>
      have hne : c.toNat ≠ 2 ^ 32 - 1 := fun e => h (BitVec.eq_of_toNat_eq e)
      change (c.toNat + 1) % 2 ^ 32 = min (c.toNat + 1) (2 ^ 32 - 1)
      omega

/-! ### A dispatch that nobody disturbs -/

/-- The state after D0, D1 and D2 of a dispatch during which no other agent moves. -/
def afterScans (m : Nat → Message) (s : State) : State :=
  rxAll m (List.range s.ctl.rxn.val) (txAll (List.range s.ctl.txn.val) (enterInterrupt s))

/-- The state after the whole of it. -/
def afterDispatch (m : Nat → Message) (s : State) : State := finish .ok (returnInterrupt (countEvents (afterScans m s)))

/-- R246 to R248: what the scans change. -/
theorem afterScans_eq (m : Nat → Message) (s : State) :
    afterScans m s = { s with
      ctl := { s.ctl with freeMask := (afterScans m s).ctl.freeMask, rxArmed := (afterScans m s).ctl.rxArmed }
      hid := { s.hid with dstate := .active, snap := s.ctl.status, scan := (afterScans m s).hid.scan }
      msg := (afterScans m s).msg
      trace := s.trace ++ (servedTx s).map Event.txHandler ++
        (servedRx s).flatMap fun j => [.rxHandler j (m j), .rearm j] } := by
  have e1 := txAll_eq (List.range s.ctl.txn.val) (enterInterrupt s)
  have e2 := rxAll_eq m (List.range s.ctl.rxn.val) (txAll (List.range s.ctl.txn.val) (enterInterrupt s))
  unfold afterScans
  generalize rxAll m (List.range s.ctl.rxn.val) (txAll (List.range s.ctl.txn.val) (enterInterrupt s)) = v at e2 ⊢
  generalize txAll (List.range s.ctl.txn.val) (enterInterrupt s) = u at e1 e2
  rw [e2, e1]
  rfl

/-- R249, R250: what the dispatch changes. -/
theorem afterDispatch_eq (m : Nat → Message) (s : State) :
    afterDispatch m s = { s with
      ctl := { s.ctl with
        freeMask := (afterDispatch m s).ctl.freeMask, rxArmed := (afterDispatch m s).ctl.rxArmed, status := 0
        errCnt := (afterDispatch m s).ctl.errCnt, ovfCnt := (afterDispatch m s).ctl.ovfCnt
        wakeCnt := (afterDispatch m s).ctl.wakeCnt }
      res := { s.res with code := .ok }
      hid := { s.hid with dstate := .idle, snap := s.ctl.status, scan := (afterDispatch m s).hid.scan }
      msg := (afterDispatch m s).msg
      trace := s.trace ++ (servedTx s).map Event.txHandler ++
        (servedRx s).flatMap fun j => [.rxHandler j (m j), .rearm j] } := by
  unfold afterDispatch
  rw [afterScans_eq]
  rfl

theorem txAll_rxArmed (is : List Nat) (s : State) : (txAll is s).ctl.rxArmed = s.ctl.rxArmed :=
  congrArg (fun u => u.ctl.rxArmed) (txAll_eq is s)

theorem txAll_msg (is : List Nat) (s : State) : (txAll is s).msg = s.msg :=
  congrArg (fun u => u.msg) (txAll_eq is s)

/-- Bits of a mask above 7 do not exist, so an equation of masks needs a look at the eight bits only. -/
theorem getLsbD_mask_or_mem {v w : Mask} {l : List Nat} (hl : ∀ k ∈ l, k < 8)
    (h : ∀ k < 8, v.getLsbD k = (w.getLsbD k || decide (k ∈ l))) (k : Nat) :
    v.getLsbD k = (w.getLsbD k || decide (k ∈ l)) := by
  by_cases hk : k < 8
  · exact h k hk
  · have hnot : k ∉ l := fun hmem => hk (hl k hmem)
    simp [BitVec.getLsbD_of_ge _ _ (Nat.not_lt.1 hk), hnot]

theorem servedTx_lt {s : State} {k : Nat} (h : k ∈ servedTx s) : k < 8 := by
  have hk := List.mem_range.1 (List.mem_filter.1 h).1
  omega

theorem servedRx_lt {s : State} {k : Nat} (h : k ∈ servedRx s) : k < s.ctl.rxn.val :=
  List.mem_range.1 (List.mem_filter.1 h).1

/-- R246: the buffers served are freed. -/
theorem afterDispatch_freeMask (m : Nat → Message) (s : State) (k : Nat) :
    (afterDispatch m s).ctl.freeMask.getLsbD k = (s.ctl.freeMask.getLsbD k || decide (k ∈ servedTx s)) := by
  have hmask : (afterDispatch m s).ctl.freeMask = (txAll (List.range s.ctl.txn.val) (enterInterrupt s)).ctl.freeMask :=
    rxAll_freeMask m _ _
  refine getLsbD_mask_or_mem (fun _ => servedTx_lt) (fun k hk => ?_) k
  rw [hmask]
  exact txAll_freeMask _ _ k hk

/-- After D1 the scan of D2 serves what the snapshot says. -/
theorem filter_rx_after_txAll (s : State) :
    ((List.range s.ctl.rxn.val).filter fun j =>
      (txAll (List.range s.ctl.txn.val) (enterInterrupt s)).hid.snap.getLsbD
        (rxBit (txAll (List.range s.ctl.txn.val) (enterInterrupt s)) j)) = servedRx s := by
  have hbit : ∀ j, rxBit (txAll (List.range s.ctl.txn.val) (enterInterrupt s)) j = rxBit s j := fun j =>
    rxBit_congr j (setup_txAll _ _)
  simp only [hbit, txAll_snap]
  rfl

/-- R248: the slots served are re-armed. -/
theorem afterDispatch_rxArmed (m : Nat → Message) (s : State) (k : Nat) :
    (afterDispatch m s).ctl.rxArmed.getLsbD k = (s.ctl.rxArmed.getLsbD k || decide (k ∈ servedRx s)) := by
  refine getLsbD_mask_or_mem (fun _ h => by have := servedRx_lt h; omega) (fun k hk => ?_) k
  have hscan := rxAll_rxArmed m (List.range s.ctl.rxn.val) (txAll (List.range s.ctl.txn.val) (enterInterrupt s)) k hk
  rw [filter_rx_after_txAll, txAll_rxArmed] at hscan
  exact hscan

/-- R248: `MSG` after the dispatch. -/
theorem afterDispatch_msg (m : Nat → Message) (s : State) :
    (afterDispatch m s).msg = (servedRx s).foldl (fun r j => latched (m j) r) s.msg := by
  have hscan := rxAll_msg m (List.range s.ctl.rxn.val) (txAll (List.range s.ctl.txn.val) (enterInterrupt s))
  rw [filter_rx_after_txAll, txAll_msg] at hscan
  exact hscan

/-- R248: `MSG` ends with the message of the last buffer served. -/
theorem afterDispatch_msgHolds {m : Nat → Message} {s : State} {j : Nat} (hlen : (m j).len ≤ 8) (hj : j ∈ servedRx s)
    (hlast : ∀ j' ∈ servedRx s, j' ≤ j) : MsgHolds (m j) (afterDispatch m s).msg := by
  have hsorted : (servedRx s).Pairwise (· < ·) := List.pairwise_lt_range.filter _
  obtain ⟨l, hl⟩ := eq_concat_of_greatest hsorted hj hlast
  rw [afterDispatch_msg, hl, List.foldl_append]
  exact msgHolds_latched hlen _

/-- R249: a counter after the dispatch. -/
theorem afterDispatch_counts (m : Nat → Message) (s : State) :
    (afterDispatch m s).ctl.errCnt.toNat = counted s.ctl.errCnt (s.ctl.status.getLsbD s.irqBits.err) ∧
    (afterDispatch m s).ctl.ovfCnt.toNat = counted s.ctl.ovfCnt (s.ctl.status.getLsbD s.irqBits.ovf) ∧
    (afterDispatch m s).ctl.wakeCnt.toNat = counted s.ctl.wakeCnt (s.ctl.status.getLsbD s.irqBits.wake) := by
  simp only [← toNat_bump_eq_counted]
  unfold afterDispatch
  rw [afterScans_eq]
  exact ⟨rfl, rfl, rfl⟩

/-- Settles O36: a dispatch that nobody disturbs is D0 to D4 one after the other, and each part of the state after it
follows from the scans and the counts. -/
theorem dispatchServesEveryEventInOrder : Obligations.DispatchServesEveryEventInOrder := by
  unfold Obligations.DispatchServesEveryEventInOrder
  intro s hg
  obtain ⟨m, hm⟩ := exists_slotMessages s
  obtain ⟨herr, hovf, hwake⟩ := afterDispatch_counts m s
  refine ⟨afterDispatch m s, m, hm, dispatch_quiet hg hm, afterDispatch_eq m s, afterDispatch_freeMask m s,
    afterDispatch_rxArmed m s, herr, hovf, hwake, fun hnone => ?none, fun j hj hlast => ?last⟩
  case none => rw [afterDispatch_msg, hnone, List.foldl_nil]
  case last =>
    have hrxn := servedRx_lt hj
    exact afterDispatch_msgHolds (slotMessage_len_le (by omega) (hm j hrxn)) hj hlast

/-! ### Nothing recognised (R39, R254) -/

/-- A buffer without a bit, or whose bit is a recognised one, is not served by a word with no recognised bit. -/
theorem getLsbD_getElem?_of_unrecognised {v : Word} {n i : Nat} {ks : List Nat} (h : ∀ k ∈ ks.take n, v.getLsbD k = false)
    (hi : i < n) : v.getLsbD (ks[i]?.getD 32) = false := by
  cases hk : ks[i]? with
  | none => exact BitVec.getLsbD_of_ge _ _ le_rfl
  | some k => exact h k (List.mem_of_getElem? (by rw [List.getElem?_take_of_lt hi, hk]))

theorem served_of_unrecognised {s : State} (h : ∀ k ∈ recognisedBits s, s.ctl.status.getLsbD k = false) :
    servedTx s = [] ∧ servedRx s = [] := by
  constructor
  · refine List.filter_eq_nil_iff.2 fun i hi => ?_
    rw [Bool.not_eq_true]
    exact getLsbD_getElem?_of_unrecognised (fun k hk => h k (by simp [recognisedBits, hk])) (List.mem_range.1 hi)
  · refine List.filter_eq_nil_iff.2 fun j hj => ?_
    rw [Bool.not_eq_true]
    exact getLsbD_getElem?_of_unrecognised (fun k hk => h k (by simp [recognisedBits, hk])) (List.mem_range.1 hj)

/-- A counter whose bit is not set stays. -/
theorem eq_of_counted_false {c d : Word} {seen : Bool} (h : d.toNat = counted c seen) (hseen : seen = false) : d = c := by
  subst hseen
  exact BitVec.eq_of_toNat_eq h

theorem mask_eq_of_none {v w : Mask} {l : List Nat} (h : ∀ k, v.getLsbD k = (w.getLsbD k || decide (k ∈ l))) (hl : l = []) :
    v = w := by
  subst hl
  exact BitVec.eq_of_getLsbD_eq fun k _ => by simp [h k]

/-- Settles O40: with no recognised bit nothing is served and nothing counted, so only the clear step of a dispatch is
left. -/
theorem unrecognisedStatusIsClearedWithoutAction : Obligations.UnrecognisedStatusIsClearedWithoutAction := by
  unfold Obligations.UnrecognisedStatusIsClearedWithoutAction
  intro s hg hnone
  obtain ⟨m, hm⟩ := exists_slotMessages s
  obtain ⟨htx, hrx⟩ := served_of_unrecognised hnone
  obtain ⟨herr, hovf, hwake⟩ := afterDispatch_counts m s
  have hmsg : (afterDispatch m s).msg = s.msg := by rw [afterDispatch_msg, hrx, List.foldl_nil]
  refine ⟨(afterDispatch m s).hid.scan, (dispatch_quiet hg hm).trans (congrArg Host.Outcome.next ?_)⟩
  refine (afterDispatch_eq m s).trans ?_
  rw [mask_eq_of_none (afterDispatch_freeMask m s) htx, mask_eq_of_none (afterDispatch_rxArmed m s) hrx,
    eq_of_counted_false herr (hnone _ (by simp [recognisedBits])),
    eq_of_counted_false hovf (hnone _ (by simp [recognisedBits])),
    eq_of_counted_false hwake (hnone _ (by simp [recognisedBits])), hmsg, htx, hrx, List.map_nil, List.flatMap_nil,
    List.append_nil, List.append_nil]

end Sys2Proof.Machine
end

section
/-! A hardware reset during operation, and a transmit completion that falls between the snapshot and the clear step of a
dispatch (R270, R284). -/

namespace Sys2Proof.Machine

/-! ### Hardware reset -/

theorem step_hardwareReset {s : State} {rest : List Move} (hc : cfgWf s.cfg = true)
    (ha : s.agenda = .hardwareReset :: rest) : step s = .next (hardwareReset { s with agenda := rest }) := by
  simp only [step, guardedNext, hc, if_true, runNext, ha, runMove]

/-- Settles O46: the step is `hardwareReset`, whose registers are those of the reset state whatever the state before. That
a reset falls between two commands is the model's choice (log 15). -/
theorem hardwareResetRestoresControlRegisters : Obligations.HardwareResetRestoresControlRegisters := by
  unfold Obligations.HardwareResetRestoresControlRegisters
  intro s rest hc ha
  exact ⟨hardwareReset { s with agenda := rest }, step_hardwareReset hc ha, rfl, rfl, rfl, rfl, rfl,
    irq_eq_false_of_status_eq_zero rfl⟩

/-! ### What a completion writes -/

/-- The state `u` with other scheduled boundaries, another `TXREQ` and another `STATUS`: all that a transmit completion and
its schedule write. -/
def overlaid (g : List (List GapMove)) (req : Mask) (v : Word) (u : State) : State :=
  { u with gaps := g, ctl := { u.ctl with txReq := req, status := v } }

/-- After a dispatch, with no boundary left and `STATUS` cleared, the request alone is another. -/
theorem overlaid_of_returned {req : Mask} {u : State} (hg : u.gaps = []) (hstatus : u.ctl.status = 0) :
    overlaid [] req 0 u = { u with ctl := { u.ctl with txReq := req } } := by
  rw [← hg, ← hstatus]
  rfl

theorem clearBit_of_clear {w : Nat} {v : BitVec w} {k : Nat} (h : v.getLsbD k = false) : clearBit v k = v := by
  refine BitVec.eq_of_getLsbD_eq fun j _ => ?_
  rw [getLsbD_clearBit]
  by_cases hj : j = k
  · rw [hj, h, Bool.false_and]
  · rw [decide_eq_false hj, Bool.not_false, Bool.and_true]

section

variable (g : List (List GapMove)) (req : Mask) (v : Word) (u : State)

/-- R246: an iteration of D1 reads `SNAP`, and neither `STATUS` nor `TXREQ`. -/
theorem txEvent_overlaid (k : Nat) : txEvent k (overlaid g req v u) = overlaid g req v (txEvent k u) := by
  have hbit : txBit (setScan (.tx k) (overlaid g req v u)) k = txBit (setScan (.tx k) u) k := rfl
  have hsnap : (setScan (.tx k) (overlaid g req v u)).hid = (setScan (.tx k) u).hid := rfl
  simp only [txEvent, hbit, hsnap]
  split <;> rfl

/-- R248: an iteration of D2 reads `SNAP`, and neither `STATUS` nor `TXREQ`. -/
theorem rxStep_overlaid (m : Nat → Message) (j : Nat) :
    rxStep m j (overlaid g req v u) = overlaid g req v (rxStep m j u) := by
  have hbit : rxBit (overlaid g req v u) j = rxBit u j := rfl
  have hsnap : (overlaid g req v u).hid = u.hid := rfl
  simp only [rxStep, hbit, hsnap]
  split <;> rfl

/-- R236: a completion clears the request, if there is one, and raises a bit of `STATUS`. -/
theorem backendMove_complete_overlaid (i : Fin 8) :
    ∃ v', backendMove (.complete i) (overlaid g req v u) = overlaid g (clearBit req i.val) v' u := by
  cases hreq : req.getLsbD i.val with
  | true => exact ⟨_, backendMove_complete (s := overlaid g req v u) hreq⟩
  | false =>
    rw [clearBit_of_clear hreq]
    exact ⟨v, backendMove_complete_of_unrequested (s := overlaid g req v u) hreq⟩

end

/-! ### The disturbed dispatch follows the undisturbed one -/

/-- How a dispatch with a completion of buffer `i` at one of its boundaries stands to the state `u` of the undisturbed one
when `b` boundaries are still to come: the completion is at one of them, or it has cleared the request. -/
inductive Disturbed (i : Fin 8) (b : Nat) (u : State) : State → Prop where
  | pending (d : Nat) (v : Word) (hd : d < b) :
    Disturbed i b u (overlaid (List.replicate d [] ++ [[.backend (.complete i)]]) u.ctl.txReq v u)
  | completed (v : Word) : Disturbed i b u (overlaid [] (clearBit u.ctl.txReq i.val) v u)

section

variable {i : Fin 8} {b : Nat} {u s : State}

/-- A step of the dispatcher that does not look at what a completion writes keeps the relation. -/
theorem Disturbed.map {f : State → State} (hf : ∀ g req v, f (overlaid g req v u) = overlaid g req v (f u))
    (hreq : (f u).ctl.txReq = u.ctl.txReq) (h : Disturbed i b u s) : Disturbed i b (f u) (f s) := by
  cases h with
  | pending d v hd =>
    rw [hf, ← hreq]
    exact .pending d v hd
  | completed v =>
    rw [hf, ← hreq]
    exact .completed v

/-- At a boundary the completion comes nearer, or falls, or is over. -/
theorem Disturbed.interruptGap_next (h : Disturbed i (b + 1) u s) :
    ∃ t, interruptGap s = .next t ∧ Disturbed i b u t := by
  cases h with
  | pending d v hd =>
    cases d with
    | zero =>
      obtain ⟨v', hv⟩ := backendMove_complete_overlaid [] u.ctl.txReq v u i
      exact ⟨_, congrArg Host.Outcome.next hv, .completed v'⟩
    | succ d => exact ⟨_, rfl, .pending d v (by omega)⟩
  | completed v => exact ⟨_, rfl, .completed v⟩

theorem Disturbed.scanTx_next {is : List Nat} (h : Disturbed i (is.length + b) u s) :
    ∃ t, scanTx is s = .next t ∧ Disturbed i b (txAll is u) t := by
  induction is generalizing u s with
  | nil => exact ⟨s, rfl, by rwa [List.length_nil, Nat.zero_add] at h⟩
  | cons k rest ih =>
    rw [List.length_cons, Nat.add_right_comm] at h
    have hk := h.map (f := txEvent k) (fun g req v => txEvent_overlaid g req v u k) (txEvent_txReq k u)
    obtain ⟨v, hv, hkv⟩ := hk.interruptGap_next
    obtain ⟨t, ht, hvt⟩ := ih hkv
    exact ⟨t, by rw [scanTx, hv, andThen_next, ht], hvt⟩

theorem Disturbed.counts (h : Disturbed i b u s) : s.ctl.txn = u.ctl.txn ∧ s.ctl.rxn = u.ctl.rxn := by
  cases h with
  | pending d v hd => exact ⟨rfl, rfl⟩
  | completed v => exact ⟨rfl, rfl⟩

theorem Disturbed.slotMessage_eq (h : Disturbed i b u s) (j : Nat) : slotMessage j s = slotMessage j u := by
  cases h with
  | pending d v hd => exact slotMessage_congr j rfl rfl rfl
  | completed v => exact slotMessage_congr j rfl rfl rfl

theorem Disturbed.scanRx_next {m : Nat → Message} {js : List Nat} (hm : ∀ j ∈ js, slotMessage j u = .ok (m j))
    (h : Disturbed i (js.length + b) u s) : ∃ t, scanRx js s = .next t ∧ Disturbed i b (rxAll m js u) t := by
  induction js generalizing u s with
  | nil => exact ⟨s, rfl, by rwa [List.length_nil, Nat.zero_add] at h⟩
  | cons j rest ih =>
    rw [List.length_cons, Nat.add_right_comm] at h
    have hj : rxEvent j s = .next (rxStep m j s) :=
      rxEvent_eq_rxStep ((h.slotMessage_eq j).trans (hm j List.mem_cons_self))
    have hk := h.map (f := rxStep m j) (fun g req v => rxStep_overlaid g req v u m j) (rxAll_txReq m [j] u)
    obtain ⟨v, hv, hkv⟩ := hk.interruptGap_next
    obtain ⟨_, hcfg, hmem, hepoch⟩ := rxStep_frame m j u
    obtain ⟨t, ht, hvt⟩ := ih (fun k hk => by
      rw [slotMessage_congr k hcfg hmem hepoch]
      exact hm k (List.mem_cons_of_mem _ hk)) hkv
    exact ⟨t, by rw [scanRx, hj, andThen_next, hv, andThen_next, ht], hvt⟩

/-- With no boundary to come the completion is over, and the clear step of D4 removes the bit it has raised (R250). -/
theorem Disturbed.returned (h : Disturbed i 0 u s) :
    finish .ok (returnInterrupt s) = overlaid [] (clearBit u.ctl.txReq i.val) 0 (finish .ok (returnInterrupt u)) := by
  cases h with
  | pending d v hd => exact absurd hd (Nat.not_lt_zero d)
  | completed v => rfl

end

/-- R284: a dispatch with a completion at one of its boundaries ends as one without, but for the request. -/
theorem dispatch_completion {s : State} {i : Fin 8} {n : Nat} {m : Nat → Message}
    (hn : n ≤ s.ctl.txn.val + s.ctl.rxn.val + 1) (hm : ∀ j < s.ctl.rxn.val, slotMessage j s = .ok (m j)) :
    dispatch { s with gaps := List.replicate n [] ++ [[.backend (.complete i)]] } =
      .next (overlaid [] (clearBit s.ctl.txReq i.val) 0 (afterDispatch m s)) := by
  have h0 : Disturbed i ((List.range s.ctl.txn.val).length + ((List.range s.ctl.rxn.val).length + 1) + 1)
      (enterInterrupt s) (enterInterrupt { s with gaps := List.replicate n [] ++ [[.backend (.complete i)]] }) := by
    simp only [List.length_range]
    exact .pending n s.ctl.status (by omega)
  obtain ⟨s1, hs1, h1⟩ := h0.interruptGap_next
  obtain ⟨s2, hs2, h2⟩ := h1.scanTx_next
  obtain ⟨s3, hs3, h3⟩ := h2.scanRx_next fun j hj => by
    rw [txAll_eq]
    exact (slotMessage_congr j rfl rfl rfl).trans (hm j (List.mem_range.1 hj))
  obtain ⟨s4, hs4, h4⟩ := (h3.map (f := countEvents) (fun _ _ _ => rfl) rfl).interruptGap_next
  have hreq : (countEvents (afterScans m s)).ctl.txReq = s.ctl.txReq := (rxAll_txReq m _ _).trans (txAll_txReq _ _)
  have htxn : s1.ctl.txn = s.ctl.txn := h1.counts.1
  have hrxn : s2.ctl.rxn = s.ctl.rxn := h2.counts.2.trans (by rw [txAll_eq]; rfl)
  rw [dispatch, hs1, andThen_next, htxn, hs2, andThen_next, hrxn, hs3, andThen_next, hs4, andThen_next, h4.returned]
  exact congrArg (fun r => Host.Outcome.next (overlaid [] (clearBit r i.val) 0 (afterDispatch m s))) hreq

/-- Settles O39: the disturbed dispatch and the undisturbed one differ in the request alone, and a dispatch serves the
buffers of its snapshot, in which buffer `i` is not. -/
theorem completionDuringDispatchIsLost : Obligations.CompletionDuringDispatchIsLost := by
  unfold Obligations.CompletionDuringDispatchIsLost
  intro s i n hn hg hunseen _ hbusy
  obtain ⟨m, hm⟩ := exists_slotMessages { s with gaps := [] }
  have hdisturbed := dispatch_completion (s := { s with gaps := [] }) (i := i) hn hm
  rw [← hg] at hdisturbed
  have heq := afterDispatch_eq m { s with gaps := [] }
  have hnot : i.val ∉ servedTx s := fun h => by
    have hseen := (List.mem_filter.1 h).2
    exact absurd (hunseen.symm.trans hseen) nofun
  refine ⟨_, afterDispatch m { s with gaps := [] },
    (servedTx s).map Event.txHandler ++ (servedRx s).flatMap fun j => [.rxHandler j (m j), .rearm j],
    hdisturbed, dispatch_quiet rfl hm, ?same, rfl, ?trace, ?handler, ?busy, getLsbD_clearBit _ _⟩
  case same => exact overlaid_of_returned (congrArg State.gaps heq) rfl
  case trace => exact (congrArg State.trace heq).trans (List.append_assoc ..)
  case handler => simp [hnot]
  case busy =>
    refine (afterDispatch_freeMask m _ i.val).trans ?_
    rw [Bool.or_eq_false_iff]
    exact ⟨hbusy, decide_eq_false hnot⟩

end Sys2Proof.Machine
end

section
/-! The step whose next move is no command word (R21, R73, R236 to R241, R270), and the hidden registers that `CM.INIT`
leaves alone. -/

namespace Sys2Proof.Machine

/-! ### The step by its next move -/

section

variable {s : State}

theorem step_move {m : Move} {rest : List Move} (hc : cfgWf s.cfg = true) (ha : s.agenda = m :: rest) :
    step s = runMove m { s with agenda := rest } := by
  simp only [step, guardedNext, hc, if_true, runNext, ha]

theorem step_unscheduled (hc : cfgWf s.cfg = true) (ha : s.agenda = []) : step s = takeInterrupt s := by
  simp only [step, guardedNext, hc, if_true, runNext, ha]

theorem takeInterrupt_of_irq (h : irq s = true) : takeInterrupt s = exec .isDispatch s := if_pos h

theorem takeInterrupt_of_no_irq (h : irq s = false) : takeInterrupt s = .next s := by
  rw [takeInterrupt, h, if_neg Bool.false_ne_true]

end

/-- Settles O5: the step performs the scheduled move, or takes the interrupt when nothing is scheduled, and the interrupt
line does not depend on what is scheduled. -/
theorem stepPerformsOtherMoves : Obligations.StepPerformsOtherMoves := by
  unfold Obligations.StepPerformsOtherMoves
  refine fun s hc => ⟨fun o rest => step_move hc, fun m rest => step_move hc, fun rest => step_hardwareReset hc,
    fun rest ha hi => ?taken, fun rest ha hi => ?skipped, fun ha hi => ?idleTaken, fun ha hi => ?waits⟩
  case taken => exact (step_move hc ha).trans (takeInterrupt_of_irq hi)
  case skipped => exact (step_move hc ha).trans (takeInterrupt_of_no_irq hi)
  case idleTaken => exact (step_unscheduled hc ha).trans (takeInterrupt_of_irq hi)
  case waits => exact (step_unscheduled hc ha).trans (takeInterrupt_of_no_irq hi)

/-! ### CM.INIT and the hidden registers -/

/-- Settles O60: of the hidden registers the three ways `CM.INIT` can end write `DSTATE` at most (log 14). -/
theorem cmInitKeepsSnapshotAndScan : Obligations.CmInitKeepsSnapshotAndScan := by
  unfold Obligations.CmInitKeepsSnapshotAndScan
  intro s t h
  rcases execCmInit_cases s with ⟨c, _, e⟩ | ⟨f, _, _, e⟩ | ⟨f, _, _, e⟩ <;> cases e.symm.trans h <;> exact ⟨rfl, rfl⟩

end Sys2Proof.Machine
end

section
/-! A handler that issues a command or writes an operand register stops the dispatch at the boundary where it does so, and
no earlier boundary keeps the dispatch from reaching that one (R232, R287, U8). -/

namespace Sys2Proof.Machine

/-- The move `m` is scheduled at one of the first `b` boundaries, and what is scheduled before it keeps the handler
discipline of R287. -/
inductive ScheduledWithin (m : GapMove) : Nat → List (List GapMove) → Prop where
  | now {b : Nat} {earlier later : List GapMove} {rest : List (List GapMove)}
      (hearlier : earlier.all GapMove.disciplined = true) :
      ScheduledWithin m (b + 1) ((earlier ++ m :: later) :: rest)
  | later {b : Nat} {g : List GapMove} {rest : List (List GapMove)} (hg : g.all GapMove.disciplined = true)
      (hrest : ScheduledWithin m b rest) : ScheduledWithin m (b + 1) (g :: rest)

theorem scheduledWithin_append {m : GapMove} {b : Nat} {before : List (List GapMove)} {earlier later : List GapMove}
    {rest : List (List GapMove)} (hb : before.length < b) (hbefore : ∀ g ∈ before, g.all GapMove.disciplined = true)
    (hearlier : earlier.all GapMove.disciplined = true) :
    ScheduledWithin m b (before ++ (earlier ++ m :: later) :: rest) := by
  induction before generalizing b with
  | nil =>
    cases b with
    | zero => exact absurd hb (Nat.not_lt_zero _)
    | succ b => exact .now hearlier
  | cons g gs ih =>
    cases b with
    | zero => exact absurd hb (Nat.not_lt_zero _)
    | succ b =>
      exact .later (hbefore g List.mem_cons_self)
        (ih (Nat.lt_of_succ_lt_succ hb) fun k hk => hbefore k (List.mem_cons_of_mem _ hk))

/-- The dispatch still reaches the move `m` when `b` boundaries are to come; the counts, on which the number of boundaries
depends, are `T` and `R`. -/
structure Ahead (m : GapMove) (T R : Fin 9) (b : Nat) (s : State) : Prop where
  scheduled : ScheduledWithin m b s.gaps
  txn : s.ctl.txn = T
  rxn : s.ctl.rxn = R

/-- What a part of the dispatch answers on the way to the move `m`: the refusal `r`, or a state with `m` still ahead. -/
def RefusedOrAhead (m : GapMove) (r : Refusal) (T R : Fin 9) (b : Nat) (o : Out) : Prop :=
  o = .refused r ∨ ∃ t, o = .next t ∧ Ahead m T R b t

section

variable {m : GapMove} {r : Refusal} {T R : Fin 9} {b b' : Nat} {s t : State} {o : Out}

theorem Ahead.of_frame (h : Ahead m T R b s) (hg : t.gaps = s.gaps) (htxn : t.ctl.txn = s.ctl.txn)
    (hrxn : t.ctl.rxn = s.ctl.rxn) : Ahead m T R b t :=
  ⟨hg ▸ h.scheduled, htxn.trans h.txn, hrxn.trans h.rxn⟩

/-- With no boundary to come no move is ahead. -/
theorem not_ahead_zero : ¬ Ahead m T R 0 s := fun h => nomatch h.scheduled

theorem RefusedOrAhead.refused (h : RefusedOrAhead m r T R 0 o) : o = .refused r :=
  h.resolve_right fun ⟨_, _, ht⟩ => not_ahead_zero ht

theorem RefusedOrAhead.andThen {f : State → Out} (h : RefusedOrAhead m r T R b o)
    (hf : ∀ t, Ahead m T R b t → RefusedOrAhead m r T R b' (f t)) : RefusedOrAhead m r T R b' (andThen o f) := by
  rcases h with rfl | ⟨t, rfl, ht⟩
  · exact .inl rfl
  · exact hf t ht

variable (hm : ∀ later s, interruptMoves (m :: later) s = .refused r)
include hm

/-- Disciplined moves are passed, so a boundary is refused at the first move that is refused. -/
theorem interruptMoves_append_refused {earlier later : List GapMove} (h : earlier.all GapMove.disciplined = true) :
    interruptMoves (earlier ++ m :: later) s = .refused r := by
  induction earlier generalizing s with
  | nil => exact hm later s
  | cons k rest ih =>
    obtain ⟨hk, hrest⟩ := Bool.and_eq_true_iff.1 (List.all_cons.symm.trans h)
    cases k with
    | backend _ => exact ih hrest
    | takeIrq => exact ih hrest
    | handlerCommand _ => cases hk
    | handlerOperand _ => cases hk

/-- At a boundary the move is reached or comes nearer. -/
theorem Ahead.interruptGap (h : Ahead m T R (b + 1) s) : RefusedOrAhead m r T R b (interruptGap s) := by
  obtain ⟨hsched, htxn, hrxn⟩ := h
  generalize hgaps : s.gaps = gs at hsched
  cases hsched with
  | now hearlier =>
    left
    rw [Machine.interruptGap, nextGap, hgaps]
    exact interruptMoves_append_refused hm hearlier
  | @later _ g rest hg hrest =>
    obtain ⟨t, ht⟩ := interruptMoves_total g (dropGap s) hg
    have hrun : Machine.interruptGap s = .next t := by rw [Machine.interruptGap, nextGap, hgaps, ht]
    have htail : t.gaps = rest := by
      rw [(interruptMoves_keeps (A := fun _ => True) (Q := fun _ => True) (fun _ _ _ _ => trivial)
        (fun _ _ => trivial) trivial ht).2, dropGap, hgaps, List.tail_cons]
    obtain ⟨hT, hR⟩ := interruptGap_counts hrun
    exact .inr ⟨t, hrun, htail ▸ hrest, hT.trans htxn, hR.trans hrxn⟩

theorem Ahead.scanTx {is : List Nat} (h : Ahead m T R (is.length + b) s) :
    RefusedOrAhead m r T R b (scanTx is s) := by
  induction is generalizing s with
  | nil => exact .inr ⟨s, rfl, by rwa [List.length_nil, Nat.zero_add] at h⟩
  | cons i rest ih =>
    rw [List.length_cons, Nat.add_right_comm] at h
    have hi := h.of_frame (txEvent_gaps i s) (txEvent_txn i s) (txEvent_rxn i s)
    exact (hi.interruptGap hm).andThen fun _ => ih

theorem Ahead.scanRx {js : List Nat} (hjs : ∀ j ∈ js, j < 8) (h : Ahead m T R (js.length + b) s) :
    RefusedOrAhead m r T R b (scanRx js s) := by
  induction js generalizing s with
  | nil => exact .inr ⟨s, rfl, by rwa [List.length_nil, Nat.zero_add] at h⟩
  | cons j rest ih =>
    rw [List.length_cons, Nat.add_right_comm] at h
    obtain ⟨u, hu⟩ := rxEvent_total j s (hjs j List.mem_cons_self)
    obtain ⟨hg, htxn, hrxn⟩ := rxEvent_frame hu
    have hj := (h.of_frame hg htxn hrxn).interruptGap hm
    rw [Machine.scanRx, hu, andThen_next]
    exact hj.andThen fun _ => ih fun k hk => hjs k (List.mem_cons_of_mem _ hk)

/-- A dispatch has a boundary after D0, one after each of the `TXN + RXN` iterations, and one after D3: it reaches a move
scheduled within these. -/
theorem dispatch_refused (h : ScheduledWithin m (s.ctl.txn.val + s.ctl.rxn.val + 2) s.gaps) :
    dispatch s = .refused r := by
  have h0 : Ahead m s.ctl.txn s.ctl.rxn (s.ctl.txn.val + (s.ctl.rxn.val + 1) + 1) (enterInterrupt s) := ⟨h, rfl, rfl⟩
  refine RefusedOrAhead.refused ((h0.interruptGap hm).andThen fun s1 h1 => ?_)
  have htx : Ahead m s.ctl.txn s.ctl.rxn ((List.range s1.ctl.txn.val).length + (s.ctl.rxn.val + 1)) s1 := by
    rwa [List.length_range, h1.txn]
  refine (htx.scanTx hm).andThen fun s2 h2 => ?_
  have hrx : Ahead m s.ctl.txn s.ctl.rxn ((List.range s2.ctl.rxn.val).length + 1) s2 := by
    rwa [List.length_range, h2.rxn]
  have hlt : ∀ j ∈ List.range s2.ctl.rxn.val, j < 8 := fun j hj => by
    have := List.mem_range.1 hj
    omega
  refine (hrx.scanRx hm hlt).andThen fun s3 h3 => ?_
  have hcount : Ahead m s.ctl.txn s.ctl.rxn 1 (countEvents s3) := h3.of_frame rfl rfl rfl
  exact (hcount.interruptGap hm).andThen fun _ h4 => absurd h4 not_ahead_zero

end

/-- Settles O41: the handler's move is scheduled within the boundaries of the dispatch, which passes every disciplined move
before it and stops there. That it stops at a boundary before the first handler event too is the model's reading (log 11). -/
theorem handlerIssuedCommandIsRefused : Obligations.HandlerIssuedCommandIsRefused := by
  unfold Obligations.HandlerIssuedCommandIsRefused
  intro s before earlier later rest hlen hbefore hearlier
  have hwithin (m : GapMove) (hg : s.gaps = before ++ (earlier ++ m :: later) :: rest) :
      ScheduledWithin m (s.ctl.txn.val + s.ctl.rxn.val + 2) s.gaps := by
    rw [hg]
    exact scheduledWithin_append (Nat.lt_succ_of_le hlen) hbefore hearlier
  exact ⟨fun w hg => dispatch_refused (fun _ _ => rfl) (hwithin _ hg),
    fun o hg => dispatch_refused (fun _ _ => rfl) (hwithin _ hg)⟩

end Sys2Proof.Machine
end
